-- ==== Sys2Proof/Word.lean ====
section
/-! DEFINITION. The word types of the block: a command word and a data register are 32 bits, a record
field and a register address 16, a record byte and a buffer sample 8 (R10, R12, R110). -/

namespace Sys2Proof

/-- A 32-bit pattern: a word of the command port (R110) or a data register (R10). -/
abbrev Word := BitVec 32

/-- A 16-bit pattern: a field of the filter record or a register-space address (R52, R123). -/
abbrev Half := BitVec 16

/-- An 8-bit pattern: a byte of the filter record or a sample of the mixer buffer (R83, R119). -/
abbrev Byte := BitVec 8

end Sys2Proof
end

