-- ==== Sys2Proof/Syntax.lean ====
section
/-! DEFINITION. The commands of the block as syntax: one constructor for each row of the opcode map
(R115), with the operands of its assembler form (R127). -/

namespace Sys2Proof

/-- A filter direction: onset is 0, release is 1 (R126). -/
inductive Dir where
  | onset
  | release
deriving DecidableEq, Repr

/-- One command of the block (R115). A data operand is the 32-bit pattern that travels on the port; each
command's rule says whether it is read as `s32` or as `u32` (R112). -/
inductive Instr where
  /-- `NOP` (R150). -/
  | nop
  /-- `CLRERR` (R151). -/
  | clrerr
  /-- `REG_RD addr` (R152). -/
  | regRd (addr : Half)
  /-- `REG_WR addr, value` (R153). -/
  | regWr (addr : Half) (value : Word)
  /-- `OSC_GEN ch, amp, inc` (R179). -/
  | oscGen (ch : BitVec 4) (amp inc : Word)
  /-- `FLT_LOAD [b0, b1, ...]` (R201): the N record bytes, N being the IMM field (R119). -/
  | fltLoad (bytes : List Byte)
  /-- `FLT_EVAL dir, P` (R232). -/
  | fltEval (dir : Dir) (pos : Word)
  /-- `FLT_STEP x` (R240). -/
  | fltStep (x : Word)
  /-- `FLT_CLR` (R243). -/
  | fltClr
  /-- `MIX_INIT ms` (R261). -/
  | mixInit (ms : Word)
  /-- `MIX_TONE start_ms, len_ms` (R262). -/
  | mixTone (start len : Word)
  /-- `MIX_ADD sample` (R263). -/
  | mixAdd (sample : Word)
  /-- `MIX_RD pos` (R266). -/
  | mixRd (pos : Word)
  /-- `MIX_RDPCM pos` (R268). -/
  | mixRdpcm (pos : Word)
deriving DecidableEq, Repr

end Sys2Proof
end

