-- ==== Sys2Proof/WellFormed.lean ====
section
/-! DEFINITION. Which commands can be written down. The operand types already bound every field of a
header; the one check left is that the byte count of FLT_LOAD fits its 16-bit IMM field (R119). -/

namespace Sys2Proof

/-- The largest record byte count the IMM field can carry (R119). -/
def maxRecordBytes : Nat := 65535

/-- The command has an encoding: FLT_LOAD carries at most 65535 bytes (R119). -/
def Instr.wellFormed : Instr → Bool
  | .nop => true
  | .clrerr => true
  | .regRd _ => true
  | .regWr _ _ => true
  | .oscGen _ _ _ => true
  | .fltLoad bytes => decide (bytes.length ≤ maxRecordBytes)
  | .fltEval _ _ => true
  | .fltStep _ => true
  | .fltClr => true
  | .mixInit _ => true
  | .mixTone _ _ => true
  | .mixAdd _ => true
  | .mixRd _ => true
  | .mixRdpcm _ => true

end Sys2Proof
end

