-- ==== Sys2Proof/Decode.lean ====
section
/-! DEFINITION. The command format: the fields of a header (R111), the opcode map with its masks (R115),
the length of a command (R114), the decoder, total on any words and rejecting by name (R117, R118), and
the encoder written from the same tables. -/

namespace Sys2Proof

/-- The opcodes of the map (R115), one for each row. -/
inductive Opc where
  | nop | clrerr | regRd | regWr | oscGen | fltLoad | fltEval | fltStep | fltClr
  | mixInit | mixTone | mixAdd | mixRd | mixRdpcm
deriving DecidableEq, Repr

/-- OPC, bits 31:24 of a header (R111). -/
def opcField (h : Word) : Byte := h.extractLsb' 24 8

/-- IDX, bits 23:20 of a header (R111). -/
def idxField (h : Word) : BitVec 4 := h.extractLsb' 20 4

/-- SUB, bits 19:16 of a header (R111). -/
def subField (h : Word) : BitVec 4 := h.extractLsb' 16 4

/-- IMM, bits 15:0 of a header (R111). -/
def immField (h : Word) : Half := h.extractLsb' 0 16

/-- A header put together from its four fields (R111). -/
def headerOf (opc : Byte) (idx sub : BitVec 4) (imm : Half) : Word := opc ++ idx ++ sub ++ imm

/-- The OPC value of each row (R115). -/
def Opc.code : Opc → Byte
  | .nop => 0x00
  | .clrerr => 0x01
  | .regRd => 0x02
  | .regWr => 0x03
  | .oscGen => 0x10
  | .fltLoad => 0x20
  | .fltEval => 0x21
  | .fltStep => 0x22
  | .fltClr => 0x23
  | .mixInit => 0x30
  | .mixTone => 0x31
  | .mixAdd => 0x32
  | .mixRd => 0x33
  | .mixRdpcm => 0x34

/-- The row an OPC value selects; every other value is reserved (R115, R116). -/
def Opc.ofByte (b : Byte) : Option Opc :=
  match b.toNat with
  | 0x00 => some .nop
  | 0x01 => some .clrerr
  | 0x02 => some .regRd
  | 0x03 => some .regWr
  | 0x10 => some .oscGen
  | 0x20 => some .fltLoad
  | 0x21 => some .fltEval
  | 0x22 => some .fltStep
  | 0x23 => some .fltClr
  | 0x30 => some .mixInit
  | 0x31 => some .mixTone
  | 0x32 => some .mixAdd
  | 0x33 => some .mixRd
  | 0x34 => some .mixRdpcm
  | _ => none

/-- The header mask of each row: the bits that the row fixes (R115). -/
def Opc.mask : Opc → Word
  | .nop => 0xFFFFFFFF
  | .clrerr => 0xFFFFFFFF
  | .regRd => 0xFFFF0000
  | .regWr => 0xFFFF0000
  | .oscGen => 0xFF0FFFFF
  | .fltLoad => 0xFFFF0000
  | .fltEval => 0xFFFEFFFF
  | .fltStep => 0xFFFFFFFF
  | .fltClr => 0xFFFFFFFF
  | .mixInit => 0xFFFFFFFF
  | .mixTone => 0xFFFFFFFF
  | .mixAdd => 0xFFFFFFFF
  | .mixRd => 0xFFFFFFFF
  | .mixRdpcm => 0xFFFFFFFF

/-- The header match of each row: OPC in its place and zero in every reserved field (R115). -/
def Opc.pattern (o : Opc) : Word := headerOf o.code 0 0 0

/-- The number of data words that carry `n` record bytes, four to a word (R119). -/
def recordWords (n : Nat) : Nat := (n + 3) / 4

/-- The number of data words of a row, FLT_LOAD's from its IMM field (R113, R114). -/
def Opc.dataWords (o : Opc) (h : Word) : Nat :=
  match o with
  | .nop => 0
  | .clrerr => 0
  | .regRd => 0
  | .regWr => 1
  | .oscGen => 2
  | .fltLoad => recordWords (immField h).toNat
  | .fltEval => 1
  | .fltStep => 1
  | .fltClr => 0
  | .mixInit => 1
  | .mixTone => 2
  | .mixAdd => 1
  | .mixRd => 1
  | .mixRdpcm => 1

/-- The length in words of the command a header starts, whether or not its reserved fields are zero; an
undefined OPC has length 1 (R114). -/
def cmdLength (h : Word) : Nat :=
  match Opc.ofByte (opcField h) with
  | some o => o.dataWords h + 1
  | none => 1

/-- The four record bytes of a data word, the most significant lane first (R86, R119). -/
def wordBytes (w : Word) : List Byte :=
  [w.extractLsb' 24 8, w.extractLsb' 16 8, w.extractLsb' 8 8, w.extractLsb' 0 8]

/-- The first `n` record bytes that data words carry; the padding after them is dropped (R119). -/
def unpackBytes (n : Nat) (ds : List Word) : List Byte := (ds.flatMap wordBytes).take n

/-- The data words of record bytes, the last one padded with zeros (R119). -/
def packBytes : List Byte → List Word
  | [] => []
  | [a] => [a ++ (0 : BitVec 24)]
  | [a, b] => [a ++ b ++ (0 : BitVec 16)]
  | [a, b, c] => [a ++ b ++ c ++ (0 : BitVec 8)]
  | a :: b :: c :: d :: bs => (a ++ b ++ c ++ d) :: packBytes bs

/-- Whether a list has exactly `n` entries. -/
def hasLength {α : Type} : Nat → List α → Bool
  | 0, [] => true
  | n + 1, _ :: xs => hasLength n xs
  | _, _ => false

/-- Why words are no command. The first two are the causes of E_ILLEGAL (R117, R118); the block never
meets the last two, because it collects a command's words by their count (R114). -/
inductive DecodeError where
  | undefinedOpcode (header : Word)
  | reservedField (header : Word)
  | wordCount (header : Word)
  | noHeader
deriving DecidableEq, Repr

/-- The direction operand, SUB[0] of FLT_EVAL (R126). -/
def dirField (h : Word) : Dir := if (subField h).getLsbD 0 then .release else .onset

/-- A command with no data word. -/
def noData (i : Instr) : List Word → Option Instr
  | [] => some i
  | _ :: _ => none

/-- A command with one data word. -/
def oneData (mk : Word → Instr) : List Word → Option Instr
  | [d0] => some (mk d0)
  | _ => none

/-- A command with two data words. -/
def twoData (mk : Word → Word → Instr) : List Word → Option Instr
  | [d0, d1] => some (mk d0 d1)
  | _ => none

/-- The command that a header of a known row and its data words spell (R113); `none` for a wrong number
of data words. -/
def Opc.build (o : Opc) (h : Word) (ds : List Word) : Option Instr :=
  match o with
  | .nop => noData .nop ds
  | .clrerr => noData .clrerr ds
  | .regRd => noData (.regRd (immField h)) ds
  | .regWr => oneData (.regWr (immField h)) ds
  | .oscGen => twoData (.oscGen (idxField h)) ds
  | .fltLoad =>
    if hasLength (recordWords (immField h).toNat) ds
    then some (.fltLoad (unpackBytes (immField h).toNat ds)) else none
  | .fltEval => oneData (.fltEval (dirField h)) ds
  | .fltStep => oneData .fltStep ds
  | .fltClr => noData .fltClr ds
  | .mixInit => oneData .mixInit ds
  | .mixTone => twoData .mixTone ds
  | .mixAdd => oneData .mixAdd ds
  | .mixRd => oneData .mixRd ds
  | .mixRdpcm => oneData .mixRdpcm ds

/-- The decoder, on exactly one command's words: the opcode is looked up first, then the header is held
against its row's mask (R115, R117, R118, R298). -/
def decode : List Word → Except DecodeError Instr
  | [] => .error .noHeader
  | h :: ds =>
    match Opc.ofByte (opcField h) with
    | none => .error (.undefinedOpcode h)
    | some o =>
      if h &&& o.mask = o.pattern then
        match o.build h ds with
        | some i => .ok i
        | none => .error (.wordCount h)
      else .error (.reservedField h)

/-- The SUB field that carries a direction (R126). -/
def Dir.sub : Dir → BitVec 4
  | .onset => 0
  | .release => 1

/-- The words of a command, its header first (R113, R115). -/
def encode : Instr → List Word
  | .nop => [headerOf Opc.nop.code 0 0 0]
  | .clrerr => [headerOf Opc.clrerr.code 0 0 0]
  | .regRd addr => [headerOf Opc.regRd.code 0 0 addr]
  | .regWr addr value => [headerOf Opc.regWr.code 0 0 addr, value]
  | .oscGen ch amp inc => [headerOf Opc.oscGen.code ch 0 0, amp, inc]
  | .fltLoad bytes =>
    headerOf Opc.fltLoad.code 0 0 (BitVec.ofNat 16 bytes.length) :: packBytes bytes
  | .fltEval dir pos => [headerOf Opc.fltEval.code 0 dir.sub 0, pos]
  | .fltStep x => [headerOf Opc.fltStep.code 0 0 0, x]
  | .fltClr => [headerOf Opc.fltClr.code 0 0 0]
  | .mixInit ms => [headerOf Opc.mixInit.code 0 0 0, ms]
  | .mixTone start len => [headerOf Opc.mixTone.code 0 0 0, start, len]
  | .mixAdd sample => [headerOf Opc.mixAdd.code 0 0 0, sample]
  | .mixRd pos => [headerOf Opc.mixRd.code 0 0 0, pos]
  | .mixRdpcm pos => [headerOf Opc.mixRdpcm.code 0 0 0, pos]

/-- The first `n` words of a number whose least significant 32 bits are the first word. -/
def wordsOfNat : Nat → Nat → List Word
  | 0, _ => []
  | n + 1, w => BitVec.ofNat 32 w :: wordsOfNat n (w >>> 32)

/-- The words of the command whose bits are `w`, numbered as the opcode table numbers them; the bits at
`nbits` and above are 0. The header's length rule says how many words there are (R114). -/
def tableWords (nbits w : Nat) : List Word :=
  wordsOfNat (cmdLength (BitVec.ofNat 32 (w % 2 ^ nbits))) (w % 2 ^ nbits)

/-- The instruction the decoder reads from a table word; `none` where it refuses. -/
def decodeTableWord (nbits w : Nat) : Option Instr :=
  match decode (tableWords nbits w) with
  | .ok i => some i
  | .error _ => none

end Sys2Proof
end

