-- ==== Sys2Proof/Config.lean ====
section
/-! DEFINITION. What one implementation of the block fixes (R9): the number of oscillator channels, the
largest buffer, the noise table, the floating-point format and its three transcendental functions. The
parameters the spec leaves open have no body here, so nothing can be proved of their values. -/

namespace Sys2Proof

/-- The floating-point formats the parameter `FP_FMT` may name (R9). -/
inductive FpFmt where
  | binary32
  | binary64
deriving DecidableEq, Repr, Inhabited

/-- A finite floating-point value: `(-1)^neg * mant * 2^exp`. Zero keeps its sign (R14). -/
structure Fp where
  neg : Bool
  mant : Nat
  exp : Int
deriving DecidableEq, Repr, Inhabited

/-- The bit pattern of 1 in a format (R14): the values of 0 to 1 are those of the patterns up to it. -/
def FpFmt.patternOne : FpFmt → Nat
  | .binary32 => 0x3F800000
  | .binary64 => 0x3FF0000000000000

/-- The bit pattern of 256 in a format (R14). -/
def FpFmt.pattern256 : FpFmt → Nat
  | .binary32 => 0x43800000
  | .binary64 => 0x4070000000000000

/-- The bit pattern of the largest finite value of a format (R14). -/
def FpFmt.patternMax : FpFmt → Nat
  | .binary32 => 0x7F7FFFFF
  | .binary64 => 0x7FEFFFFFFFFFFFFF

/-- The configuration of the coefficient generator as one argument (R9): the format and the three functions as
an implementation supplies them. Nothing here makes them obey R222. -/
structure FpLib where
  fmt : FpFmt
  pow10 : Fp → Fp
  pow2 : Fp → Fp
  cos : Fp → Fp

/-- `N_OSC - 1`. The spec leaves `N_OSC` open between 1 and 16 (R9, D8); the type bounds it. -/
opaque Config.nOscMinusOne : Fin 16

/-- `N_OSC`, the number of oscillator channels, 1 to 16 (R9). -/
def Config.nOsc : Nat := Config.nOscMinusOne.val + 1

/-- Whether the entry of `NOISE_TABLE` at an index is +1; the other entries are -1 (R172, D12). -/
opaque Config.noisePositive : Nat → Bool

/-- `FP_FMT`, the format of the coefficient generator (R9, D15). -/
opaque Config.fpFmt : FpFmt

/-- The block's `pow10F` below zero, as the place of its value among -0 and the patterns of 0 to 1 in their order:
the type is PRANGE (R222, D15). -/
opaque Config.pow10Low : (f : FpFmt) → Fp → Fin (f.patternOne + 2)

/-- The block's `pow10F` above zero, as the place of its value among all finite values in their order
(R222, D15). -/
opaque Config.pow10High : (f : FpFmt) → Fp → Fin (2 * f.patternMax + 2)

/-- The block's `pow2F` on 0 to 8, as the place of its value among the patterns of 1 to 256: the type is PRANGE
(R222, D15). -/
opaque Config.pow2Mid : (f : FpFmt) → Fp → Fin (f.pattern256 - f.patternOne + 1)

/-- The block's `pow2F` outside 0 to 8, as the place of its value among all finite values in their order
(R222, D15). -/
opaque Config.pow2Out : (f : FpFmt) → Fp → Fin (2 * f.patternMax + 2)

/-- The block's `cosF`, as the place of its value among the values of -1 to 1 in their order: the type is PRANGE
(R222, D15). -/
opaque Config.cosAll : (f : FpFmt) → Fp → Fin (2 * f.patternOne + 2)

/-- `BUF_MAX`, the largest buffer length in samples: 2^22 (R9, D22). -/
def Config.bufMax : Nat := 4194304

end Sys2Proof
end

