-- ==== Sys2Proof/Machine/State.lean ====
section
/-! DEFINITION. The state of the block as plain data (R30): every register of the register map (R52), the
mixer buffer (R83), the command position and the assembly buffer (R31), and the host's pending input; the
reasons a step can stop; and the state after reset (R320, R321). -/

namespace Sys2Proof.Machine

/-- A value for each filter direction (R126). -/
structure PerDir (α : Type) where
  onset : α
  release : α
deriving DecidableEq, Repr

/-- A value for each end of the envelope: start is `e = 0`, end is `e = 1` (R40, R42). -/
structure PerEnd (α : Type) where
  start : α
  stop : α
deriving DecidableEq, Repr

/-- An end of the envelope: `e = 0` and `e = 1` (R42). -/
inductive End where
  | start
  | stop
deriving DecidableEq, Repr

/-- The errors a command can raise (R291). -/
inductive ErrCode where
  /-- `E_ILLEGAL`. -/
  | illegal
  /-- `E_ADDR`. -/
  | addr
  /-- `E_RANGE`. -/
  | range
  /-- `E_FMT_PAIRS`. -/
  | fmtPairs
  /-- `E_FMT_TRUNC`. -/
  | fmtTrunc
deriving DecidableEq, Repr

/-- The fields of STATUS (R34). Its reserved bits are held nowhere, since they always read 0. -/
structure Status where
  err : Bool
  lasterr : Bool
  envreq : Bool
  ecode : Byte
deriving DecidableEq, Repr

/-- The FilterSpec registers (R39 to R43). -/
structure FilterSpec where
  pcnt : PerDir (BitVec 3)
  unity : PerEnd Half
  migr : Byte
  freq : PerDir (PerEnd (Vector Half 4))
  range : PerDir (PerEnd (Vector Half 4))
deriving DecidableEq, Repr

/-- What the host does to the block, in order: it writes a word to the command port (R3, R81) or asserts
the reset input (R320). -/
inductive PortEvent where
  | word (w : Word)
  | reset
deriving DecidableEq, Repr

/-- The state of the block. -/
structure State where
  /-- STATUS (R34). -/
  status : Status
  /-- RESULT (R35). -/
  result : Word
  /-- ERRINFO (R36). -/
  errinfo : Word
  /-- OSC_SHAPE[i] for the channels below N_OSC; the entries at N_OSC and above are no registers (R37). -/
  oscShape : Vector Byte 16
  /-- OSC_PHASE[i], as `oscShape` (R38). -/
  oscPhase : Vector Word 16
  /-- PCNT, UNITY, MIGR, FREQ and RANGE (R39 to R43). -/
  spec : FilterSpec
  /-- UNITY16 (R44). -/
  unity16 : Word
  /-- NCO[d] (R45). -/
  nco : PerDir (BitVec 4)
  /-- C16[d][k] (R46). -/
  c16 : PerDir (Vector Word 8)
  /-- XH[k] (R47). -/
  xh : Vector Word 8
  /-- YH[k] (R47). -/
  yh : Vector Word 8
  /-- MIX_LEN (R48). -/
  mixLen : Word
  /-- MIX_OFS (R49). -/
  mixOfs : Word
  /-- MIX_CNT (R49). -/
  mixCnt : Word
  /-- MIX_IDX (R49). -/
  mixIdx : Word
  /-- BUF (R83): the samples that are not 0, by index, indices rising. -/
  buf : List Host.Cell
  /-- The command position `cp` (R31). -/
  cp : Word
  /-- The assembly buffer: the words received so far of the command now arriving (R31, R51). -/
  asm : List Word
  /-- The model's own field: what the host has done that the block has not taken yet, oldest first. -/
  port : List PortEvent
deriving DecidableEq, Repr

/-- Why the block stops. Every constructor is met only in a state that no run from reset reaches, and
stopping there is safe: no claim about such a state becomes provable that a real block would break. -/
inductive Fault where
  /-- MIX_ADD, MIX_RD or MIX_RDPCM would reach BUF outside 0 to MIX_LEN-1, which R84 rules out. Safe. -/
  | bufIndex
  /-- FLT_EVAL finds a pair count above 4 in PCNT, which R39 rules out. Safe. -/
  | pairCount
  /-- FLT_STEP finds a coefficient count above 8 in NCO, which R45 rules out. Safe. -/
  | tapCount
deriving DecidableEq, Repr

/-- Why the model gives no next state where no fault is met. -/
inductive Refusal where
  /-- An instruction with no meaning yet, by its mnemonic. Every command has its meaning, so no arm of `exec` raises
  it; safe. -/
  | notModelled (mnemonic : String)
  /-- FLT_EVAL is given configuration functions that break R222 at an argument it asks them for: it refuses to
  produce a state (R310). The block's own functions never do, so no run raises it. Safe. -/
  | unlawfulFunctions
deriving DecidableEq, Repr

/-- What a command's meaning answers. -/
abbrev Outcome := Host.Outcome State Fault Refusal

/-- STATUS after reset (R321). -/
def Status.reset : Status := { err := false, lasterr := false, envreq := false, ecode := 0 }

/-- The FilterSpec with every field 0: after reset (R321), and what a zero count byte gives (R203). -/
def FilterSpec.zero : FilterSpec :=
  { pcnt := ⟨0, 0⟩
    unity := ⟨0, 0⟩
    migr := 0
    freq := ⟨⟨Vector.replicate 4 0, Vector.replicate 4 0⟩,
      ⟨Vector.replicate 4 0, Vector.replicate 4 0⟩⟩
    range := ⟨⟨Vector.replicate 4 0, Vector.replicate 4 0⟩,
      ⟨Vector.replicate 4 0, Vector.replicate 4 0⟩⟩ }

/-- The block right after reset: every register 0, no buffer, no word consumed (R320, R321). -/
def State.reset : State :=
  { status := Status.reset
    result := 0
    errinfo := 0
    oscShape := Vector.replicate 16 0
    oscPhase := Vector.replicate 16 0
    spec := FilterSpec.zero
    unity16 := 0
    nco := ⟨0, 0⟩
    c16 := ⟨Vector.replicate 8 0, Vector.replicate 8 0⟩
    xh := Vector.replicate 8 0
    yh := Vector.replicate 8 0
    mixLen := 0
    mixOfs := 0
    mixCnt := 0
    mixIdx := 0
    buf := []
    cp := 0
    asm := []
    port := [] }

end Sys2Proof.Machine
end

