-- ==== Sys2Proof/Machine/Operands.lean ====
section
/-! DEFINITION. How operands are read: the integer operators of the spec's rules (R12, R13), and the
register space of REG_RD and REG_WR, address by address (R52). -/

namespace Sys2Proof.Machine

/-- `wrap32`: the 32-bit pattern of an integer modulo 2^32 (R12). -/
def wrap32 (v : Int) : Word := BitVec.ofInt 32 v

/-- `sext_32`: a 32-bit pattern read as two's complement (R12). -/
abbrev s32 (w : Word) : Int := w.toInt

/-- `zext_32`: a 32-bit pattern read as unsigned (R12). -/
abbrev u32 (w : Word) : Nat := w.toNat

/-- `sext_8`: an 8-bit pattern read as two's complement (R12). -/
abbrev s8 (b : Byte) : Int := b.toInt

/-- `low8`: the 8-bit pattern of an integer modulo 256 (R12). -/
def low8 (v : Int) : Byte := BitVec.ofInt 8 v

/-- `a >> n`: the floor of `a / 2^n` (R13). -/
def asr (a : Int) (n : Nat) : Int := a / 2 ^ n

/-- `tdiv(a, b)`: division truncated toward zero (R13). -/
def tdiv (a b : Int) : Int := Int.tdiv a b

/-- `a & 0x7FFF`: the integer modulo 32768, since 0x7FFF + 1 is a power of two (R13). -/
def and15 (a : Int) : Nat := (a % 32768).toNat

/-- Whether the block has oscillator channel `i`, that is `i < N_OSC`; channel 0 always exists (R9, R170). -/
def channelExists (i : Nat) : Bool := i == 0 || decide (i < Config.nOsc)

/-- The registers of the register map (R52). -/
inductive Reg where
  | status
  | result
  | errinfo
  | oscShape (i : BitVec 4)
  | oscPhase (i : BitVec 4)
  | fsPairs
  | fsUnity (e : End)
  | fsMigr
  | fsFreq (d : Dir) (e : End) (n : BitVec 2)
  | fsRange (d : Dir) (e : End) (n : BitVec 2)
  | fltUnity16
  | fltNco (d : Dir)
  | fltC16 (d : Dir) (k : BitVec 3)
  | fltXh (k : BitVec 3)
  | fltYh (k : BitVec 3)
  | mixLen
  | mixOfs
  | mixCnt
  | mixIdx
deriving DecidableEq, Repr

/-- Bit 3 of a block's column is the envelope end `e`, weight 8 (R52). -/
def endOfCol (col : BitVec 4) : End := if col.getLsbD 3 then .stop else .start

/-- Bit 3 of a coefficient's column is the direction `d`, weight 8 (R52). -/
def dirOfCol (col : BitVec 4) : Dir := if col.getLsbD 3 then .release else .onset

/-- The code registers of one direction: the columns with `n` at 4 to 7 are unmapped (R52). -/
def codeReg (mk : End → BitVec 2 → Reg) (col : BitVec 4) : Option Reg :=
  if col.getLsbD 2 then none else some (mk (endOfCol col) (col.extractLsb' 0 2))

/-- The register at an address of the register space, if one is mapped there (R52): page, row and column
are the address bits 15:8, 7:4 and 3:0. -/
def Reg.ofAddr (a : Half) : Option Reg :=
  let col := a.extractLsb' 0 4
  match (a.extractLsb' 8 8).toNat, (a.extractLsb' 4 4).toNat with
  | 0x00, 0x0 =>
    match col.toNat with
    | 0 => some .status
    | 1 => some .result
    | 2 => some .errinfo
    | _ => none
  | 0x00, 0x1 => if channelExists col.toNat then some (.oscShape col) else none
  | 0x00, 0x2 => if channelExists col.toNat then some (.oscPhase col) else none
  | 0x01, 0x0 =>
    match col.toNat with
    | 0 => some .fsPairs
    | 1 => some (.fsUnity .start)
    | 2 => some (.fsUnity .stop)
    | 3 => some .fsMigr
    | _ => none
  | 0x01, 0x1 => codeReg (.fsFreq .onset) col
  | 0x01, 0x2 => codeReg (.fsFreq .release) col
  | 0x01, 0x3 => codeReg (.fsRange .onset) col
  | 0x01, 0x4 => codeReg (.fsRange .release) col
  | 0x01, 0x5 =>
    match col.toNat with
    | 0 => some .fltUnity16
    | 1 => some (.fltNco .onset)
    | 2 => some (.fltNco .release)
    | _ => none
  | 0x01, 0x6 => some (.fltC16 (dirOfCol col) (col.extractLsb' 0 3))
  | 0x01, 0x8 =>
    if col.getLsbD 3 then some (.fltYh (col.extractLsb' 0 3)) else some (.fltXh (col.extractLsb' 0 3))
  | 0x02, 0x0 =>
    match col.toNat with
    | 0 => some .mixLen
    | 1 => some .mixOfs
    | 2 => some .mixCnt
    | 3 => some .mixIdx
    | _ => none
  | _, _ => none

end Sys2Proof.Machine
end

