-- ==== Sys2Proof/Machine/Flags.lean ====
section
/-! DEFINITION. STATUS (R34): the word the host reads, and the four ways a command changes its fields: an
error (R296), a success (R297), CLRERR (R151) and the envelope request of FLT_LOAD (R205). The block has
no other flag: saturation and wrap-around set none (R55). -/

namespace Sys2Proof.Machine

/-- The STATUS word: ERR bit 0, LASTERR bit 1, ENVREQ bit 2, ECODE bits 15:8, every other bit 0 (R34). -/
def Status.toWord (s : Status) : Word :=
  (0 : Half) ++ s.ecode ++ (0 : BitVec 5) ++ BitVec.ofBool s.envreq ++ BitVec.ofBool s.lasterr
    ++ BitVec.ofBool s.err

/-- The number of an error as STATUS.ECODE stores it (R291). -/
def ErrCode.code : ErrCode → Byte
  | .illegal => 0x01
  | .addr => 0x02
  | .range => 0x03
  | .fmtPairs => 0x10
  | .fmtTrunc => 0x11

/-- The flags after an error: ECODE is stored if ERR was 0, then ERR and LASTERR become 1 (R296). -/
def Status.afterError (s : Status) (e : ErrCode) : Status :=
  { s with err := true, lasterr := true, ecode := if s.err then s.ecode else e.code }

/-- The flags after a command that raised no error: LASTERR becomes 0 (R297). -/
def Status.afterSuccess (s : Status) : Status := { s with lasterr := false }

/-- The flags CLRERR clears: ERR and ECODE (R151). -/
def Status.cleared (s : Status) : Status := { s with err := false, ecode := 0 }

/-- The envelope request that a successful FLT_LOAD stores (R205). -/
def Status.withEnvreq (s : Status) (env : Bool) : Status := { s with envreq := env }

end Sys2Proof.Machine
end

