-- ==== Sys2Proof/Machine/Ops.lean ====
section
/-! DEFINITION. The named operations over registers, the mixer buffer and the command port that the
meanings share: raising an error, which is what this block has for taking an exception (R296, R302), and
clearing its record, which is its only return (R151); completing a command (R297); the register map (R52);
the buffer's one-sample reads and writes (R84); collecting a command's words (R31, R114). -/

namespace Sys2Proof.Machine

/-- A command raises an error: the first one since CLRERR is recorded in ECODE and ERRINFO, ERR and LASTERR
are set, and nothing else changes (R296). -/
def State.raise (s : State) (e : ErrCode) (info : Word) : State :=
  { s with
    errinfo := if s.status.err then s.errinfo else info
    status := s.status.afterError e }

/-- The record of errors is cleared, the block's one way back from an error (R151, R302). -/
def State.clearErrors (s : State) : State :=
  { s with status := s.status.cleared, errinfo := 0 }

/-- A command completes without an error (R297). -/
def State.complete (s : State) : State := { s with status := s.status.afterSuccess }

/-- A command completes without an error and leaves a result in RESULT (R35, R297). -/
def State.completeWith (s : State) (v : Word) : State :=
  { s with result := v, status := s.status.afterSuccess }

/-- The value of a direction. -/
def PerDir.get {α : Type} (p : PerDir α) : Dir → α
  | .onset => p.onset
  | .release => p.release

/-- The value of a direction replaced. -/
def PerDir.put {α : Type} (p : PerDir α) (d : Dir) (v : α) : PerDir α :=
  match d with
  | .onset => { p with onset := v }
  | .release => { p with release := v }

/-- The value of an end. -/
def PerEnd.get {α : Type} (p : PerEnd α) : End → α
  | .start => p.start
  | .stop => p.stop

/-- Entry `n` of a bank of four, one for each pair. -/
def pick4 {α : Type} (v : Vector α 4) (n : BitVec 2) : α :=
  v[n.toNat]'(by have := n.isLt; omega)

/-- Entry `k` of a bank of eight, one for each coefficient. -/
def pick8 {α : Type} (v : Vector α 8) (k : BitVec 3) : α :=
  v[k.toNat]'(by have := k.isLt; omega)

/-- Entry `i` of a bank of sixteen, one for each channel number. -/
def pick16 {α : Type} (v : Vector α 16) (i : BitVec 4) : α :=
  v[i.toNat]'(by have := i.isLt; omega)

/-- Entry `i` of a bank of sixteen replaced. -/
def put16 {α : Type} (v : Vector α 16) (i : BitVec 4) (x : α) : Vector α 16 :=
  v.set i.toNat x (by have := i.isLt; omega)

/-- The value of a register as a 32-bit pattern, zero-extended if it is narrower (R52, R152). -/
def State.regValue (s : State) : Reg → Word
  | .status => s.status.toWord
  | .result => s.result
  | .errinfo => s.errinfo
  | .oscShape i => (pick16 s.oscShape i).setWidth 32
  | .oscPhase i => pick16 s.oscPhase i
  | .fsPairs => s.spec.pcnt.onset.setWidth 32 * 16 + s.spec.pcnt.release.setWidth 32
  | .fsUnity e => (s.spec.unity.get e).setWidth 32
  | .fsMigr => s.spec.migr.setWidth 32
  | .fsFreq d e n => (pick4 ((s.spec.freq.get d).get e) n).setWidth 32
  | .fsRange d e n => (pick4 ((s.spec.range.get d).get e) n).setWidth 32
  | .fltUnity16 => s.unity16
  | .fltNco d => (s.nco.get d).setWidth 32
  | .fltC16 d k => pick8 (s.c16.get d) k
  | .fltXh k => pick8 s.xh k
  | .fltYh k => pick8 s.yh k
  | .mixLen => s.mixLen
  | .mixOfs => s.mixOfs
  | .mixCnt => s.mixCnt
  | .mixIdx => s.mixIdx

/-- A register-space read: `none` at an unmapped address (R152). -/
def State.readReg (s : State) (a : Half) : Option Word := (Reg.ofAddr a).map s.regValue

/-- A write to a register: only the shapes, of which bits 7:0 are kept, and the phases are writable
(R37, R38, R52). -/
def State.putReg (s : State) (r : Reg) (v : Word) : Option State :=
  match r with
  | .oscShape i => some { s with oscShape := put16 s.oscShape i (v.setWidth 8) }
  | .oscPhase i => some { s with oscPhase := put16 s.oscPhase i v }
  | _ => none

/-- A register-space write: `none` at an unmapped address or a read-only register (R153). -/
def State.writeReg (s : State) (a : Half) (v : Word) : Option State :=
  match Reg.ofAddr a with
  | some r => s.putReg r v
  | none => none

/-- What an unlisted index of BUF reads as: MIX_INIT fills the buffer with zeros (R83). -/
def Memory.unlisted : Byte := 0

/-- The byte at an index. -/
def Memory.read : List Host.Cell → Nat → Byte
  | [], _ => Memory.unlisted
  | (a, b) :: m, p => if a = p then b else Memory.read m p

/-- A listed byte put before the cells that follow it, unless it is what an unlisted index reads as. -/
def Memory.cons (p : Nat) (v : Byte) (m : List Host.Cell) : List Host.Cell :=
  if v = Memory.unlisted then m else (p, v) :: m

/-- The byte at an index replaced, keeping the canonical form. -/
def Memory.write : List Host.Cell → Nat → Byte → List Host.Cell
  | [], p, v => Memory.cons p v []
  | (a, b) :: m, p, v =>
    if a < p then (a, b) :: Memory.write m p v
    else if a = p then Memory.cons p v m
    else Memory.cons p v ((a, b) :: m)

/-- The canonical form: indices strictly rising from `lo` on, and no listed byte that an unlisted index
reads as. -/
def Memory.wfFrom : Nat → List Host.Cell → Bool
  | _, [] => true
  | lo, (a, b) :: m => decide (lo ≤ a) && decide (b ≠ Memory.unlisted) && Memory.wfFrom (a + 1) m

/-- The canonical form of a memory. -/
def Memory.wf (m : List Host.Cell) : Bool := Memory.wfFrom 0 m

/-- `MemRead(BUF, p, 1)` as a pattern; `none` outside 0 to MIX_LEN-1 (R84). -/
def State.bufRead (s : State) (p : Nat) : Option Byte :=
  if p < s.mixLen.toNat then some (Memory.read s.buf p) else none

/-- `MemWrite(BUF, p, 1, v)`; `none` outside 0 to MIX_LEN-1 (R84). -/
def State.bufWrite (s : State) (p : Nat) (v : Byte) : Option State :=
  if p < s.mixLen.toNat then some { s with buf := Memory.write s.buf p v } else none

/-- What the host reads on the read port: STATUS, RESULT and ERRINFO (R54). -/
structure ReadPort where
  status : Word
  result : Word
  errinfo : Word
deriving DecidableEq, Repr

/-- The read port as it stands after the last completed command; reading it changes nothing (R54). -/
def State.readPort (s : State) : ReadPort :=
  { status := s.status.toWord, result := s.result, errinfo := s.errinfo }

/-- What the host has done, looked at until `n` words are found. -/
inductive PortFront where
  /-- `n` words stand in front; what follows them. -/
  | ready (rest : List PortEvent)
  /-- The host asserted reset before that; what follows the reset. -/
  | reset (rest : List PortEvent)
  /-- Fewer words have been written so far. -/
  | short

/-- Whether `n` words have arrived with no reset among them. -/
def portFront : Nat → List PortEvent → PortFront
  | 0, port => .ready port
  | _ + 1, [] => .short
  | _ + 1, .reset :: rest => .reset rest
  | n + 1, .word _ :: rest => portFront n rest

/-- The words in front of the port, at most `n`. -/
def frontWords : Nat → List PortEvent → List Word
  | 0, _ => []
  | _ + 1, [] => []
  | _ + 1, .reset :: _ => []
  | n + 1, .word w :: rest => w :: frontWords n rest

/-- What the block does next. -/
inductive Fetch where
  /-- No whole command has arrived: the words go to the assembly buffer and the block waits (R31, R51). -/
  | waiting (asm : List Word)
  /-- The host asserted reset, between commands or in the middle of one (R320). -/
  | reset (rest : List PortEvent)
  /-- A command's last word has arrived (R31, R114). -/
  | command (words : List Word) (rest : List PortEvent)

/-- The words of the command now arriving joined by `n` more from the port. -/
def fetchMore (asm : List Word) (n : Nat) (port : List PortEvent) : Fetch :=
  match portFront n port with
  | .ready rest => .command (asm ++ frontWords n port) rest
  | .reset rest => .reset rest
  | .short => .waiting (asm ++ frontWords n port)

/-- The fetch: the first word is a header, and the header says how many words follow it (R31, R114). -/
def fetch (asm : List Word) (port : List PortEvent) : Fetch :=
  match asm with
  | h :: _ => fetchMore asm (cmdLength h - asm.length) port
  | [] =>
    match port with
    | [] => .waiting []
    | .reset :: rest => .reset rest
    | .word h :: rest => fetchMore [h] (cmdLength h - 1) rest

/-- A command's words are taken: `cp` advances by their number modulo 2^32 and the assembly buffer is
emptied (R31). -/
def State.consume (s : State) (n : Nat) (rest : List PortEvent) : State :=
  { s with cp := s.cp + BitVec.ofNat 32 n, asm := [], port := rest }

/-- The block waits for the rest of a command: no other state changes (R31, R51). -/
def State.await (s : State) (asm : List Word) : State := { s with asm := asm, port := [] }

/-- The reset input: every register goes to its reset value and a partial command is discarded (R320). What
the host does after the reset stays pending. -/
def State.takeReset (rest : List PortEvent) : State := { State.reset with port := rest }

/-- A header that spells no command raises E_ILLEGAL with the header as its information (R117, R118, R292). -/
def State.raiseIllegal (s : State) (words : List Word) : State :=
  s.raise .illegal (words.headD 0)

end Sys2Proof.Machine
end

