-- ==== Sys2Proof/Machine/Control.lean ====
section
/-! DEFINITION. The control commands: NOP, CLRERR, REG_RD and REG_WR (R150 to R153). -/

namespace Sys2Proof.Machine

/-- NOP: nothing but LASTERR (R150). -/
def execNop (s : State) : Outcome := .next s.complete

/-- CLRERR: the error record is cleared (R151). -/
def execClrerr (s : State) : Outcome := .next s.clearErrors.complete

/-- REG_RD: a mapped register goes to RESULT, as it was before this command; an unmapped address raises
E_ADDR (R53, R152). -/
def execRegRd (addr : Half) (s : State) : Outcome :=
  .next (match s.readReg addr with
    | some v => s.completeWith v
    | none => s.raise .addr (addr.setWidth 32))

/-- REG_WR: a shape or a phase is written; an unmapped or read-only address raises E_ADDR (R153). -/
def execRegWr (addr : Half) (value : Word) (s : State) : Outcome :=
  .next (match s.writeReg addr value with
    | some t => t.complete
    | none => s.raise .addr (addr.setWidth 32))

end Sys2Proof.Machine
end

