-- ==== Sys2Proof/Machine/Float.lean ====
section
/-! DEFINITION. The arithmetic of the coefficient generator (R14, R220 to R222): IEEE 754 binary32 and
binary64 values as exact sign, significand and exponent; addition, multiplication and division rounded to
nearest, ties to even, with gradual underflow; truncation to an integer; the constants; whether the three
configuration functions obey R222 at an argument; and those of this block. No infinity and no NaN is modelled:
none can arise from functions that obey R222, and FLT_EVAL refuses others (R310). -/

namespace Sys2Proof.Machine

/-- The significand width in bits: 24 or 53 (R14). -/
def precision : FpFmt → Nat
  | .binary32 => 24
  | .binary64 => 53

/-- The exponent of the least subnormal value: the smallest quantum (R14). -/
def minQuantum : FpFmt → Int
  | .binary32 => -149
  | .binary64 => -1074

/-- The exponent of the quantum of the largest finite values (R14). -/
def maxQuantum : FpFmt → Int
  | .binary32 => 104
  | .binary64 => 971

/-- Whether a value is a finite value of the format (R14). -/
def inFormat (f : FpFmt) (x : Fp) : Bool :=
  decide (x.mant < 2 ^ precision f) && decide (minQuantum f ≤ x.exp) && decide (x.exp ≤ maxQuantum f)

/-- `num / den` rounded to the nearest natural number, ties to even. -/
def roundHalfEven (num den : Nat) : Nat :=
  let q := num / den
  let r := num % den
  if 2 * r < den then q else if den < 2 * r then q + 1 else q + q % 2

/-- The floor of the binary logarithm of `num / den`, both positive. -/
def floorLog2 (num den : Nat) : Int :=
  let l : Int := (num.log2 : Int) - (den.log2 : Int)
  if den * 2 ^ l.toNat ≤ num * 2 ^ (-l).toNat then l else l - 1

/-- The exponent of the quantum that `num / den` is rounded to: its own, or the least one where that is
larger, which is gradual underflow (R14). -/
def quantum (f : FpFmt) (num den : Nat) : Int :=
  max (floorLog2 num den - (precision f - 1 : Nat)) (minQuantum f)

/-- The value of the format nearest to `num / den` with the sign `neg`, ties to even (R14). A significand
that rounds up to the next power of two is shifted back into its width. -/
def roundTo (f : FpFmt) (neg : Bool) (num den : Nat) : Fp :=
  let q := quantum f num den
  let m := roundHalfEven (num * 2 ^ (-q).toNat) (den * 2 ^ q.toNat)
  if num = 0 then { neg := neg, mant := 0, exp := minQuantum f }
  else if m = 2 ^ precision f then { neg := neg, mant := 2 ^ (precision f - 1), exp := q + 1 }
  else { neg := neg, mant := m, exp := q }

/-- The value of the format nearest to `m * 2^e` with the sign `neg`. -/
def roundDyadic (f : FpFmt) (neg : Bool) (m : Nat) (e : Int) : Fp :=
  roundTo f neg (m * 2 ^ e.toNat) (2 ^ (-e).toNat)

/-- `fl(v)` of an integer (R14). -/
def flInt (f : FpFmt) (v : Int) : Fp := roundTo f (decide (v < 0)) v.natAbs 1

/-- The significand of a value with its sign, at an exponent no larger than its own. -/
def signedAt (x : Fp) (e : Int) : Int :=
  let m : Int := (x.mant * 2 ^ (x.exp - e).toNat : Nat)
  if x.neg then -m else m

/-- `a +F b` (R14). An exact sum of zero is +0, unless both operands have the minus sign. -/
def fpAdd (f : FpFmt) (a b : Fp) : Fp :=
  let e := min a.exp b.exp
  let m := signedAt a e + signedAt b e
  roundDyadic f (if m = 0 then a.neg && b.neg else decide (m < 0)) m.natAbs e

/-- `negF(a)`: the sign flipped (R14). -/
def fpNeg (a : Fp) : Fp := { a with neg := !a.neg }

/-- `a -F b`: the sum with the sign of `b` flipped (R14). -/
def fpSub (f : FpFmt) (a b : Fp) : Fp := fpAdd f a (fpNeg b)

/-- `a *F b` (R14). -/
def fpMul (f : FpFmt) (a b : Fp) : Fp :=
  roundDyadic f (a.neg != b.neg) (a.mant * b.mant) (a.exp + b.exp)

/-- `a /F b` for a nonzero `b` (R14); every divisor of the coefficient generator is a positive constant. -/
def fpDiv (f : FpFmt) (a b : Fp) : Fp :=
  let e := a.exp - b.exp
  roundTo f (a.neg != b.neg) (a.mant * 2 ^ e.toNat) (b.mant * 2 ^ (-e).toNat)

/-- `truncF(a)`: the integer nearest to `a` in the direction of zero (R14). -/
def truncF (a : Fp) : Int :=
  let m : Int := (a.mant * 2 ^ a.exp.toNat / 2 ^ (-a.exp).toNat : Nat)
  if a.neg then -m else m

/-- `K_UNITY`, 25/8192 (R221). -/
def kUnity (f : FpFmt) : Fp := roundTo f false 25 8192

/-- `K_RANGE`, 25/16384 (R221). -/
def kRange (f : FpFmt) : Fp := roundTo f false 25 16384

/-- `K_FREQ`, 1/8192 (R221). -/
def kFreq (f : FpFmt) : Fp := roundTo f false 1 8192

/-- `K_REF`, the value nearest to 32.703197 (R221). -/
def kRef (f : FpFmt) : Fp := roundTo f false 32703197 1000000

/-- `K_PI`, the value nearest to pi (R221): pi to twenty decimals rounds to the same value. -/
def kPi (f : FpFmt) : Fp := roundTo f false 314159265358979323846 (10 ^ 20)

/-- `K_CLK`, 11025 (R221). -/
def kClk (f : FpFmt) : Fp := flInt f 11025

/-- Whether the magnitude of a value is at most an integer. -/
def magLe (x : Fp) (k : Nat) : Bool :=
  decide (x.mant * 2 ^ x.exp.toNat ≤ k * 2 ^ (-x.exp).toNat)

/-- Whether the magnitude of a value is at least an integer. -/
def magGe (x : Fp) (k : Nat) : Bool :=
  decide (k * 2 ^ (-x.exp).toNat ≤ x.mant * 2 ^ x.exp.toNat)

/-- Whether a value is a zero of either sign. -/
def isZero (x : Fp) : Bool := x.mant == 0

/-- Whether a value is zero or has the plus sign. -/
def isNonneg (x : Fp) : Bool := !x.neg || isZero x

/-- Whether a value is 1. -/
def isOne (x : Fp) : Bool := !x.neg && magLe x 1 && magGe x 1

/-- Whether `pow10F` obeys R222 at an argument: it gives a finite value of the format, 1 at both zeros (PZERO),
and a value of 0 to 1 at every `e <= 0` (PRANGE). -/
def pow10Lawful (l : FpLib) (e : Fp) : Bool :=
  inFormat l.fmt (l.pow10 e) && (!isZero e || isOne (l.pow10 e))
    && (!(e.neg || isZero e) || (isNonneg (l.pow10 e) && magLe (l.pow10 e) 1))

/-- Whether `pow2F` obeys R222 at an argument: it gives a finite value of the format, 1 at zero (PZERO), and a
value of 1 to 256 at every `e` in 0 to 8 (PRANGE). -/
def pow2Lawful (l : FpLib) (e : Fp) : Bool :=
  inFormat l.fmt (l.pow2 e) && (e.neg || !isZero e || isOne (l.pow2 e))
    && (!(isNonneg e && magLe e 8)
      || (isNonneg (l.pow2 e) && magGe (l.pow2 e) 1 && magLe (l.pow2 e) 256))

/-- Whether `cosF` obeys R222 at an argument: it gives a finite value of the format, of -1 to 1 (PRANGE). -/
def cosLawful (l : FpLib) (x : Fp) : Bool := inFormat l.fmt (l.cos x) && magLe (l.cos x) 1

/-- The value of a format with a bit pattern whose sign bit is 0: subnormal values and zero below the first
normal pattern (R14). -/
def ofPattern (f : FpFmt) (n : Nat) : Fp :=
  let w := 2 ^ (precision f - 1)
  if n < w then { neg := false, mant := n, exp := minQuantum f }
  else { neg := false, mant := w + n % w, exp := minQuantum f + (n / w - 1 : Nat) }

/-- The finite values of a format in their order: +0 at 0 and the patterns after it, -0 at -1 and the negative
values before it (R14). -/
def ofPlace (f : FpFmt) (i : Int) : Fp :=
  if 0 ≤ i then ofPattern f i.toNat else fpNeg (ofPattern f (-i - 1).toNat)

/-- The block's `pow10F`: 1 at both zeros (PZERO), elsewhere the value at the place that `Config` gives
(R222). -/
def blockPow10 (f : FpFmt) (e : Fp) : Fp :=
  if isZero e then flInt f 1
  else if e.neg then ofPlace f ((Config.pow10Low f e).val - 1)
  else ofPlace f ((Config.pow10High f e).val - (f.patternMax + 1))

/-- The block's `pow2F`: 1 at zero (PZERO), elsewhere the value at the place that `Config` gives (R222). -/
def blockPow2 (f : FpFmt) (e : Fp) : Fp :=
  if isZero e && !e.neg then flInt f 1
  else if isNonneg e && magLe e 8 then ofPlace f (f.patternOne + (Config.pow2Mid f e).val)
  else ofPlace f ((Config.pow2Out f e).val - (f.patternMax + 1))

/-- The block's `cosF`: the value at the place that `Config` gives (R222). -/
def blockCos (f : FpFmt) (x : Fp) : Fp := ofPlace f ((Config.cosAll f x).val - (f.patternOne + 1))

/-- The coefficient generator's configuration of this block (R9). -/
def blockLib : FpLib :=
  { fmt := Config.fpFmt
    pow10 := blockPow10 Config.fpFmt
    pow2 := blockPow2 Config.fpFmt
    cos := blockCos Config.fpFmt }

end Sys2Proof.Machine
end

