-- ==== Sys2Proof/Machine/FilterEval.lean ====
section
/-! DEFINITION. FLT_EVAL: the coefficient generator (R220 to R235). Its operations are done in the order in
which the spec writes them. -/

namespace Sys2Proof.Machine

/-- The envelope position `t = fl(P) /F 65536` (R223). -/
def position (f : FpFmt) (p : Nat) : Fp := fpDiv f (flInt f p) (flInt f 65536)

/-- `interp(s, e, t) = fl(s) +F (fl(e - s) *F t)` (R224). -/
def interp (f : FpFmt) (s e : Nat) (t : Fp) : Fp :=
  fpAdd f (flInt f s) (fpMul f (flInt f ((e : Int) - (s : Int))) t)

/-- `negF(dB /F 20)`: the exponent of 10 for an attenuation in dB (R225, R226). -/
def attenuationExp (f : FpFmt) (db : Fp) : Fp := fpNeg (fpDiv f db (flInt f 20))

/-- `pow10F(negF(dB /F 20))`: an attenuation in dB as a factor (R225, R226). -/
def attenuation (l : FpLib) (db : Fp) : Fp := l.pow10 (attenuationExp l.fmt db)

/-- `dB`, the unity attenuation (R225). -/
def unityDb (f : FpFmt) (fs : FilterSpec) (t : Fp) : Fp :=
  fpMul f (interp f fs.unity.start.toNat fs.unity.stop.toNat t) (kUnity f)

/-- `fUnity`, the floating unity gain (R225). -/
def unityGain (l : FpLib) (fs : FilterSpec) (t : Fp) : Fp := attenuation l (unityDb l.fmt fs t)

/-- `wrap32(truncF(x *F 65536))`: a value at the fixed-point scale 2^16 (R225, R231). -/
def fixed16 (f : FpFmt) (x : Fp) : Word := wrap32 (truncF (fpMul f x (flInt f 65536)))

/-- `gd`, the attenuation of a pair, from its two range codes (R226). -/
def rangeDb (f : FpFmt) (r0 r1 : Half) (t : Fp) : Fp :=
  fpMul f (interp f r0.toNat r1.toNat t) (kRange f)

/-- `gain(d, n, t)`: the damping radius of a pair, from its two range codes (R226). -/
def pairGain (l : FpLib) (r0 r1 : Half) (t : Fp) : Fp :=
  fpSub l.fmt (flInt l.fmt 1) (attenuation l (rangeDb l.fmt r0 r1 t))

/-- `normalize(x)`: an octave value as an angle (R227). -/
def normalize (l : FpLib) (x : Fp) : Fp :=
  fpDiv l.fmt (fpMul l.fmt (fpMul l.fmt (kRef l.fmt) (l.pow2 x)) (kPi l.fmt)) (kClk l.fmt)

/-- The octave value of a pair, from its two frequency codes (R227). -/
def pairOctave (f : FpFmt) (f0 f1 : Half) (t : Fp) : Fp :=
  fpMul f (interp f f0.toNat f1.toNat t) (kFreq f)

/-- `phase(d, n, t)`: the angle of a pair, from its two frequency codes (R227). -/
def pairPhase (l : FpLib) (f0 f1 : Half) (t : Fp) : Fp := normalize l (pairOctave l.fmt f0 f1 t)

/-- The coefficients `a` and `b` of the quadratic factor of a radius and an angle (R228). -/
def quadratic (l : FpLib) (g th : Fp) : Fp × Fp :=
  (fpMul l.fmt (fpMul l.fmt (flInt l.fmt (-2)) g) (l.cos th), fpMul l.fmt g g)

/-- The quadratic factor of pair `n` of direction `d` (R226 to R228). -/
def pairQuadratic (l : FpLib) (fs : FilterSpec) (d : Dir) (t : Fp) (n : BitVec 2) : Fp × Fp :=
  quadratic l
    (pairGain l (pick4 (fs.range.get d).start n) (pick4 (fs.range.get d).stop n) t)
    (pairPhase l (pick4 (fs.freq.get d).start n) (pick4 (fs.freq.get d).stop n) t)

/-- Addition and multiplication as the expansion uses them: those of a format, or exact ones. -/
structure Arith (α : Type) where
  zero : α
  add : α → α → α
  mul : α → α → α

/-- One in-place update of the descending loop: `c[k] <- c[k] + (c[k-1]*a + c[k-2]*b)` (R229). -/
def backPropagate {α : Type} (r : Arith α) (a b : α) (c : List α) (k : Nat) : List α :=
  c.set k (r.add (c.getD k r.zero)
    (r.add (r.mul (c.getD (k - 1) r.zero) a) (r.mul (c.getD (k - 2) r.zero) b)))

/-- One pass of the expansion, on the `2n` coefficients so far: the two new high terms come first, then the
loop runs down from `2n-1` to 2, then `c[1]` and `c[0]` are updated (R229). -/
def expandPass {α : Type} (r : Arith α) (c : List α) (q : α × α) : List α :=
  let m := c.length
  let a := q.1
  let b := q.2
  let top := c ++ [r.add (r.mul (c.getD (m - 1) r.zero) a) (r.mul (c.getD (m - 2) r.zero) b),
    r.mul (c.getD (m - 1) r.zero) b]
  let mid := (((List.range m).filter (2 ≤ ·)).reverse).foldl (backPropagate r a b) top
  let low := mid.set 1
    (r.add (mid.getD 1 r.zero) (r.add (r.mul (mid.getD 0 r.zero) a) b))
  low.set 0 (r.add (low.getD 0 r.zero) a)

/-- The expansion of the cascade into one polynomial: the first pair's quadratic, then one pass for each
further pair (R229). -/
def expand {α : Type} (r : Arith α) : List (α × α) → List α
  | [] => []
  | q :: qs => qs.foldl (expandPass r) [q.1, q.2]

/-- The arithmetic of a format (R220). -/
def fpArith (f : FpFmt) : Arith Fp :=
  { zero := flInt f 0, add := fpAdd f, mul := fpMul f }

/-- The floating coefficients `c[0 .. 2p-1]` of a direction, before the onset scaling (R226 to R229). -/
def rawCoeffs (l : FpLib) (fs : FilterSpec) (d : Dir) (t : Fp) : List Fp :=
  expand (fpArith l.fmt)
    ((List.range (fs.pcnt.get d).toNat).map fun n => pairQuadratic l fs d t (BitVec.ofNat 2 n))

/-- The floating coefficients of a direction: only the onset ones are scaled by the unity gain (R230). -/
def coeffs (l : FpLib) (fs : FilterSpec) (d : Dir) (t : Fp) : List Fp :=
  match d with
  | .onset => (rawCoeffs l fs .onset t).map fun c => fpMul l.fmt c (unityGain l fs t)
  | .release => rawCoeffs l fs .release t

/-- The fixed-point coefficients of a direction at position `P / 65536` (R231). -/
def fixedCoeffs (l : FpLib) (fs : FilterSpec) (d : Dir) (p : Nat) : List Word :=
  (coeffs l fs d (position l.fmt p)).map (fixed16 l.fmt)

/-- The fixed-point unity gain at position `P / 65536` (R225). -/
def fixedUnity (l : FpLib) (fs : FilterSpec) (p : Nat) : Word :=
  fixed16 l.fmt (unityGain l fs (position l.fmt p))

/-- The front of a bank overwritten, the entries after it kept (R234). -/
def overwriteFront {α : Type} {n : Nat} (v : Vector α n) (xs : List α) : Vector α n :=
  Vector.ofFn fun k => (xs[k.val]?).getD v[k.val]

/-- The coefficient bank after a FLT_EVAL of direction `d` at position `P / 65536`: UNITY16 is written for the
onset direction only, NCO and C16 for `d` only (R225, R232, R234). -/
def State.evalBank (s : State) (l : FpLib) (d : Dir) (p : Nat) : State :=
  { s with
    unity16 := match d with
      | .onset => fixedUnity l s.spec p
      | .release => s.unity16
    nco := s.nco.put d (BitVec.ofNat 4 (2 * (s.spec.pcnt.get d).toNat))
    c16 := s.c16.put d (overwriteFront (s.c16.get d) (fixedCoeffs l s.spec d p)) }

/-- Whether the functions obey R222 where the unity gain asks for one (R225). -/
def unityLawful (l : FpLib) (fs : FilterSpec) (t : Fp) : Bool :=
  pow10Lawful l (attenuationExp l.fmt (unityDb l.fmt fs t))

/-- Whether the functions obey R222 where pair `n` of direction `d` asks for them (R226 to R228). -/
def pairLawful (l : FpLib) (fs : FilterSpec) (d : Dir) (t : Fp) (n : BitVec 2) : Bool :=
  pow10Lawful l (attenuationExp l.fmt
      (rangeDb l.fmt (pick4 (fs.range.get d).start n) (pick4 (fs.range.get d).stop n) t))
    && pow2Lawful l (pairOctave l.fmt (pick4 (fs.freq.get d).start n) (pick4 (fs.freq.get d).stop n) t)
    && cosLawful l (pairPhase l (pick4 (fs.freq.get d).start n) (pick4 (fs.freq.get d).stop n) t)

/-- Whether the functions obey R222 at every argument that FLT_EVAL of direction `d` asks them for (R310). -/
def evalLawful (l : FpLib) (fs : FilterSpec) (d : Dir) (t : Fp) : Bool :=
  (match d with
    | .onset => unityLawful l fs t
    | .release => true)
    && (List.range (fs.pcnt.get d).toNat).all fun n => pairLawful l fs d t (BitVec.ofNat 2 n)

/-- FLT_EVAL with the functions that an implementation supplies: a position above 65536 raises E_RANGE; functions
that break R222 where this command asks for them make it refuse (R310); otherwise the bank of the direction is
computed and RESULT holds its coefficient count (R232). -/
def fltEvalWith (l : FpLib) (d : Dir) (pos : Word) (s : State) : Outcome :=
  if 65536 < u32 pos then .next (s.raise .range pos)
  else if 4 < (s.spec.pcnt.get d).toNat then .fault .pairCount
  else if evalLawful l s.spec d (position l.fmt (u32 pos)) then
    .next ((s.evalBank l d (u32 pos)).completeWith (BitVec.ofNat 32 (2 * (s.spec.pcnt.get d).toNat)))
  else .refused .unlawfulFunctions

/-- FLT_EVAL of this block (R232). -/
def execFltEval (d : Dir) (pos : Word) (s : State) : Outcome := fltEvalWith blockLib d pos s

end Sys2Proof.Machine
end

