-- ==== Sys2Proof/Machine/FilterLoad.lean ====
section
/-! DEFINITION. FLT_LOAD: the parse of a filter parameter record into the FilterSpec (R121 to R125, R200
to R207). -/

namespace Sys2Proof.Machine

/-- The parse cursor: the record offset `o` and the bytes from there on (R201, R207). -/
structure Cursor where
  offset : Nat
  rest : List Byte
deriving DecidableEq, Repr

/-- A read that may raise an error with its information (R207). -/
abbrev Parse (α : Type) := Except (ErrCode × Word) α

/-- `rd8()`: one byte, or E_FMT_TRUNC with the offset that could not be read (R207). -/
def rd8 (c : Cursor) : Parse (Byte × Cursor) :=
  match c.rest with
  | b :: bs => .ok (b, { offset := c.offset + 1, rest := bs })
  | [] => .error (.fmtTrunc, BitVec.ofNat 32 c.offset)

/-- `rd16()`: two bytes, the first the more significant, or E_FMT_TRUNC with the offset (R87, R207). -/
def rd16 (c : Cursor) : Parse (Half × Cursor) :=
  match c.rest with
  | a :: b :: bs => .ok (a ++ b, { offset := c.offset + 2, rest := bs })
  | _ => .error (.fmtTrunc, BitVec.ofNat 32 c.offset)

/-- A frequency code and then a range code (R204). -/
def rdPair (c : Cursor) : Parse ((Half × Half) × Cursor) := do
  let (f, c) ← rd16 c
  let (r, c) ← rd16 c
  .ok ((f, r), c)

/-- The start codes of `n` pairs, in pair order (R204). -/
def rdStarts : Nat → Cursor → Parse (List (Half × Half) × Cursor)
  | 0, c => .ok ([], c)
  | n + 1, c => do
    let (p, c) ← rdPair c
    let (ps, c) ← rdStarts n c
    .ok (p :: ps, c)

/-- The end codes of a pair whose start codes are given: read where its migration bit is 1, a copy of the start
codes where it is 0 (R205). -/
def rdEnd (migrates : Bool) (p : Half × Half) (c : Cursor) : Parse ((Half × Half) × Cursor) :=
  if migrates then rdPair c else .ok (p, c)

/-- The end codes of the pairs whose start codes are given, in pair order. The first pair's bit
number is `bit` (R205). -/
def rdEnds (migr : Byte) : Nat → List (Half × Half) → Cursor → Parse (List (Half × Half) × Cursor)
  | _, [], c => .ok ([], c)
  | bit, p :: ps, c => do
    let (q, c) ← rdEnd (migr.getLsbD bit) p c
    let (qs, c) ← rdEnds migr (bit + 1) ps c
    .ok (q :: qs, c)

/-- A bank of four code registers: the codes of the active pairs, and 0 after them (R206). -/
def codeBank (codes : List Half) : Vector Half 4 := Vector.ofFn fun n => (codes[n.val]?).getD 0

/-- The FilterSpec that a nonzero count byte's fields give (R206). -/
def specOf (p0 p1 : BitVec 4) (unity : PerEnd Half) (migr : Byte)
    (starts ends : PerDir (List (Half × Half))) : FilterSpec :=
  { pcnt := ⟨p0.setWidth 3, p1.setWidth 3⟩
    unity := unity
    migr := migr
    freq := ⟨⟨codeBank (starts.onset.map Prod.fst), codeBank (ends.onset.map Prod.fst)⟩,
      ⟨codeBank (starts.release.map Prod.fst), codeBank (ends.release.map Prod.fst)⟩⟩
    range := ⟨⟨codeBank (starts.onset.map Prod.snd), codeBank (ends.onset.map Prod.snd)⟩,
      ⟨codeBank (starts.release.map Prod.snd), codeBank (ends.release.map Prod.snd)⟩⟩ }

/-- Whether an envelope shape block follows the record: the mask byte is nonzero or the unity values differ
(R125, R205). -/
def envelopeFollows (unity : PerEnd Half) (migr : Byte) : Bool :=
  decide (migr ≠ 0) || decide (unity.start ≠ unity.stop)

/-- The fields after a nonzero count byte, in their order (R123). -/
def parseFields (p0 p1 : BitVec 4) (c : Cursor) : Parse (FilterSpec × Bool × Nat) := do
  let (u0, c) ← rd16 c
  let (u1, c) ← rd16 c
  let (migr, c) ← rd8 c
  let (s0, c) ← rdStarts p0.toNat c
  let (s1, c) ← rdStarts p1.toNat c
  let (e0, c) ← rdEnds migr 0 s0 c
  let (e1, c) ← rdEnds migr 4 s1 c
  .ok (specOf p0 p1 ⟨u0, u1⟩ migr ⟨s0, s1⟩ ⟨e0, e1⟩, envelopeFollows ⟨u0, u1⟩ migr, c.offset)

/-- The parse of a record: the new FilterSpec, whether an envelope block follows, and the record's length.
The count byte is checked before anything else is read (R201 to R203). -/
def parseRecord (bytes : List Byte) : Parse (FilterSpec × Bool × Nat) := do
  let (cnt, c) ← rd8 { offset := 0, rest := bytes }
  let p0 := cnt.extractLsb' 4 4
  let p1 := cnt.extractLsb' 0 4
  if 4 < p0.toNat ∨ 4 < p1.toNat then .error (.fmtPairs, cnt.setWidth 32)
  else if cnt = 0 then .ok (FilterSpec.zero, false, c.offset)
  else parseFields p0 p1 c

/-- The FilterSpec is replaced whole (R206). -/
def State.loadSpec (s : State) (fs : FilterSpec) (env : Bool) : State :=
  { s with spec := fs, status := s.status.withEnvreq env }

/-- FLT_LOAD: on success the FilterSpec and ENVREQ are replaced and RESULT holds the record's length; on an
error none of them changes (R201, R206). -/
def execFltLoad (bytes : List Byte) (s : State) : Outcome :=
  match parseRecord bytes with
  | .ok (fs, env, len) => .next ((s.loadSpec fs env).completeWith (BitVec.ofNat 32 len))
  | .error (e, info) => .next (s.raise e info)

end Sys2Proof.Machine
end

