-- ==== Sys2Proof/Machine/FilterStep.lean ====
section
/-! DEFINITION. The per-sample filter datapath: FLT_STEP and FLT_CLR (R240 to R244). -/

namespace Sys2Proof.Machine

/-- The sum over the first `n` taps of `(H[k] * C[k]) >> 16`, each product floored on its own (R240). -/
def tapSum (h c : Vector Word 8) (n : Nat) : Int :=
  (((h.toList.zip c.toList).take n).map fun p => asr (s32 p.1 * s32 p.2) 16).sum

/-- The filter output `y`: the input times UNITY16, plus the onset taps on past inputs, minus the release
taps on past outputs, wrapped to 32 bits (R240). -/
def filterOutput (s : State) (x : Word) : Word :=
  wrap32 (asr (s32 x * s32 s.unity16) 16
    + tapSum s.xh s.c16.onset s.nco.onset.toNat
    - tapSum s.yh s.c16.release s.nco.release.toNat)

/-- A history shifted by one, with the newest sample at index 0 (R241). -/
def shiftIn (h : Vector Word 8) (x : Word) : Vector Word 8 :=
  Vector.ofFn fun k => if k.val = 0 then x else h[k.val - 1]

/-- Both histories shifted, whatever NCO holds (R241). -/
def State.shiftHistories (s : State) (x y : Word) : State :=
  { s with xh := shiftIn s.xh x, yh := shiftIn s.yh y }

/-- FLT_STEP: one sample is filtered and both histories shift (R240). -/
def execFltStep (x : Word) (s : State) : Outcome :=
  if 8 < s.nco.onset.toNat ∨ 8 < s.nco.release.toNat then .fault .tapCount
  else .next ((s.shiftHistories x (filterOutput s x)).completeWith (filterOutput s x))

/-- FLT_CLR: both histories become 0 (R243). -/
def execFltClr (s : State) : Outcome :=
  .next { s with xh := Vector.replicate 8 0, yh := Vector.replicate 8 0 }.complete

end Sys2Proof.Machine
end

