-- ==== Sys2Proof/Machine/Mixer.lean ====
section
/-! DEFINITION. The mixer unit: MIX_INIT, MIX_TONE, MIX_ADD, MIX_RD and MIX_RDPCM (R260 to R269). -/

namespace Sys2Proof.Machine

/-- `samples(ms) = floor(ms * 22050 / 1000)` (R260). -/
def samples (ms : Nat) : Nat := ms * 22050 / 1000

/-- The saturation formula on a 32-bit accumulator, as the document writes it, with the arithmetic shift
(R264). -/
def sat8 (acc : Word) : Word :=
  if (acc + 128) &&& 0xFFFFFF00 ≠ 0 then acc.sshiftRight 31 ^^^ 127 else acc

/-- The mixer after MIX_INIT: a buffer of zeros, and no tone (R261). -/
def State.initBuffer (s : State) (len : Nat) : State :=
  { s with mixLen := BitVec.ofNat 32 len, buf := [], mixOfs := 0, mixCnt := 0, mixIdx := 0 }

/-- MIX_INIT: the buffer is allocated and cleared; a length above BUF_MAX raises E_RANGE (R261). -/
def execMixInit (ms : Word) (s : State) : Outcome :=
  if Config.bufMax < samples (u32 ms) then .next (s.raise .range ms)
  else .next ((s.initBuffer (samples (u32 ms))).completeWith (BitVec.ofNat 32 (samples (u32 ms))))

/-- MIX_TONE: the tone's place is set; a tone that would run past the buffer raises E_RANGE with the index
past its last sample, saturated to 32 bits (R262). -/
def execMixTone (start len : Word) (s : State) : Outcome :=
  let o := samples (u32 start)
  let c := samples (u32 len)
  if u32 s.mixLen < o + c then .next (s.raise .range (BitVec.ofNat 32 (min (o + c) 0xFFFFFFFF)))
  else
    .next ({ s with mixOfs := BitVec.ofNat 32 o, mixCnt := BitVec.ofNat 32 c, mixIdx := 0 }.completeWith
      (BitVec.ofNat 32 c))

/-- The stored sample of MIX_ADD: the old sample plus `s >> 8`, saturated (R263, R264). -/
def mixSample (old : Byte) (sample : Word) : Word := sat8 (wrap32 (s8 old + asr (s32 sample) 8))

/-- MIX_ADD: one tone sample is merged into the buffer; E_RANGE where the tone has no sample left (R263). -/
def execMixAdd (sample : Word) (s : State) : Outcome :=
  if u32 s.mixCnt ≤ u32 s.mixIdx then .next (s.raise .range s.mixIdx)
  else
    let p := u32 s.mixOfs + u32 s.mixIdx
    match s.bufRead p with
    | none => .fault .bufIndex
    | some old =>
      let v := mixSample old sample
      match s.bufWrite p (low8 (s32 v)) with
      | none => .fault .bufIndex
      | some t => .next ({ t with mixIdx := s.mixIdx + 1 }.completeWith v)

/-- MIX_RD: one buffer sample, sign-extended; E_RANGE outside the buffer (R266). -/
def execMixRd (pos : Word) (s : State) : Outcome :=
  if u32 s.mixLen ≤ u32 pos then .next (s.raise .range pos)
  else
    match s.bufRead (u32 pos) with
    | none => .fault .bufIndex
    | some v => .next (s.completeWith (wrap32 (s8 v)))

/-- MIX_RDPCM: one buffer sample as the container's byte, `low8(v - 127)`; E_RANGE outside the buffer
(R268). -/
def execMixRdpcm (pos : Word) (s : State) : Outcome :=
  if u32 s.mixLen ≤ u32 pos then .next (s.raise .range pos)
  else
    match s.bufRead (u32 pos) with
    | none => .fault .bufIndex
    | some v => .next (s.completeWith ((low8 (s8 v - 127)).setWidth 32))

end Sys2Proof.Machine
end

