-- ==== Sys2Proof/Machine/Oscillator.lean ====
section
/-! DEFINITION. The oscillator unit: the sine and noise tables, the waveform function and OSC_GEN
(R170 to R182). -/

namespace Sys2Proof.Machine

/-- Pi times 10^20, cut after the decimal point: the angle of the sine table's series. -/
def piScaled : Nat := 314159265358979323846

/-- The factor `1 - x²/(2·3)(1 - x²/(4·5)(...))` of the sine series at `x² = n2/d2`, exactly, as a numerator
and a denominator; `js` are the term numbers from the last to the first. -/
def sineFactor (n2 d2 : Nat) (js : List Nat) : Nat × Nat :=
  js.foldl (fun (t : Nat × Nat) j =>
    (t.2 * (d2 * (2 * j * (2 * j + 1))) - n2 * t.1, t.2 * (d2 * (2 * j * (2 * j + 1))))) (1, 1)

/-- The first quarter of the sine table, `k` from 0 to 8192: 16384 times the sine of `k * pi / 16384`, from
nine terms of its series in exact arithmetic, rounded to the nearest integer (R171). -/
def quarterSine (k : Nat) : Nat :=
  let n := k * piScaled
  let d := 16384 * 10 ^ 20
  let f := sineFactor (n * n) (d * d) [8, 7, 6, 5, 4, 3, 2, 1]
  (2 * (16384 * n * f.1) + d * f.2) / (2 * (d * f.2))

/-- ROM_SIN, 32768 entries: `round(16384 * sin(i * pi / 16384))` (R171), from its first quarter by the
symmetries of the sine. -/
def romSin (i : Nat) : Int :=
  if i ≤ 8192 then quarterSine i
  else if i ≤ 16384 then quarterSine (16384 - i)
  else if i ≤ 24576 then -(quarterSine (i - 16384) : Int)
  else -(quarterSine (32768 - i) : Int)

/-- ROM_NOISE, 32768 entries, each -1 or +1: the parameter `NOISE_TABLE` (R172). -/
def romNoise (i : Nat) : Int := if Config.noisePositive i then 1 else -1

/-- The waveform index of a phase, 0 to 32767 (R173). -/
def widx (ph : Int) : Nat := and15 ph

/-- The square shape (R175). -/
def waveSquare (ph a : Int) : Word := if widx ph < 16384 then wrap32 a else wrap32 (-a)

/-- The sine shape (R176). -/
def waveSine (ph a : Int) : Word := wrap32 (asr (romSin (widx ph) * a) 14)

/-- The sawtooth shape (R177). -/
def waveSaw (ph a : Int) : Word := wrap32 (asr (widx ph * a) 14 - a)

/-- The noise shape: its index comes from the whole phase, and there is no shift (R178). -/
def waveNoise (ph a : Int) : Word := wrap32 (romNoise (and15 (tdiv ph 2607)) * a)

/-- One sample for a shape code; every code but 1 to 4 gives the zero shape (R120, R174 to R178). -/
def wave (code : Byte) (ph a : Int) : Word :=
  match code.toNat with
  | 1 => waveSquare ph a
  | 2 => waveSine ph a
  | 3 => waveSaw ph a
  | 4 => waveNoise ph a
  | _ => 0

/-- One step of a channel: the sample of the phase before the increment goes to RESULT, then the phase
advances (R179). -/
def State.oscStep (s : State) (ch : BitVec 4) (amp inc : Word) : State :=
  let ph := s32 (pick16 s.oscPhase ch)
  { s with oscPhase := put16 s.oscPhase ch (wrap32 (ph + s32 inc)) }.completeWith
    (wave (pick16 s.oscShape ch) ph (s32 amp))

/-- OSC_GEN: one sample of a channel; a channel that does not exist raises E_RANGE (R179). -/
def execOscGen (ch : BitVec 4) (amp inc : Word) (s : State) : Outcome :=
  .next (if channelExists ch.toNat then s.oscStep ch amp inc else s.raise .range (ch.setWidth 32))

end Sys2Proof.Machine
end

