-- ==== Sys2Proof/Machine/Dispatch.lean ====
section
/-! DEFINITION. The dispatch from a command to its meaning, one arm for each row of the opcode map (R115). -/

namespace Sys2Proof.Machine

def exec (i : Instr) (s : State) : Host.Outcome State Fault Refusal :=
  match i with
  | .nop => Sys2Proof.Machine.execNop s
  | .clrerr => Sys2Proof.Machine.execClrerr s
  | .regRd addr => Sys2Proof.Machine.execRegRd addr s
  | .regWr addr value => Sys2Proof.Machine.execRegWr addr value s
  | .oscGen ch amp inc => Sys2Proof.Machine.execOscGen ch amp inc s
  | .fltLoad bytes => Sys2Proof.Machine.execFltLoad bytes s
  | .fltEval dir pos => Sys2Proof.Machine.execFltEval dir pos s
  | .fltStep x => Sys2Proof.Machine.execFltStep x s
  | .fltClr => Sys2Proof.Machine.execFltClr s
  | .mixInit ms => Sys2Proof.Machine.execMixInit ms s
  | .mixTone start len => Sys2Proof.Machine.execMixTone start len s
  | .mixAdd sample => Sys2Proof.Machine.execMixAdd sample s
  | .mixRd pos => Sys2Proof.Machine.execMixRd pos s
  | .mixRdpcm pos => Sys2Proof.Machine.execMixRdpcm pos s

end Sys2Proof.Machine
end

