-- ==== Sys2Proof/Machine/Step.lean ====
section
/-! DEFINITION. One step of the block: it collects the words the host has written, takes a reset, or runs one
whole command (R30, R31, R298, R320). -/

namespace Sys2Proof.Machine

/-- A command whose words have all arrived: it is decoded and executed, or it raises E_ILLEGAL (R298). -/
def runCommand (words : List Word) (s : State) : Host.Outcome State Fault Refusal :=
  match decode words with
  | .ok i => exec i s
  | .error _ => .next (s.raiseIllegal words)

/-- One step. With nothing from the host the block holds its state (R309). -/
def step (s : State) : Host.Outcome State Fault Refusal :=
  match fetch s.asm s.port with
  | .waiting asm => .next (s.await asm)
  | .reset rest => .next (State.takeReset rest)
  | .command words rest => runCommand words (s.consume words.length rest)

/-- The state with a command's words written to the command port before everything pending, and no command
partly assembled: the next step runs that command. -/
def State.withFetchWord (s : State) (nbits w : Nat) : State :=
  { s with asm := [], port := (tableWords nbits w).map PortEvent.word ++ s.port }

end Sys2Proof.Machine
end

