-- ==== Sys2Proof/Safety.lean ====
section
/-! DEFINITION. The terms the claims use: the laws every reachable state keeps (R39, R42 to R45, R48, R49,
R31), what a value of the coefficient generator is as a rational number and the property PNEAR of R222, the
register map as arithmetic on addresses (R52), the record a FilterSpec is parsed from (R121 to R124), and the
polynomial that expanded coefficients stand for (R229). -/

namespace Sys2Proof.Machine

/-- The number of a direction (R126). -/
def dirNumber : Dir → Nat
  | .onset => 0
  | .release => 1

/-- The number of an end (R42). -/
def endNumber : End → Nat
  | .start => 0
  | .stop => 1

/-- The sample of BUF at an index, whether or not the buffer reaches that far. -/
def State.sample (s : State) (p : Nat) : Byte := Memory.read s.buf p

/-- The mixer's laws: BUF is in canonical form and within MIX_LEN, MIX_LEN is at most BUF_MAX (R48), and the
current tone lies in the buffer and its index in the tone (R49). -/
structure MixerLegal (s : State) : Prop where
  canonical : Memory.wf s.buf = true
  inside : ∀ c ∈ s.buf, c.1 < s.mixLen.toNat
  lenMax : s.mixLen.toNat ≤ Config.bufMax
  toneFits : s.mixOfs.toNat + s.mixCnt.toNat ≤ s.mixLen.toNat
  indexFits : s.mixIdx.toNat ≤ s.mixCnt.toNat

/-- The laws of a FilterSpec: pair counts are at most 4 (R39), the codes of inactive pairs are 0, and a pair
whose migration bit is 0 has its start codes as end codes (R42, R43). -/
structure SpecLegal (fs : FilterSpec) : Prop where
  pairs : ∀ d, (fs.pcnt.get d).toNat ≤ 4
  inactive : ∀ d e (n : BitVec 2), (fs.pcnt.get d).toNat ≤ n.toNat →
    pick4 ((fs.freq.get d).get e) n = 0 ∧ pick4 ((fs.range.get d).get e) n = 0
  unmigrated : ∀ d (n : BitVec 2), fs.migr.getLsbD (4 * dirNumber d + n.toNat) = false →
    pick4 ((fs.freq.get d).get .stop) n = pick4 ((fs.freq.get d).get .start) n ∧
    pick4 ((fs.range.get d).get .stop) n = pick4 ((fs.range.get d).get .start) n

/-- The laws of the coefficient bank: UNITY16 is at most 65536 (R44) and each coefficient count is even and at
most 8 (R45). -/
structure BankLegal (s : State) : Prop where
  unity : s.unity16.toNat ≤ 65536
  counts : ∀ d, (s.nco.get d).toNat ∈ [0, 2, 4, 6, 8]

/-- The laws of the error record: with ERR at 0 nothing is recorded and the last command did not fail; with
ERR at 1 ECODE is one of the codes of R291 (R34, R36, R296). -/
structure RecordLegal (s : State) : Prop where
  clear : s.status.err = false → s.status.lasterr = false ∧ s.status.ecode = 0 ∧ s.errinfo = 0
  recorded : s.status.err = true → s.status.ecode ∈ ([0x01, 0x02, 0x03, 0x10, 0x11] : List Byte)

/-- Words that are the beginning of a command but not all of it (R31). -/
def isPartial : List Word → Prop
  | [] => True
  | h :: ds => ds.length + 1 < cmdLength h

/-- The channels the block does not have hold nothing (R9, R37, R38). -/
def ChannelsLegal (s : State) : Prop :=
  ∀ i : BitVec 4, Config.nOsc ≤ i.toNat → pick16 s.oscShape i = 0 ∧ pick16 s.oscPhase i = 0

/-- The laws that every reachable state keeps. -/
structure Legal (s : State) : Prop where
  mixer : MixerLegal s
  spec : SpecLegal s.spec
  bank : BankLegal s
  record : RecordLegal s
  framing : isPartial s.asm
  channels : ChannelsLegal s

/-- A safe run of one command: it answers a next state, neither a fault nor a refusal. -/
def completes (i : Instr) (s : State) : Prop := ∃ t, exec i s = .next t

/-- The magnitude of a floating value as a rational number (R14). -/
def fpMag (x : Fp) : ℚ := (x.mant : ℚ) * (2 : ℚ) ^ x.exp

/-- A floating value as a rational number (R14). -/
def fpVal (x : Fp) : ℚ := if x.neg then -fpMag x else fpMag x

/-- One unit in the last place of a format at a real number. -/
noncomputable def ulp (f : FpFmt) (x : ℝ) : ℝ :=
  (2 : ℝ) ^ (max (Int.log 2 |x| - (precision f - 1 : Nat)) (minQuantum f))

/-- PNEAR: on the arguments for which PRANGE bounds them, the results of the three configuration functions are
within one unit in the last place of the exact real value (R222). A claim that needs it assumes it by this
name. -/
def pnear (l : FpLib) : Prop :=
  ∀ x : Fp, inFormat l.fmt x = true →
    (fpVal x ≤ 0 →
      |((fpVal (l.pow10 x) : ℚ) : ℝ) - (10 : ℝ) ^ ((fpVal x : ℚ) : ℝ)|
        ≤ ulp l.fmt ((10 : ℝ) ^ ((fpVal x : ℚ) : ℝ))) ∧
    (0 ≤ fpVal x → fpVal x ≤ 8 →
      |((fpVal (l.pow2 x) : ℚ) : ℝ) - (2 : ℝ) ^ ((fpVal x : ℚ) : ℝ)|
        ≤ ulp l.fmt ((2 : ℝ) ^ ((fpVal x : ℚ) : ℝ))) ∧
    |((fpVal (l.cos x) : ℚ) : ℝ) - Real.cos ((fpVal x : ℚ) : ℝ)|
      ≤ ulp l.fmt (Real.cos ((fpVal x : ℚ) : ℝ))

/-- The address of a register in the map (R52). -/
def Reg.address : Reg → Nat
  | .status => 0x0000
  | .result => 0x0001
  | .errinfo => 0x0002
  | .oscShape i => 0x0010 + i.toNat
  | .oscPhase i => 0x0020 + i.toNat
  | .fsPairs => 0x0100
  | .fsUnity e => 0x0101 + endNumber e
  | .fsMigr => 0x0103
  | .fsFreq d e n => 0x0110 + 16 * dirNumber d + 8 * endNumber e + n.toNat
  | .fsRange d e n => 0x0130 + 16 * dirNumber d + 8 * endNumber e + n.toNat
  | .fltUnity16 => 0x0150
  | .fltNco d => 0x0151 + dirNumber d
  | .fltC16 d k => 0x0160 + 8 * dirNumber d + k.toNat
  | .fltXh k => 0x0180 + k.toNat
  | .fltYh k => 0x0188 + k.toNat
  | .mixLen => 0x0200
  | .mixOfs => 0x0201
  | .mixCnt => 0x0202
  | .mixIdx => 0x0203

/-- Whether the block has a register: only the channels below N_OSC exist (R52). -/
def Reg.present : Reg → Prop
  | .oscShape i => i.toNat < Config.nOsc
  | .oscPhase i => i.toNat < Config.nOsc
  | _ => True

/-- Whether a register is writable: only the shapes and the phases are (R52). -/
def Reg.writable : Reg → Prop
  | .oscShape _ => True
  | .oscPhase _ => True
  | _ => False

/-- REG_RD at an address leaves a value in RESULT, clears LASTERR and changes nothing else (R152). -/
def regRdReturns (s : State) (a : Nat) (v : Word) : Prop :=
  exec (.regRd (BitVec.ofNat 16 a)) s
    = .next { s with result := v, status := { s.status with lasterr := false } }

/-- The row of the opcode map that a command belongs to (R115). -/
def opcOf : Instr → Opc
  | .nop => .nop
  | .clrerr => .clrerr
  | .regRd _ => .regRd
  | .regWr _ _ => .regWr
  | .oscGen _ _ _ => .oscGen
  | .fltLoad _ => .fltLoad
  | .fltEval _ _ => .fltEval
  | .fltStep _ => .fltStep
  | .fltClr => .fltClr
  | .mixInit _ => .mixInit
  | .mixTone _ _ => .mixTone
  | .mixAdd _ => .mixAdd
  | .mixRd _ => .mixRd
  | .mixRdpcm _ => .mixRdpcm

/-- The two bytes of a 16-bit record field, the more significant first (R87). -/
def halfBytes (v : Half) : List Byte := [v.extractLsb' 8 8, v.extractLsb' 0 8]

/-- A frequency code and a range code as record bytes (R123). -/
def pairBytes (f r : Half) : List Byte := halfBytes f ++ halfBytes r

/-- The active pairs of a direction, in pair order. -/
def activePairs (fs : FilterSpec) (d : Dir) : List (BitVec 2) :=
  (List.range (fs.pcnt.get d).toNat).map (BitVec.ofNat 2)

/-- The codes of one end of a direction's active pairs that a predicate selects, as record bytes (R123). -/
def codeBytes (fs : FilterSpec) (d : Dir) (e : End) (sel : BitVec 2 → Bool) : List Byte :=
  ((activePairs fs d).filter sel).flatMap fun n =>
    pairBytes (pick4 ((fs.freq.get d).get e) n) (pick4 ((fs.range.get d).get e) n)

/-- Whether a pair's migration bit is 1 (R41). -/
def migrates (fs : FilterSpec) (d : Dir) (n : BitVec 2) : Bool :=
  fs.migr.getLsbD (4 * dirNumber d + n.toNat)

/-- The count byte of a FilterSpec (R121). -/
def countByte (fs : FilterSpec) : Byte :=
  BitVec.ofNat 8 (fs.pcnt.onset.toNat * 16 + fs.pcnt.release.toNat)

/-- The record of a FilterSpec that has at least one pair, in the order of its fields (R121, R123). -/
def recordBytes (fs : FilterSpec) : List Byte :=
  [countByte fs] ++ halfBytes fs.unity.start ++ halfBytes fs.unity.stop ++ [fs.migr]
    ++ codeBytes fs .onset .start (fun _ => true) ++ codeBytes fs .release .start (fun _ => true)
    ++ codeBytes fs .onset .stop (migrates fs .onset) ++ codeBytes fs .release .stop (migrates fs .release)

/-- The number of pairs that migrate (R124). -/
def migratingPairs (fs : FilterSpec) : Nat :=
  ((activePairs fs .onset).filter (migrates fs .onset)).length
    + ((activePairs fs .release).filter (migrates fs .release)).length

/-- The length of the record of a FilterSpec that has at least one pair (R124). -/
def recordLength (fs : FilterSpec) : Nat :=
  6 + 4 * (fs.pcnt.onset.toNat + fs.pcnt.release.toNat) + 4 * migratingPairs fs

/-- The offset of the field that holds byte `n` of a record with at least one pair (R123, R207). -/
def fieldOffset (n : Nat) : Nat :=
  if n = 0 then 0 else if n < 3 then 1 else if n < 5 then 3 else if n = 5 then 5 else n - n % 2

/-- The polynomial `1 + c[0] X + c[1] X² + ...` that coefficients stand for, `X` being `z^-1` (R229). -/
noncomputable def cascade (c : List ℚ) : Polynomial ℚ :=
  1 + ((List.range c.length).map fun k =>
    Polynomial.C (c.getD k 0) * Polynomial.X ^ (k + 1)).sum

/-- Exact arithmetic on rational numbers, in place of a format's (R229). -/
def exactArith : Arith ℚ := { zero := 0, add := (· + ·), mul := (· * ·) }

end Sys2Proof.Machine
end

