-- ==== Sys2Proof/Certificates/Slice0/Obligations.lean ====
section
/-! DEFINITION. The statements for the provers, family by family. Each docstring names the rule of the spec it
formalises, or says that it is derived. A statement that a command answers `.next` with a state written out
says at once that the command completes, what it changes, and that it changes nothing else. -/

open Sys2Proof Sys2Proof.Machine

/-! ## Encoding -/

/-- Every well-formed command is decoded from the words it is encoded as (R110 to R119). -/
def Obligations.DecodeEncodedCommand : Prop :=
  ∀ i : Instr, i.wellFormed = true → decode (encode i) = .ok i

/-- The other direction: a decoded command other than FLT_LOAD encodes to the words it came from; FLT_LOAD
encodes to the same header, the same number of words and data words that carry the same record bytes, since its
padding is ignored (R119). -/
def Obligations.EncodeDecodedCommand : Prop :=
  ∀ (ws : List Word) (i : Instr), decode ws = .ok i →
    i.wellFormed = true ∧
    (opcOf i ≠ .fltLoad → encode i = ws) ∧
    (∀ bs, i = .fltLoad bs →
      (encode i).head? = ws.head? ∧ (encode i).length = ws.length ∧
      unpackBytes bs.length ws.tail = bs ∧ unpackBytes bs.length (encode i).tail = bs)

/-- The rows of the opcode map: match, mask and length, as R115 tabulates them, and no two rows overlap. -/
def Obligations.OpcodeRowsAsTabulated : Prop :=
  (∀ h, h &&& (0xFFFFFFFF : Word) = 0x00000000 → ∃ i, decode [h] = .ok i ∧ opcOf i = .nop) ∧
  (∀ h, h &&& (0xFFFFFFFF : Word) = 0x01000000 → ∃ i, decode [h] = .ok i ∧ opcOf i = .clrerr) ∧
  (∀ h, h &&& (0xFFFF0000 : Word) = 0x02000000 → ∃ i, decode [h] = .ok i ∧ opcOf i = .regRd) ∧
  (∀ h d0, h &&& (0xFFFF0000 : Word) = 0x03000000 → ∃ i, decode [h, d0] = .ok i ∧ opcOf i = .regWr) ∧
  (∀ h d0 d1, h &&& (0xFF0FFFFF : Word) = 0x10000000 →
    ∃ i, decode [h, d0, d1] = .ok i ∧ opcOf i = .oscGen) ∧
  (∀ h ds, h &&& (0xFFFF0000 : Word) = 0x20000000 → ds.length = ((immField h).toNat + 3) / 4 →
    ∃ i, decode (h :: ds) = .ok i ∧ opcOf i = .fltLoad) ∧
  (∀ h d0, h &&& (0xFFFEFFFF : Word) = 0x21000000 → ∃ i, decode [h, d0] = .ok i ∧ opcOf i = .fltEval) ∧
  (∀ h d0, h &&& (0xFFFFFFFF : Word) = 0x22000000 → ∃ i, decode [h, d0] = .ok i ∧ opcOf i = .fltStep) ∧
  (∀ h, h &&& (0xFFFFFFFF : Word) = 0x23000000 → ∃ i, decode [h] = .ok i ∧ opcOf i = .fltClr) ∧
  (∀ h d0, h &&& (0xFFFFFFFF : Word) = 0x30000000 → ∃ i, decode [h, d0] = .ok i ∧ opcOf i = .mixInit) ∧
  (∀ h d0 d1, h &&& (0xFFFFFFFF : Word) = 0x31000000 →
    ∃ i, decode [h, d0, d1] = .ok i ∧ opcOf i = .mixTone) ∧
  (∀ h d0, h &&& (0xFFFFFFFF : Word) = 0x32000000 → ∃ i, decode [h, d0] = .ok i ∧ opcOf i = .mixAdd) ∧
  (∀ h d0, h &&& (0xFFFFFFFF : Word) = 0x33000000 → ∃ i, decode [h, d0] = .ok i ∧ opcOf i = .mixRd) ∧
  (∀ h d0, h &&& (0xFFFFFFFF : Word) = 0x34000000 → ∃ i, decode [h, d0] = .ok i ∧ opcOf i = .mixRdpcm) ∧
  (∀ o o' : Opc, ∀ h : Word, h &&& o.mask = o.pattern → h &&& o'.mask = o'.pattern → o = o')

/-- Words of the spec's examples decode to the commands they stand for (R152, R153, R179, R201, R232, R261). -/
def Obligations.ExampleWordsDecode : Prop :=
  decode [0x02000150] = .ok (.regRd 0x0150) ∧
  decode [0x03000010, 0x00000001] = .ok (.regWr 0x0010 1) ∧
  decode [0x10000000, 0x000003E8, 0x00002000] = .ok (.oscGen 0 1000 8192) ∧
  decode [0x2000000A, 0x01000000, 0x00008000, 0x40000000]
    = .ok (.fltLoad [0x01, 0x00, 0x00, 0x00, 0x00, 0x00, 0x80, 0x00, 0x40, 0x00]) ∧
  decode [0x21010000, 0x00000000] = .ok (.fltEval .release 0) ∧
  decode [0x30000000, 0x00000064] = .ok (.mixInit 100)

/-! ## One step -/

/-- A step runs the decoded command: once the words in the assembly buffer and the next words on the port make
up a command, the step takes them, advances `cp` by their number and executes it (R30, R31, R298). The port is the
model's own field (log 1), and `cp` stands still until a command's last word (log 3). -/
def Obligations.StepRunsDecodedCommand : Prop :=
  ∀ (s : State) (pre suf : List Word) (rest : List PortEvent) (i : Instr),
    decode (pre ++ suf) = .ok i → suf ≠ [] →
    s.asm = pre → s.port = suf.map PortEvent.word ++ rest →
    step s = exec i { s with
      cp := s.cp + BitVec.ofNat 32 (pre ++ suf).length, asm := [], port := rest }

/-- A header that satisfies no row of the opcode map is illegal: the command's full length is consumed, E_ILLEGAL is
raised with the header as ERRINFO, and nothing else changes. The length is one word for a reserved opcode and the
tabulated one for a defined opcode, whatever the reserved fields hold (derived from R114, R115, R117 and R118).
How the words split between the assembly buffer and the port does not matter: the port is the model's own field
(log 1), and `cp` advances when the last word is taken, which is the model's reading of R31 (log 3). -/
def Obligations.IllegalHeaderConsumesItsLengthAndRaises : Prop :=
  (∀ (s : State) (h : Word) (ds pre suf : List Word) (rest : List PortEvent),
    (∀ o : Opc, h &&& o.mask ≠ o.pattern) → ds.length + 1 = cmdLength h →
    pre ++ suf = h :: ds → suf ≠ [] →
    s.asm = pre → s.port = suf.map PortEvent.word ++ rest →
    step s = .next { s with
      cp := s.cp + BitVec.ofNat 32 (ds.length + 1), asm := [], port := rest
      errinfo := if s.status.err then s.errinfo else h
      status := { s.status with
        err := true, lasterr := true, ecode := if s.status.err then s.status.ecode else 0x01 } }) ∧
  (∀ h : Word, (∀ o : Opc, opcField h ≠ o.code) → cmdLength h = 1) ∧
  (∀ h : Word,
    (opcField h ∈ ([0x00, 0x01, 0x02, 0x23] : List Byte) → cmdLength h = 1) ∧
    (opcField h ∈ ([0x03, 0x21, 0x22, 0x30, 0x32, 0x33, 0x34] : List Byte) → cmdLength h = 2) ∧
    (opcField h ∈ ([0x10, 0x31] : List Byte) → cmdLength h = 3) ∧
    (opcField h = 0x20 → (cmdLength h : Int) = 1 + ⌈((immField h).toNat : ℚ) / 4⌉)) ∧
  (∀ (h : Word) (ds : List Word), ds.length + 1 = cmdLength h →
    ((∃ i, decode (h :: ds) = .ok i) ↔ ∃ o : Opc, h &&& o.mask = o.pattern))

/-- Words that are only the beginning of a command wait in the assembly buffer, with no effect on any other
state; with nothing sent the block holds its state (R31, R51, R54, R309). The port is the model's own field
(log 1), and that `cp` stands still while a command is only partly there is the model's reading of R31 (log 3). -/
def Obligations.PartialCommandWaits : Prop :=
  ∀ (s : State) (ws : List Word), isPartial (s.asm ++ ws) → s.port = ws.map PortEvent.word →
    step s = .next { s with asm := s.asm ++ ws, port := [] } ∧
    ({ s with asm := s.asm ++ ws, port := [] } : State).readPort = s.readPort

/-- Reset is taken between commands or in the middle of one, whose words are discarded without effect; what the
host does after it stays pending, which is the model's choice (R320, log 2). -/
def Obligations.ResetInputDiscardsPartialCommand : Prop :=
  ∀ (s : State) (ws : List Word) (rest : List PortEvent), isPartial (s.asm ++ ws) →
    s.port = ws.map PortEvent.word ++ PortEvent.reset :: rest →
    step s = .next { State.reset with port := rest }

/-- The host can restore framing without reset by sending 16385 words of zero: from every legal state, within
16385 steps every one of them is consumed and no command is partly assembled (R330). The port is the model's own
field (log 1). -/
def Obligations.ZeroWordsRestoreFraming : Prop :=
  ∀ s : State, Legal s → s.port = List.replicate 16385 (PortEvent.word 0) →
    ∃ t, Host.Core.run Sys2Proof.core 16385 s = .next t ∧ t.asm = [] ∧ t.port = [] ∧ Legal t

/-! ## Reset -/

/-- The reset state, register group by register group (R321): every register is 0, there is no buffer, and every
mapped address reads 0. -/
def Obligations.ResetStateValues : Prop :=
  State.reset.status.toWord = 0 ∧ State.reset.result = 0 ∧ State.reset.errinfo = 0 ∧
  (∀ i, pick16 State.reset.oscShape i = 0 ∧ pick16 State.reset.oscPhase i = 0) ∧
  State.reset.spec = FilterSpec.zero ∧
  State.reset.unity16 = 0 ∧ State.reset.nco = ⟨0, 0⟩ ∧
  (∀ d k, pick8 (State.reset.c16.get d) k = 0) ∧
  (∀ k, pick8 State.reset.xh k = 0 ∧ pick8 State.reset.yh k = 0) ∧
  State.reset.mixLen = 0 ∧ State.reset.mixOfs = 0 ∧ State.reset.mixCnt = 0 ∧ State.reset.mixIdx = 0 ∧
  (∀ p, State.reset.bufRead p = none) ∧
  State.reset.cp = 0 ∧ State.reset.asm = [] ∧
  (∀ a v, State.reset.readReg a = some v → v = 0)

/-- The reset state keeps every law of a reachable state. -/
def Obligations.ResetStateIsLegal : Prop := Legal State.reset

/-! ## Invariants of every step -/

/-- Every step keeps the mixer's laws: BUF stays in canonical form and inside MIX_LEN, MIX_LEN at most BUF_MAX,
the tone inside the buffer and its index inside the tone (R48, R49, R84). -/
def Obligations.StepKeepsMixerLegal : Prop :=
  ∀ s t : State, MixerLegal s → step s = .next t → MixerLegal t

/-- Every step keeps the filter's laws: pair counts at most 4, inactive codes 0, unmigrated pairs with equal ends,
UNITY16 at most 65536 and coefficient counts even and at most 8 (R39, R42 to R45). -/
def Obligations.StepKeepsFilterLegal : Prop :=
  ∀ s t : State, SpecLegal s.spec → BankLegal s → step s = .next t → SpecLegal t.spec ∧ BankLegal t

/-- Every step keeps the error record consistent: no code, no ERRINFO and no LASTERR while ERR is 0, and one of
the five codes while it is 1 (R34, R36, R291, R296). -/
def Obligations.StepKeepsErrorRecordLegal : Prop :=
  ∀ s t : State, RecordLegal s → step s = .next t → RecordLegal t

/-- Every step keeps the framing, so that a whole command never waits unexecuted, and leaves the channels that do
not exist without contents, which is the model's choice (R31, R37, R38; log 4). -/
def Obligations.StepKeepsFramingAndChannels : Prop :=
  ∀ s t : State, isPartial s.asm → ChannelsLegal s → step s = .next t → isPartial t.asm ∧ ChannelsLegal t

/-- Every command is defined in every reachable state: from a legal state every step answers a next state, and it
is legal again (R323). -/
def Obligations.LegalStatesNeverStop : Prop :=
  ∀ s : State, Legal s → ∃ t, step s = .next t ∧ Legal t

/-! ## Errors -/

/-- What raising an error does, and all it does (R296). -/
def Obligations.RaiseRecordsTheFirstError : Prop :=
  (∀ (s : State) (e : ErrCode) (v : Word), s.status.err = false →
    s.raise e v = { s with
      errinfo := v
      status := { s.status with err := true, lasterr := true, ecode := e.code } }) ∧
  (∀ (s : State) (e : ErrCode) (v : Word), s.status.err = true →
    s.raise e v = { s with status := { s.status with lasterr := true } }) ∧
  [ErrCode.illegal, .addr, .range, .fmtPairs, .fmtTrunc].map ErrCode.code = [0x01, 0x02, 0x03, 0x10, 0x11]

/-- Every command either completes, sets LASTERR to 0 and keeps ERR, ECODE and ERRINFO, except CLRERR, which clears
them, or raises exactly one error and changes nothing else (R297; R300 for the second case). -/
def Obligations.CommandsCompleteOrRaiseOneError : Prop :=
  ∀ (i : Instr) (s t : State), exec i s = .next t →
    (t.status.lasterr = false ∧
      (i ≠ .clrerr →
        t.status.err = s.status.err ∧ t.status.ecode = s.status.ecode ∧ t.errinfo = s.errinfo) ∧
      (i = .clrerr → t.status.err = false ∧ t.status.ecode = 0 ∧ t.errinfo = 0)) ∨
    (∃ e v, t = s.raise e v)

/-- STATUS as the host reads it: its fields in their places and 0 in every reserved bit (R34). -/
def Obligations.StatusWordLayout : Prop :=
  ∀ s : Status,
    s.toWord.getLsbD 0 = s.err ∧ s.toWord.getLsbD 1 = s.lasterr ∧ s.toWord.getLsbD 2 = s.envreq ∧
    s.toWord.extractLsb' 8 8 = s.ecode ∧
    (∀ k, (3 ≤ k ∧ k ≤ 7) ∨ 16 ≤ k → s.toWord.getLsbD k = false)

/-! ## Who writes what -/

/-- The filter unit's state: the FilterSpec and ENVREQ are written only by FLT_LOAD, the coefficient bank only by
FLT_EVAL, the histories only by FLT_STEP and FLT_CLR (R200). -/
def Obligations.FilterStateWriters : Prop :=
  ∀ (i : Instr) (s t : State), exec i s = .next t →
    (opcOf i ≠ .fltLoad → t.spec = s.spec ∧ t.status.envreq = s.status.envreq) ∧
    (opcOf i ≠ .fltEval → t.unity16 = s.unity16 ∧ t.nco = s.nco ∧ t.c16 = s.c16) ∧
    (opcOf i ≠ .fltStep → opcOf i ≠ .fltClr → t.xh = s.xh ∧ t.yh = s.yh)

/-- The oscillator registers, the mixer registers and RESULT are written only by the commands whose rules say so
(R35, R48, R49, R170, R260). That no command's `exec` touches the port, `cp` or the assembly buffer is the model's
split of R31: `step` takes the words and advances `cp` before it calls `exec` (logs 1 and 3). -/
def Obligations.RegisterWriters : Prop :=
  ∀ (i : Instr) (s t : State), exec i s = .next t →
    (opcOf i ≠ .regWr → t.oscShape = s.oscShape ∧ (opcOf i ≠ .oscGen → t.oscPhase = s.oscPhase)) ∧
    (∀ ch amp inc j, i = .oscGen ch amp inc → j ≠ ch → pick16 t.oscPhase j = pick16 s.oscPhase j) ∧
    (opcOf i ≠ .mixInit → t.mixLen = s.mixLen) ∧
    (opcOf i ≠ .mixInit → opcOf i ≠ .mixTone → t.mixOfs = s.mixOfs ∧ t.mixCnt = s.mixCnt) ∧
    (opcOf i ≠ .mixInit → opcOf i ≠ .mixTone → opcOf i ≠ .mixAdd → t.mixIdx = s.mixIdx) ∧
    (opcOf i ∈ [Opc.nop, .clrerr, .regWr, .fltClr] → t.result = s.result) ∧
    t.cp = s.cp ∧ t.asm = s.asm ∧ t.port = s.port

/-- The bytes of the mixer buffer: no command but MIX_INIT and MIX_ADD changes one, and MIX_ADD changes none but
the one at MIX_OFS + MIX_IDX (R81, R90). -/
def Obligations.BufferBytesKept : Prop :=
  ∀ (i : Instr) (s t : State), exec i s = .next t →
    (opcOf i ≠ .mixInit → opcOf i ≠ .mixAdd → ∀ p, t.bufRead p = s.bufRead p) ∧
    (opcOf i = .mixAdd → ∀ p, p ≠ s.mixOfs.toNat + s.mixIdx.toNat → t.bufRead p = s.bufRead p)

/-! ## Control commands -/

/-- NOP changes LASTERR alone (R150). -/
def Obligations.NopClearsLasterrOnly : Prop :=
  ∀ s : State, exec .nop s = .next { s with status := { s.status with lasterr := false } }

/-- CLRERR clears ERR, ECODE, ERRINFO and LASTERR, and nothing else (R151). -/
def Obligations.ClrerrClearsTheErrorRecord : Prop :=
  ∀ s : State, exec .clrerr s = .next { s with
    errinfo := 0, status := { s.status with err := false, lasterr := false, ecode := 0 } }

/-- REG_RD returns every register of the map at its address, narrower ones zero-extended, and changes nothing else
(R52, R152). -/
def Obligations.RegRdReturnsEveryMappedRegister : Prop :=
  ∀ s : State,
    regRdReturns s 0x0000 (BitVec.ofNat 32 (s.status.err.toNat + 2 * s.status.lasterr.toNat
      + 4 * s.status.envreq.toNat + 256 * s.status.ecode.toNat)) ∧
    regRdReturns s 0x0001 s.result ∧ regRdReturns s 0x0002 s.errinfo ∧
    (∀ i : BitVec 4, i.toNat < Config.nOsc →
      regRdReturns s (0x0010 + i.toNat) ((pick16 s.oscShape i).setWidth 32) ∧
      regRdReturns s (0x0020 + i.toNat) (pick16 s.oscPhase i)) ∧
    regRdReturns s 0x0100 (BitVec.ofNat 32 (s.spec.pcnt.onset.toNat * 16 + s.spec.pcnt.release.toNat)) ∧
    regRdReturns s 0x0101 (s.spec.unity.start.setWidth 32) ∧
    regRdReturns s 0x0102 (s.spec.unity.stop.setWidth 32) ∧
    regRdReturns s 0x0103 (s.spec.migr.setWidth 32) ∧
    (∀ d e (n : BitVec 2),
      regRdReturns s (0x0110 + 16 * dirNumber d + 8 * endNumber e + n.toNat)
        ((pick4 ((s.spec.freq.get d).get e) n).setWidth 32) ∧
      regRdReturns s (0x0130 + 16 * dirNumber d + 8 * endNumber e + n.toNat)
        ((pick4 ((s.spec.range.get d).get e) n).setWidth 32)) ∧
    regRdReturns s 0x0150 s.unity16 ∧
    regRdReturns s 0x0151 (s.nco.onset.setWidth 32) ∧ regRdReturns s 0x0152 (s.nco.release.setWidth 32) ∧
    (∀ d (k : BitVec 3), regRdReturns s (0x0160 + 8 * dirNumber d + k.toNat) (pick8 (s.c16.get d) k)) ∧
    (∀ k : BitVec 3,
      regRdReturns s (0x0180 + k.toNat) (pick8 s.xh k) ∧
      regRdReturns s (0x0188 + k.toNat) (pick8 s.yh k)) ∧
    regRdReturns s 0x0200 s.mixLen ∧ regRdReturns s 0x0201 s.mixOfs ∧
    regRdReturns s 0x0202 s.mixCnt ∧ regRdReturns s 0x0203 s.mixIdx

/-- REG_RD of an address that no register of the map has, and REG_WR of an address that no writable register has,
raise E_ADDR with the address (R52, R152, R153, R293). -/
def Obligations.OtherAddressesRaise : Prop :=
  (∀ (a : Half) (s : State), (∀ r : Reg, r.present → r.address ≠ a.toNat) →
    exec (.regRd a) s = .next (s.raise .addr (BitVec.ofNat 32 a.toNat))) ∧
  (∀ (a : Half) (v : Word) (s : State),
    (∀ r : Reg, r.present → r.writable → r.address ≠ a.toNat) →
    exec (.regWr a v) s = .next (s.raise .addr (BitVec.ofNat 32 a.toNat)))

/-- REG_WR stores bits 7:0 in a shape register and all 32 bits in a phase register, and changes nothing else
(R37, R38, R153). -/
def Obligations.RegWrStoresShapeOrPhase : Prop :=
  ∀ (s : State) (i : BitVec 4) (v : Word), i.toNat < Config.nOsc →
    exec (.regWr (BitVec.ofNat 16 (0x0010 + i.toNat)) v) s = .next { s with
      oscShape := put16 s.oscShape i (BitVec.ofNat 8 v.toNat)
      status := { s.status with lasterr := false } } ∧
    exec (.regWr (BitVec.ofNat 16 (0x0020 + i.toNat)) v) s = .next { s with
      oscPhase := put16 s.oscPhase i v
      status := { s.status with lasterr := false } }

/-! ## The oscillator -/

/-- OSC_GEN puts the sample of the old phase in RESULT and adds the increment to that channel's phase, modulo 2^32,
and changes nothing else; a channel that does not exist raises E_RANGE and its phase does not advance
(R179). -/
def Obligations.OscGenSamplesThenAdvances : Prop :=
  ∀ (ch : BitVec 4) (amp inc : Word) (s : State),
    (ch.toNat < Config.nOsc →
      exec (.oscGen ch amp inc) s = .next { s with
        result := wave (pick16 s.oscShape ch) (pick16 s.oscPhase ch).toInt amp.toInt
        oscPhase := put16 s.oscPhase ch (pick16 s.oscPhase ch + inc)
        status := { s.status with lasterr := false } }) ∧
    (Config.nOsc ≤ ch.toNat →
      exec (.oscGen ch amp inc) s = .next (s.raise .range (BitVec.ofNat 32 ch.toNat)))

/-- Every code but 1 to 4 gives the zero shape (R174). -/
def Obligations.ZeroShapeOutputsZero : Prop :=
  ∀ (code : Byte) (ph a : Int), code.toNat = 0 ∨ 4 < code.toNat → wave code ph a = 0

/-- The square shape (R175). -/
def Obligations.SquareShapeIsPlusOrMinusAmplitude : Prop :=
  ∀ ph a : Int,
    wave 1 ph a = BitVec.ofInt 32 (if ph % 32768 < 16384 then a else -a) ∧
    (wave 1 ph (-2147483648)).toInt = -2147483648

/-- The waveform index is the phase modulo 32768, and every shape but noise has that period, for negative phases as
well (R173). -/
def Obligations.ShapesButNoiseHavePeriod32768 : Prop :=
  (∀ ph : Int, (widx ph : Int) = ph % 32768) ∧ widx (-1) = 32767 ∧
  ∀ (code : Byte) (ph a k : Int), code ≠ 4 → wave code (ph + 32768 * k) a = wave code ph a

/-- The sine shape: the table entry times the amplitude, divided by 16384 and rounded down, in 32 bits; the result
lies between minus and plus the amplitude, except where -2^31 meets an entry of -16384, whose result wraps to
-2^31; a negative product rounds down (R176). -/
def Obligations.SineShapeFloorsTheScaledEntry : Prop :=
  (∀ ph a : Int, -2147483648 ≤ a → a ≤ 2147483647 →
    wave 2 ph a = BitVec.ofInt 32 ⌊((romSin (ph % 32768).toNat * a : Int) : ℚ) / 16384⌋ ∧
    ((a ≠ -2147483648 ∨ romSin (ph % 32768).toNat ≠ -16384) →
      (wave 2 ph a).toInt = ⌊((romSin (ph % 32768).toNat * a : Int) : ℚ) / 16384⌋ ∧
      -|a| ≤ (wave 2 ph a).toInt ∧ (wave 2 ph a).toInt ≤ |a|) ∧
    (a = -2147483648 → romSin (ph % 32768).toNat = -16384 → (wave 2 ph a).toInt = -2147483648)) ∧
  (wave 2 1 (-1000)).toInt = -1 ∧ (wave 2 1 1000).toInt = 0

/-- ROM_SIN is the real sine, scaled by 16384 and rounded to the nearest integer, at every one of its 32768
entries; no entry is a tie, and its values lie in -16384 to 16384 (R171). -/
def Obligations.RomSinIsTheRoundedSine : Prop :=
  (∀ i : Nat, i < 32768 →
    |(romSin i : ℝ) - 16384 * Real.sin (i * Real.pi / 16384)| < 1 / 2 ∧
    -16384 ≤ romSin i ∧ romSin i ≤ 16384) ∧
  romSin 0 = 0 ∧ romSin 8192 = 16384 ∧ romSin 16384 = 0 ∧ romSin 24576 = -16384

/-- The sawtooth shape: the scaled index minus the amplitude, in 32 bits; for a positive amplitude it rises from
minus the amplitude, is 0 at index 16384 and never reaches plus the amplitude; for a negative one it falls from
minus the amplitude (R177). -/
def Obligations.SawtoothShapeRisesBelowAmplitude : Prop :=
  (wave 3 32767 1000).toInt = 999 ∧
  (∀ ph ph' a : Int, -2147483648 < a → a ≤ 2147483647 → ph % 32768 ≤ ph' % 32768 →
    (0 < a → (wave 3 ph a).toInt ≤ (wave 3 ph' a).toInt) ∧
    (a < 0 → (wave 3 ph' a).toInt ≤ (wave 3 ph a).toInt ∧ (ph % 32768 = 0 → (wave 3 ph a).toInt = -a))) ∧
  ∀ ph a : Int,
    wave 3 ph a = BitVec.ofInt 32 (⌊((ph % 32768 * a : Int) : ℚ) / 16384⌋ - a) ∧
    (0 < a → a ≤ 2147483647 →
      -a ≤ (wave 3 ph a).toInt ∧ (wave 3 ph a).toInt < a ∧
      (ph % 32768 = 0 → (wave 3 ph a).toInt = -a) ∧ (ph % 32768 = 16384 → (wave 3 ph a).toInt = 0)) ∧
    (ph % 32768 = 0 → (wave 3 ph (-2147483648)).toInt = -2147483648)

/-- The noise shape: plus or minus the amplitude with no shift; the table entry's index is the whole phase divided by
2607 toward zero, modulo 32768, so non-negative phases repeat every 85426176 units and a shift by 32768 reads
another entry (R178). -/
def Obligations.NoiseShapeUsesTheWholePhase : Prop :=
  (∀ ph a : Int, wave 4 ph a = BitVec.ofInt 32 (romNoise (Int.tdiv ph 2607 % 32768).toNat * a)) ∧
  (∀ ph a : Int, wave 4 ph a = BitVec.ofInt 32 a ∨ wave 4 ph a = BitVec.ofInt 32 (-a)) ∧
  (∀ ph a : Int, -2606 ≤ ph → ph ≤ 2606 → wave 4 ph a = BitVec.ofInt 32 (romNoise 0 * a)) ∧
  (∀ a : Int, wave 4 (-2607) a = BitVec.ofInt 32 (romNoise 32767 * a)) ∧
  (∀ (ph a : Int) (k : Nat), 0 ≤ ph → wave 4 (ph + 85426176 * k) a = wave 4 ph a) ∧
  Int.tdiv (0 + 32768) 2607 % 32768 ≠ Int.tdiv 0 2607 % 32768

/-! ## FLT_LOAD -/

/-- FLT_LOAD parses the record of every legal FilterSpec with a pair back into that FilterSpec, whatever bytes follow:
ENVREQ says whether an envelope block follows, RESULT is the length `6 + 4(p0 + p1) + 4m`, and nothing else
changes (R121, R123 to R125, R201). -/
def Obligations.FltLoadParsesEveryRecord : Prop :=
  ∀ (fs : FilterSpec) (extra : List Byte) (s : State), SpecLegal fs →
    0 < fs.pcnt.onset.toNat + fs.pcnt.release.toNat →
    (recordBytes fs).length = recordLength fs ∧
    exec (.fltLoad (recordBytes fs ++ extra)) s = .next { s with
      spec := fs
      result := BitVec.ofNat 32 (recordLength fs)
      status := { s.status with
        lasterr := false
        envreq := decide (fs.migr ≠ 0 ∨ fs.unity.start ≠ fs.unity.stop) } }

/-- A zero count byte gives the FilterSpec with every field 0, clears ENVREQ and has length 1 (R122, R203). -/
def Obligations.FltLoadZeroCountByte : Prop :=
  ∀ (extra : List Byte) (s : State),
    exec (.fltLoad (0 :: extra)) s = .next { s with
      spec := FilterSpec.zero
      result := 1
      status := { s.status with lasterr := false, envreq := false } }

/-- The count byte is checked before anything else is read: a nibble above 4 raises E_FMT_PAIRS with the whole count
byte, however short the rest of the record is (R202). -/
def Obligations.FltLoadPairCountAboveFourRaises : Prop :=
  ∀ (cnt : Byte) (extra : List Byte) (s : State), 4 < cnt.toNat / 16 ∨ 4 < cnt.toNat % 16 →
    exec (.fltLoad (cnt :: extra)) s = .next (s.raise .fmtPairs (BitVec.ofNat 32 cnt.toNat))

/-- A record cut short anywhere raises E_FMT_TRUNC with the offset of the field that could not be read, and leaves
FilterSpec, ENVREQ and RESULT as they were (R207). -/
def Obligations.FltLoadTruncatedRaises : Prop :=
  ∀ (fs : FilterSpec) (n : Nat) (s : State), SpecLegal fs →
    0 < fs.pcnt.onset.toNat + fs.pcnt.release.toNat → n < recordLength fs →
    exec (.fltLoad ((recordBytes fs).take n)) s
      = .next (s.raise .fmtTrunc (BitVec.ofNat 32 (fieldOffset n)))

/-! ## FLT_EVAL -/

/-- FLT_EVAL of the release direction completes for every position up to 65536: NCO is twice the pair count, that many
C16 entries are the truncated scaled coefficients, the entries after them are kept, RESULT is the count, and
nothing else changes, UNITY16 among it (R231, R232, R234). -/
def Obligations.FltEvalReleaseResult : Prop :=
  ∀ (s : State) (p : Word), p.toNat ≤ 65536 → s.spec.pcnt.release.toNat ≤ 4 →
    ∃ bank : Vector Word 8,
      exec (.fltEval .release p) s = .next { s with
        nco := ⟨s.nco.onset, BitVec.ofNat 4 (2 * s.spec.pcnt.release.toNat)⟩
        c16 := ⟨s.c16.onset, bank⟩
        result := BitVec.ofNat 32 (2 * s.spec.pcnt.release.toNat)
        status := { s.status with lasterr := false } } ∧
      (rawCoeffs blockLib s.spec .release (position Config.fpFmt p.toNat)).length
        = 2 * s.spec.pcnt.release.toNat ∧
      ∀ k (hk : k < 8),
        (∀ c, (rawCoeffs blockLib s.spec .release (position Config.fpFmt p.toNat))[k]? = some c →
          bank[k] = BitVec.ofInt 32 (truncF (fpMul Config.fpFmt c (flInt Config.fpFmt 65536)))) ∧
        (2 * s.spec.pcnt.release.toNat ≤ k → bank[k] = s.c16.release[k])

/-- FLT_EVAL of the onset direction does the same with coefficients scaled by the unity gain, and writes UNITY16 even
when there is no pair (R225, R230, R232). -/
def Obligations.FltEvalOnsetResult : Prop :=
  ∀ (s : State) (p : Word), p.toNat ≤ 65536 → s.spec.pcnt.onset.toNat ≤ 4 →
    ∃ bank : Vector Word 8,
      exec (.fltEval .onset p) s = .next { s with
        unity16 := BitVec.ofInt 32 (truncF (fpMul Config.fpFmt
          (unityGain blockLib s.spec (position Config.fpFmt p.toNat)) (flInt Config.fpFmt 65536)))
        nco := ⟨BitVec.ofNat 4 (2 * s.spec.pcnt.onset.toNat), s.nco.release⟩
        c16 := ⟨bank, s.c16.release⟩
        result := BitVec.ofNat 32 (2 * s.spec.pcnt.onset.toNat)
        status := { s.status with lasterr := false } } ∧
      ∀ k (hk : k < 8),
        (∀ c, (rawCoeffs blockLib s.spec .onset (position Config.fpFmt p.toNat))[k]? = some c →
          bank[k] = BitVec.ofInt 32 (truncF (fpMul Config.fpFmt
            (fpMul Config.fpFmt c (unityGain blockLib s.spec (position Config.fpFmt p.toNat)))
            (flInt Config.fpFmt 65536)))) ∧
        (2 * s.spec.pcnt.onset.toNat ≤ k → bank[k] = s.c16.onset[k])

/-- The position: `t = P / 65536` exactly in both formats, and `P > 65536` raises E_RANGE with `P` (R223). -/
def Obligations.PositionIsExactAndBounded : Prop :=
  (∀ (f : FpFmt) (p : Nat), p ≤ 65536 → fpVal (position f p) = (p : ℚ) / 65536) ∧
  (∀ (d : Dir) (p : Word) (s : State), 65536 < p.toNat → exec (.fltEval d p) s = .next (s.raise .range p))

/-- Interpolation is exact at both ends of the envelope and between equal codes (R224). -/
def Obligations.InterpolationMeetsItsEnds : Prop :=
  ∀ (f : FpFmt) (s e p : Nat), s < 65536 → e < 65536 → p ≤ 65536 →
    interp f s s (position f p) = flInt f s ∧
    interp f s e (position f 0) = flInt f s ∧
    fpVal (interp f s e (position f 65536)) = e

/-- What the configuration functions obey and what the block has (R222). The checks of FLT_EVAL are PZERO, PRANGE
and finiteness at one argument. The block's own functions pass them at every argument, since the type of their
parameters is PRANGE, and no function that passes is shut out by that type: every finite value that PRANGE
admits is at one of the places, and so is every finite value where it admits all. This is the model's form
of the parameters (log 8). The coefficient generator asks the supplied functions themselves. -/
def Obligations.ConfigurationFunctionsAreLawful : Prop :=
  (∀ (l : FpLib) (e : Fp),
    (pow10Lawful l e = true ↔ inFormat l.fmt (l.pow10 e) = true ∧ (fpVal e = 0 → fpVal (l.pow10 e) = 1) ∧
      (fpVal e ≤ 0 → 0 ≤ fpVal (l.pow10 e) ∧ fpVal (l.pow10 e) ≤ 1)) ∧
    (pow2Lawful l e = true ↔ inFormat l.fmt (l.pow2 e) = true ∧
      (fpVal e = 0 → e.neg = false → fpVal (l.pow2 e) = 1) ∧
      (0 ≤ fpVal e → fpVal e ≤ 8 → 1 ≤ fpVal (l.pow2 e) ∧ fpVal (l.pow2 e) ≤ 256)) ∧
    (cosLawful l e = true ↔ inFormat l.fmt (l.cos e) = true ∧ -1 ≤ fpVal (l.cos e) ∧ fpVal (l.cos e) ≤ 1)) ∧
  (∀ e : Fp, pow10Lawful blockLib e = true ∧ pow2Lawful blockLib e = true ∧ cosLawful blockLib e = true) ∧
  (∀ (f : FpFmt) (v : Fp), inFormat f v = true →
    (0 ≤ fpVal v → fpVal v ≤ 1 → ∃ i : Fin (f.patternOne + 2),
      fpVal (ofPlace f (i.val - 1)) = fpVal v ∧ (ofPlace f (i.val - 1)).neg = v.neg) ∧
    (1 ≤ fpVal v → fpVal v ≤ 256 → ∃ i : Fin (f.pattern256 - f.patternOne + 1),
      fpVal (ofPlace f (f.patternOne + i.val)) = fpVal v) ∧
    (-1 ≤ fpVal v → fpVal v ≤ 1 → ∃ i : Fin (2 * f.patternOne + 2),
      fpVal (ofPlace f (i.val - (f.patternOne + 1))) = fpVal v ∧
        (ofPlace f (i.val - (f.patternOne + 1))).neg = v.neg) ∧
    ∃ i : Fin (2 * f.patternMax + 2),
      fpVal (ofPlace f (i.val - (f.patternMax + 1))) = fpVal v ∧
        (ofPlace f (i.val - (f.patternMax + 1))).neg = v.neg) ∧
  (∀ (l : FpLib) (db x g th : Fp),
    attenuation l db = l.pow10 (fpNeg (fpDiv l.fmt db (flInt l.fmt 20))) ∧
    normalize l x = fpDiv l.fmt (fpMul l.fmt (fpMul l.fmt (kRef l.fmt) (l.pow2 x)) (kPi l.fmt)) (kClk l.fmt) ∧
    quadratic l g th = (fpMul l.fmt (fpMul l.fmt (flInt l.fmt (-2)) g) (l.cos th), fpMul l.fmt g g))

/-- UNITY16 lies in 0 to 65536 after every FLT_EVAL of direction 0, and is 65536 where the interpolated unity value is
0, with functions that obey R222 where the unity gain asks for one (R44, R233). -/
def Obligations.UnityGainLiesInUnitRange : Prop :=
  ∀ (l : FpLib) (fs : FilterSpec) (p : Nat), p ≤ 65536 → unityLawful l fs (position l.fmt p) = true →
    (fixedUnity l fs p).toNat ≤ 65536 ∧
    (fpVal (interp l.fmt fs.unity.start.toNat fs.unity.stop.toNat (position l.fmt p)) = 0 →
      fixedUnity l fs p = 65536)

/-- Each pair's radius lies in 0 to 1 and its factors in their bounds: `|a| <= 2` and `0 <= b <= 1`, with functions
that obey R222 where the pair asks for them (R226, R228; rounding can reach the 1 that exact arithmetic only
approaches). -/
def Obligations.PairFactorsAreBounded : Prop :=
  ∀ (l : FpLib) (fs : FilterSpec) (d : Dir) (n : BitVec 2) (p : Nat), p ≤ 65536 →
    pairLawful l fs d (position l.fmt p) n = true →
    0 ≤ fpVal (pairGain l (pick4 (fs.range.get d).start n) (pick4 (fs.range.get d).stop n)
      (position l.fmt p)) ∧
    fpVal (pairGain l (pick4 (fs.range.get d).start n) (pick4 (fs.range.get d).stop n)
      (position l.fmt p)) ≤ 1 ∧
    |fpVal (pairQuadratic l fs d (position l.fmt p) n).1| ≤ 2 ∧
    0 ≤ fpVal (pairQuadratic l fs d (position l.fmt p) n).2 ∧
    fpVal (pairQuadratic l fs d (position l.fmt p) n).2 ≤ 1

/-- No coefficient overflows with functions that obey R222 where FLT_EVAL asks for them: every floating coefficient is
a finite value of the format, and the conversion to fixed point never leaves 32 bits, so its wrap changes no
value (R231, R233). With functions that do not obey it there, FLT_EVAL refuses, and with functions that do it
answers a next state (R310). The block's own functions obey it always, and its FLT_EVAL is this one (log 8). -/
def Obligations.CoefficientsNeverOverflow : Prop :=
  (∀ (l : FpLib) (fs : FilterSpec) (d : Dir) (p : Nat), p ≤ 65536 → (fs.pcnt.get d).toNat ≤ 4 →
    evalLawful l fs d (position l.fmt p) = true →
    (coeffs l fs d (position l.fmt p)).length = 2 * (fs.pcnt.get d).toNat ∧
    ∀ c ∈ coeffs l fs d (position l.fmt p),
      inFormat l.fmt c = true ∧
      (fixed16 l.fmt c).toInt = truncF (fpMul l.fmt c (flInt l.fmt 65536))) ∧
  (∀ (l : FpLib) (d : Dir) (p : Word) (s : State), p.toNat ≤ 65536 → (s.spec.pcnt.get d).toNat ≤ 4 →
    (evalLawful l s.spec d (position l.fmt p.toNat) = false →
      fltEvalWith l d p s = .refused .unlawfulFunctions) ∧
    (evalLawful l s.spec d (position l.fmt p.toNat) = true → ∃ t, fltEvalWith l d p s = .next t)) ∧
  (∀ (l : FpLib) (fs : FilterSpec) (d : Dir) (t : Fp),
    evalLawful l fs d t = true ↔
      (d = .onset → unityLawful l fs t = true) ∧
      ∀ n : BitVec 2, n.toNat < (fs.pcnt.get d).toNat → pairLawful l fs d t n = true) ∧
  (∀ (fs : FilterSpec) (d : Dir) (t : Fp), evalLawful blockLib fs d t = true) ∧
  ∀ (d : Dir) (p : Word) (s : State), exec (.fltEval d p) s = fltEvalWith blockLib d p s

/-- In exact arithmetic the in-place expansion multiplies the quadratic factors `1 + a X + b X²` of all the pairs
(R229). -/
def Obligations.ExpansionMultipliesTheQuadratics : Prop :=
  ∀ qs : List (ℚ × ℚ),
    cascade (expand exactArith qs)
      = (qs.map fun q =>
          1 + Polynomial.C q.1 * Polynomial.X + Polynomial.C q.2 * Polynomial.X ^ 2).prod

/-- With equal start and end codes, as every unmigrated pair has, the release coefficients are the same at every
position (R235). -/
def Obligations.StaticPairsIgnoreThePosition : Prop :=
  ∀ (l : FpLib) (fs : FilterSpec) (p q : Nat), p ≤ 65536 → q ≤ 65536 →
    (∀ n, pick4 fs.freq.release.start n = pick4 fs.freq.release.stop n) →
    (∀ n, pick4 fs.range.release.start n = pick4 fs.range.release.stop n) →
    fixedCoeffs l fs .release p = fixedCoeffs l fs .release q

/-- A pair whose range codes are 0 has radius 0 and both factors 0, in any direction and beside any other pairs, and a
direction with that one pair gets two coefficients of 0, with functions that obey R222 where they are asked
(R226, R228, R232). -/
def Obligations.ZeroRangeGivesZeroCoefficients : Prop :=
  ∀ (l : FpLib) (fs : FilterSpec) (d : Dir) (p : Nat), p ≤ 65536 →
    (∀ n : BitVec 2, pairLawful l fs d (position l.fmt p) n = true →
      pick4 (fs.range.get d).start n = 0 → pick4 (fs.range.get d).stop n = 0 →
      fpVal (pairGain l (pick4 (fs.range.get d).start n) (pick4 (fs.range.get d).stop n)
        (position l.fmt p)) = 0 ∧
      fpVal (pairQuadratic l fs d (position l.fmt p) n).1 = 0 ∧
      fpVal (pairQuadratic l fs d (position l.fmt p) n).2 = 0) ∧
    ((fs.pcnt.get d).toNat = 1 → evalLawful l fs d (position l.fmt p) = true →
      pick4 (fs.range.get d).start 0 = 0 → pick4 (fs.range.get d).stop 0 = 0 →
      fixedCoeffs l fs d p = [0, 0])

/-! ## FLT_STEP and FLT_CLR -/

/-- FLT_STEP: the output is the sum of the floored products, wrapped to 32 bits, and both histories shift by one,
whatever NCO holds; nothing else changes (R240, R241). -/
def Obligations.FltStepFiltersAndShifts : Prop :=
  ∀ (x : Word) (s : State), s.nco.onset.toNat ≤ 8 → s.nco.release.toNat ≤ 8 →
    ∃ (y : Word) (xh yh : Vector Word 8),
      exec (.fltStep x) s = .next { s with
        result := y, xh := xh, yh := yh, status := { s.status with lasterr := false } } ∧
      y = BitVec.ofInt 32 (⌊((x.toInt * s.unity16.toInt : Int) : ℚ) / 65536⌋
        + (∑ k : Fin 8, if k.val < s.nco.onset.toNat
            then ⌊((s.xh[k.val].toInt * s.c16.onset[k.val].toInt : Int) : ℚ) / 65536⌋ else 0)
        - (∑ k : Fin 8, if k.val < s.nco.release.toNat
            then ⌊((s.yh[k.val].toInt * s.c16.release[k.val].toInt : Int) : ℚ) / 65536⌋ else 0)) ∧
      xh[0] = x ∧ yh[0] = y ∧
      ∀ k (hk : k + 1 < 8), xh[k + 1] = s.xh[k] ∧ yh[k + 1] = s.yh[k]

/-- With no coefficients and unity gain the filter passes every sample through unchanged (R240). -/
def Obligations.FltStepPassesThrough : Prop :=
  ∀ (x : Word) (s : State), s.nco = ⟨0, 0⟩ → s.unity16 = 65536 →
    ∃ t, exec (.fltStep x) s = .next t ∧ t.result = x

/-- FLT_CLR zeroes both histories and changes nothing else (R243). -/
def Obligations.FltClrZeroesTheHistories : Prop :=
  ∀ s : State, ∃ xh yh : Vector Word 8,
    exec .fltClr s = .next { s with xh := xh, yh := yh, status := { s.status with lasterr := false } } ∧
    ∀ k (hk : k < 8), xh[k] = 0 ∧ yh[k] = 0

/-! ## The mixer -/

/-- MIX_INIT up to 190217 ms allocates `floor(D * 22050 / 1000)` samples of 0, resets the tone and changes nothing
else; a longer duration raises E_RANGE with it and keeps everything (R260, R261). -/
def Obligations.MixInitAllocatesZeroes : Prop :=
  ∀ (d : Word) (s : State),
    (d.toNat ≤ 190217 → ∃ buf,
      exec (.mixInit d) s = .next { s with
        mixLen := BitVec.ofNat 32 (d.toNat * 441 / 20), mixOfs := 0, mixCnt := 0, mixIdx := 0, buf := buf
        result := BitVec.ofNat 32 (d.toNat * 441 / 20), status := { s.status with lasterr := false } } ∧
      Memory.wf buf = true ∧ ∀ p, Memory.read buf p = 0) ∧
    (190217 < d.toNat → exec (.mixInit d) s = .next (s.raise .range d))

/-- MIX_TONE sets the tone's place and changes nothing else; a tone past the buffer's end raises E_RANGE with the index
one past its last sample, saturated to 32 bits (R262). -/
def Obligations.MixToneSetsTheTone : Prop :=
  ∀ (st n : Word) (s : State),
    (st.toNat * 22050 / 1000 + n.toNat * 22050 / 1000 ≤ s.mixLen.toNat →
      exec (.mixTone st n) s = .next { s with
        mixOfs := BitVec.ofNat 32 (st.toNat * 22050 / 1000)
        mixCnt := BitVec.ofNat 32 (n.toNat * 22050 / 1000)
        mixIdx := 0
        result := BitVec.ofNat 32 (n.toNat * 22050 / 1000)
        status := { s.status with lasterr := false } }) ∧
    (s.mixLen.toNat < st.toNat * 22050 / 1000 + n.toNat * 22050 / 1000 →
      exec (.mixTone st n) s = .next (s.raise .range
        (BitVec.ofNat 32 (min (st.toNat * 22050 / 1000 + n.toNat * 22050 / 1000) 4294967295))))

/-- Every tone that ends within the track's duration fits the buffer that MIX_INIT allocated for it, so MIX_TONE does
not raise E_RANGE, in the state right after MIX_INIT and in every later one whose MIX_LEN it left (R269). -/
def Obligations.AnnouncedTonesFit : Prop :=
  ∀ (d st n : Word) (s t s' : State), st.toNat + n.toNat ≤ d.toNat → d.toNat ≤ 190217 →
    exec (.mixInit d) s = .next t → s'.mixLen = t.mixLen →
    ∃ u, exec (.mixTone st n) s' = .next u ∧ u.status.lasterr = false ∧
      u.mixOfs.toNat = st.toNat * 22050 / 1000 ∧ u.mixCnt.toNat = n.toNat * 22050 / 1000 ∧
      u.mixOfs.toNat + u.mixCnt.toNat ≤ u.mixLen.toNat

/-- MIX_ADD merges one sample: the sample at MIX_OFS + MIX_IDX becomes the old one plus `s >> 8`, clamped to -128 to
127, every other sample is kept, MIX_IDX advances, RESULT is the stored sample, and nothing else changes; with
no sample left it raises E_RANGE with MIX_IDX (R263 to R265). -/
def Obligations.MixAddMergesWithSaturation : Prop :=
  ∀ (x : Word) (s : State), MixerLegal s →
    (s.mixIdx.toNat < s.mixCnt.toNat → ∃ buf,
      exec (.mixAdd x) s = .next { s with
        buf := buf
        mixIdx := BitVec.ofNat 32 (s.mixIdx.toNat + 1)
        result := BitVec.ofInt 32 (max (-128) (min 127
          ((s.sample (s.mixOfs.toNat + s.mixIdx.toNat)).toInt + ⌊(x.toInt : ℚ) / 256⌋)))
        status := { s.status with lasterr := false } } ∧
      Memory.wf buf = true ∧
      (Memory.read buf (s.mixOfs.toNat + s.mixIdx.toNat)).toInt = max (-128) (min 127
        ((s.sample (s.mixOfs.toNat + s.mixIdx.toNat)).toInt + ⌊(x.toInt : ℚ) / 256⌋)) ∧
      ∀ p, p ≠ s.mixOfs.toNat + s.mixIdx.toNat → Memory.read buf p = s.sample p) ∧
    (s.mixCnt.toNat ≤ s.mixIdx.toNat → exec (.mixAdd x) s = .next (s.raise .range s.mixIdx))

/-- The saturation formula equals the clamp for every accumulator below 2^31 in magnitude, and the byte it stores reads
back unchanged (R265). -/
def Obligations.SaturationIsTheClamp : Prop :=
  ∀ acc : Int, |acc| < 2147483648 →
    (sat8 (BitVec.ofInt 32 acc)).toInt = max (-128) (min 127 acc) ∧
    (low8 (sat8 (BitVec.ofInt 32 acc)).toInt).toInt = (sat8 (BitVec.ofInt 32 acc)).toInt

/-- MIX_RD returns one sample, sign-extended, and MIX_RDPCM the byte `(v - 127) mod 256`, which is a bijection; neither
changes anything else; an index outside the buffer raises E_RANGE with it (R266, R268). -/
def Obligations.MixReadsReturnOneSample : Prop :=
  (∀ (p : Word) (s : State),
    (p.toNat < s.mixLen.toNat →
      exec (.mixRd p) s = .next { s with
        result := BitVec.ofInt 32 (s.sample p.toNat).toInt
        status := { s.status with lasterr := false } } ∧
      exec (.mixRdpcm p) s = .next { s with
        result := BitVec.ofNat 32 (((s.sample p.toNat).toInt - 127) % 256).toNat
        status := { s.status with lasterr := false } }) ∧
    (s.mixLen.toNat ≤ p.toNat →
      exec (.mixRd p) s = .next (s.raise .range p) ∧ exec (.mixRdpcm p) s = .next (s.raise .range p))) ∧
  Function.Bijective (fun v : Byte => low8 (s8 v - 127))

/-- `MemRead` after `MemWrite`: the byte written at the index written, the old byte at every other index, and neither
answers outside the buffer (R84). -/
def Obligations.BufferReadAfterWrite : Prop :=
  ∀ (s : State) (p : Nat) (v : Byte), Memory.wf s.buf = true →
    (p < s.mixLen.toNat → ∃ t, s.bufWrite p v = some t ∧ Memory.wf t.buf = true ∧
      ∀ q, t.bufRead q = if q = p then some v else s.bufRead q) ∧
    (s.mixLen.toNat ≤ p → s.bufWrite p v = none ∧ s.bufRead p = none)
end

