-- ==== Sys2Proof/Laws/State.lean ====
section
/-! SUPPORT. What each shared state update does to each field of State, one lemma a field, so that no later
proof unfolds a record update. -/

namespace Sys2Proof.Machine

@[simp] theorem State.raise_status (s : State) (e : ErrCode) (v : Word) : (s.raise e v).status = (s.status.afterError e) := rfl
@[simp] theorem State.raise_result (s : State) (e : ErrCode) (v : Word) : (s.raise e v).result = s.result := rfl
@[simp] theorem State.raise_errinfo (s : State) (e : ErrCode) (v : Word) : (s.raise e v).errinfo = (if s.status.err then s.errinfo else v) := rfl
@[simp] theorem State.raise_oscShape (s : State) (e : ErrCode) (v : Word) : (s.raise e v).oscShape = s.oscShape := rfl
@[simp] theorem State.raise_oscPhase (s : State) (e : ErrCode) (v : Word) : (s.raise e v).oscPhase = s.oscPhase := rfl
@[simp] theorem State.raise_spec (s : State) (e : ErrCode) (v : Word) : (s.raise e v).spec = s.spec := rfl
@[simp] theorem State.raise_unity16 (s : State) (e : ErrCode) (v : Word) : (s.raise e v).unity16 = s.unity16 := rfl
@[simp] theorem State.raise_nco (s : State) (e : ErrCode) (v : Word) : (s.raise e v).nco = s.nco := rfl
@[simp] theorem State.raise_c16 (s : State) (e : ErrCode) (v : Word) : (s.raise e v).c16 = s.c16 := rfl
@[simp] theorem State.raise_xh (s : State) (e : ErrCode) (v : Word) : (s.raise e v).xh = s.xh := rfl
@[simp] theorem State.raise_yh (s : State) (e : ErrCode) (v : Word) : (s.raise e v).yh = s.yh := rfl
@[simp] theorem State.raise_mixLen (s : State) (e : ErrCode) (v : Word) : (s.raise e v).mixLen = s.mixLen := rfl
@[simp] theorem State.raise_mixOfs (s : State) (e : ErrCode) (v : Word) : (s.raise e v).mixOfs = s.mixOfs := rfl
@[simp] theorem State.raise_mixCnt (s : State) (e : ErrCode) (v : Word) : (s.raise e v).mixCnt = s.mixCnt := rfl
@[simp] theorem State.raise_mixIdx (s : State) (e : ErrCode) (v : Word) : (s.raise e v).mixIdx = s.mixIdx := rfl
@[simp] theorem State.raise_buf (s : State) (e : ErrCode) (v : Word) : (s.raise e v).buf = s.buf := rfl
@[simp] theorem State.raise_cp (s : State) (e : ErrCode) (v : Word) : (s.raise e v).cp = s.cp := rfl
@[simp] theorem State.raise_asm (s : State) (e : ErrCode) (v : Word) : (s.raise e v).asm = s.asm := rfl
@[simp] theorem State.raise_port (s : State) (e : ErrCode) (v : Word) : (s.raise e v).port = s.port := rfl

@[simp] theorem State.clearErrors_status (s : State) : (s.clearErrors).status = (s.status.cleared) := rfl
@[simp] theorem State.clearErrors_result (s : State) : (s.clearErrors).result = s.result := rfl
@[simp] theorem State.clearErrors_errinfo (s : State) : (s.clearErrors).errinfo = (0) := rfl
@[simp] theorem State.clearErrors_oscShape (s : State) : (s.clearErrors).oscShape = s.oscShape := rfl
@[simp] theorem State.clearErrors_oscPhase (s : State) : (s.clearErrors).oscPhase = s.oscPhase := rfl
@[simp] theorem State.clearErrors_spec (s : State) : (s.clearErrors).spec = s.spec := rfl
@[simp] theorem State.clearErrors_unity16 (s : State) : (s.clearErrors).unity16 = s.unity16 := rfl
@[simp] theorem State.clearErrors_nco (s : State) : (s.clearErrors).nco = s.nco := rfl
@[simp] theorem State.clearErrors_c16 (s : State) : (s.clearErrors).c16 = s.c16 := rfl
@[simp] theorem State.clearErrors_xh (s : State) : (s.clearErrors).xh = s.xh := rfl
@[simp] theorem State.clearErrors_yh (s : State) : (s.clearErrors).yh = s.yh := rfl
@[simp] theorem State.clearErrors_mixLen (s : State) : (s.clearErrors).mixLen = s.mixLen := rfl
@[simp] theorem State.clearErrors_mixOfs (s : State) : (s.clearErrors).mixOfs = s.mixOfs := rfl
@[simp] theorem State.clearErrors_mixCnt (s : State) : (s.clearErrors).mixCnt = s.mixCnt := rfl
@[simp] theorem State.clearErrors_mixIdx (s : State) : (s.clearErrors).mixIdx = s.mixIdx := rfl
@[simp] theorem State.clearErrors_buf (s : State) : (s.clearErrors).buf = s.buf := rfl
@[simp] theorem State.clearErrors_cp (s : State) : (s.clearErrors).cp = s.cp := rfl
@[simp] theorem State.clearErrors_asm (s : State) : (s.clearErrors).asm = s.asm := rfl
@[simp] theorem State.clearErrors_port (s : State) : (s.clearErrors).port = s.port := rfl

@[simp] theorem State.complete_status (s : State) : (s.complete).status = (s.status.afterSuccess) := rfl
@[simp] theorem State.complete_result (s : State) : (s.complete).result = s.result := rfl
@[simp] theorem State.complete_errinfo (s : State) : (s.complete).errinfo = s.errinfo := rfl
@[simp] theorem State.complete_oscShape (s : State) : (s.complete).oscShape = s.oscShape := rfl
@[simp] theorem State.complete_oscPhase (s : State) : (s.complete).oscPhase = s.oscPhase := rfl
@[simp] theorem State.complete_spec (s : State) : (s.complete).spec = s.spec := rfl
@[simp] theorem State.complete_unity16 (s : State) : (s.complete).unity16 = s.unity16 := rfl
@[simp] theorem State.complete_nco (s : State) : (s.complete).nco = s.nco := rfl
@[simp] theorem State.complete_c16 (s : State) : (s.complete).c16 = s.c16 := rfl
@[simp] theorem State.complete_xh (s : State) : (s.complete).xh = s.xh := rfl
@[simp] theorem State.complete_yh (s : State) : (s.complete).yh = s.yh := rfl
@[simp] theorem State.complete_mixLen (s : State) : (s.complete).mixLen = s.mixLen := rfl
@[simp] theorem State.complete_mixOfs (s : State) : (s.complete).mixOfs = s.mixOfs := rfl
@[simp] theorem State.complete_mixCnt (s : State) : (s.complete).mixCnt = s.mixCnt := rfl
@[simp] theorem State.complete_mixIdx (s : State) : (s.complete).mixIdx = s.mixIdx := rfl
@[simp] theorem State.complete_buf (s : State) : (s.complete).buf = s.buf := rfl
@[simp] theorem State.complete_cp (s : State) : (s.complete).cp = s.cp := rfl
@[simp] theorem State.complete_asm (s : State) : (s.complete).asm = s.asm := rfl
@[simp] theorem State.complete_port (s : State) : (s.complete).port = s.port := rfl

@[simp] theorem State.completeWith_status (s : State) (v : Word) : (s.completeWith v).status = (s.status.afterSuccess) := rfl
@[simp] theorem State.completeWith_result (s : State) (v : Word) : (s.completeWith v).result = (v) := rfl
@[simp] theorem State.completeWith_errinfo (s : State) (v : Word) : (s.completeWith v).errinfo = s.errinfo := rfl
@[simp] theorem State.completeWith_oscShape (s : State) (v : Word) : (s.completeWith v).oscShape = s.oscShape := rfl
@[simp] theorem State.completeWith_oscPhase (s : State) (v : Word) : (s.completeWith v).oscPhase = s.oscPhase := rfl
@[simp] theorem State.completeWith_spec (s : State) (v : Word) : (s.completeWith v).spec = s.spec := rfl
@[simp] theorem State.completeWith_unity16 (s : State) (v : Word) : (s.completeWith v).unity16 = s.unity16 := rfl
@[simp] theorem State.completeWith_nco (s : State) (v : Word) : (s.completeWith v).nco = s.nco := rfl
@[simp] theorem State.completeWith_c16 (s : State) (v : Word) : (s.completeWith v).c16 = s.c16 := rfl
@[simp] theorem State.completeWith_xh (s : State) (v : Word) : (s.completeWith v).xh = s.xh := rfl
@[simp] theorem State.completeWith_yh (s : State) (v : Word) : (s.completeWith v).yh = s.yh := rfl
@[simp] theorem State.completeWith_mixLen (s : State) (v : Word) : (s.completeWith v).mixLen = s.mixLen := rfl
@[simp] theorem State.completeWith_mixOfs (s : State) (v : Word) : (s.completeWith v).mixOfs = s.mixOfs := rfl
@[simp] theorem State.completeWith_mixCnt (s : State) (v : Word) : (s.completeWith v).mixCnt = s.mixCnt := rfl
@[simp] theorem State.completeWith_mixIdx (s : State) (v : Word) : (s.completeWith v).mixIdx = s.mixIdx := rfl
@[simp] theorem State.completeWith_buf (s : State) (v : Word) : (s.completeWith v).buf = s.buf := rfl
@[simp] theorem State.completeWith_cp (s : State) (v : Word) : (s.completeWith v).cp = s.cp := rfl
@[simp] theorem State.completeWith_asm (s : State) (v : Word) : (s.completeWith v).asm = s.asm := rfl
@[simp] theorem State.completeWith_port (s : State) (v : Word) : (s.completeWith v).port = s.port := rfl

@[simp] theorem State.oscStep_status (s : State) (ch : BitVec 4) (a i : Word) : (s.oscStep ch a i).status = (s.status.afterSuccess) := rfl
@[simp] theorem State.oscStep_result (s : State) (ch : BitVec 4) (a i : Word) : (s.oscStep ch a i).result = (wave (pick16 s.oscShape ch) (s32 (pick16 s.oscPhase ch)) (s32 a)) := rfl
@[simp] theorem State.oscStep_errinfo (s : State) (ch : BitVec 4) (a i : Word) : (s.oscStep ch a i).errinfo = s.errinfo := rfl
@[simp] theorem State.oscStep_oscShape (s : State) (ch : BitVec 4) (a i : Word) : (s.oscStep ch a i).oscShape = s.oscShape := rfl
@[simp] theorem State.oscStep_oscPhase (s : State) (ch : BitVec 4) (a i : Word) : (s.oscStep ch a i).oscPhase = (put16 s.oscPhase ch (wrap32 (s32 (pick16 s.oscPhase ch) + s32 i))) := rfl
@[simp] theorem State.oscStep_spec (s : State) (ch : BitVec 4) (a i : Word) : (s.oscStep ch a i).spec = s.spec := rfl
@[simp] theorem State.oscStep_unity16 (s : State) (ch : BitVec 4) (a i : Word) : (s.oscStep ch a i).unity16 = s.unity16 := rfl
@[simp] theorem State.oscStep_nco (s : State) (ch : BitVec 4) (a i : Word) : (s.oscStep ch a i).nco = s.nco := rfl
@[simp] theorem State.oscStep_c16 (s : State) (ch : BitVec 4) (a i : Word) : (s.oscStep ch a i).c16 = s.c16 := rfl
@[simp] theorem State.oscStep_xh (s : State) (ch : BitVec 4) (a i : Word) : (s.oscStep ch a i).xh = s.xh := rfl
@[simp] theorem State.oscStep_yh (s : State) (ch : BitVec 4) (a i : Word) : (s.oscStep ch a i).yh = s.yh := rfl
@[simp] theorem State.oscStep_mixLen (s : State) (ch : BitVec 4) (a i : Word) : (s.oscStep ch a i).mixLen = s.mixLen := rfl
@[simp] theorem State.oscStep_mixOfs (s : State) (ch : BitVec 4) (a i : Word) : (s.oscStep ch a i).mixOfs = s.mixOfs := rfl
@[simp] theorem State.oscStep_mixCnt (s : State) (ch : BitVec 4) (a i : Word) : (s.oscStep ch a i).mixCnt = s.mixCnt := rfl
@[simp] theorem State.oscStep_mixIdx (s : State) (ch : BitVec 4) (a i : Word) : (s.oscStep ch a i).mixIdx = s.mixIdx := rfl
@[simp] theorem State.oscStep_buf (s : State) (ch : BitVec 4) (a i : Word) : (s.oscStep ch a i).buf = s.buf := rfl
@[simp] theorem State.oscStep_cp (s : State) (ch : BitVec 4) (a i : Word) : (s.oscStep ch a i).cp = s.cp := rfl
@[simp] theorem State.oscStep_asm (s : State) (ch : BitVec 4) (a i : Word) : (s.oscStep ch a i).asm = s.asm := rfl
@[simp] theorem State.oscStep_port (s : State) (ch : BitVec 4) (a i : Word) : (s.oscStep ch a i).port = s.port := rfl

@[simp] theorem State.loadSpec_status (s : State) (fs : FilterSpec) (env : Bool) : (s.loadSpec fs env).status = (s.status.withEnvreq env) := rfl
@[simp] theorem State.loadSpec_result (s : State) (fs : FilterSpec) (env : Bool) : (s.loadSpec fs env).result = s.result := rfl
@[simp] theorem State.loadSpec_errinfo (s : State) (fs : FilterSpec) (env : Bool) : (s.loadSpec fs env).errinfo = s.errinfo := rfl
@[simp] theorem State.loadSpec_oscShape (s : State) (fs : FilterSpec) (env : Bool) : (s.loadSpec fs env).oscShape = s.oscShape := rfl
@[simp] theorem State.loadSpec_oscPhase (s : State) (fs : FilterSpec) (env : Bool) : (s.loadSpec fs env).oscPhase = s.oscPhase := rfl
@[simp] theorem State.loadSpec_spec (s : State) (fs : FilterSpec) (env : Bool) : (s.loadSpec fs env).spec = (fs) := rfl
@[simp] theorem State.loadSpec_unity16 (s : State) (fs : FilterSpec) (env : Bool) : (s.loadSpec fs env).unity16 = s.unity16 := rfl
@[simp] theorem State.loadSpec_nco (s : State) (fs : FilterSpec) (env : Bool) : (s.loadSpec fs env).nco = s.nco := rfl
@[simp] theorem State.loadSpec_c16 (s : State) (fs : FilterSpec) (env : Bool) : (s.loadSpec fs env).c16 = s.c16 := rfl
@[simp] theorem State.loadSpec_xh (s : State) (fs : FilterSpec) (env : Bool) : (s.loadSpec fs env).xh = s.xh := rfl
@[simp] theorem State.loadSpec_yh (s : State) (fs : FilterSpec) (env : Bool) : (s.loadSpec fs env).yh = s.yh := rfl
@[simp] theorem State.loadSpec_mixLen (s : State) (fs : FilterSpec) (env : Bool) : (s.loadSpec fs env).mixLen = s.mixLen := rfl
@[simp] theorem State.loadSpec_mixOfs (s : State) (fs : FilterSpec) (env : Bool) : (s.loadSpec fs env).mixOfs = s.mixOfs := rfl
@[simp] theorem State.loadSpec_mixCnt (s : State) (fs : FilterSpec) (env : Bool) : (s.loadSpec fs env).mixCnt = s.mixCnt := rfl
@[simp] theorem State.loadSpec_mixIdx (s : State) (fs : FilterSpec) (env : Bool) : (s.loadSpec fs env).mixIdx = s.mixIdx := rfl
@[simp] theorem State.loadSpec_buf (s : State) (fs : FilterSpec) (env : Bool) : (s.loadSpec fs env).buf = s.buf := rfl
@[simp] theorem State.loadSpec_cp (s : State) (fs : FilterSpec) (env : Bool) : (s.loadSpec fs env).cp = s.cp := rfl
@[simp] theorem State.loadSpec_asm (s : State) (fs : FilterSpec) (env : Bool) : (s.loadSpec fs env).asm = s.asm := rfl
@[simp] theorem State.loadSpec_port (s : State) (fs : FilterSpec) (env : Bool) : (s.loadSpec fs env).port = s.port := rfl

@[simp] theorem State.evalBank_status (s : State) (l : FpLib) (d : Dir) (p : Nat) : (s.evalBank l d p).status = s.status := rfl
@[simp] theorem State.evalBank_result (s : State) (l : FpLib) (d : Dir) (p : Nat) : (s.evalBank l d p).result = s.result := rfl
@[simp] theorem State.evalBank_errinfo (s : State) (l : FpLib) (d : Dir) (p : Nat) : (s.evalBank l d p).errinfo = s.errinfo := rfl
@[simp] theorem State.evalBank_oscShape (s : State) (l : FpLib) (d : Dir) (p : Nat) : (s.evalBank l d p).oscShape = s.oscShape := rfl
@[simp] theorem State.evalBank_oscPhase (s : State) (l : FpLib) (d : Dir) (p : Nat) : (s.evalBank l d p).oscPhase = s.oscPhase := rfl
@[simp] theorem State.evalBank_spec (s : State) (l : FpLib) (d : Dir) (p : Nat) : (s.evalBank l d p).spec = s.spec := rfl
@[simp] theorem State.evalBank_unity16 (s : State) (l : FpLib) (d : Dir) (p : Nat) : (s.evalBank l d p).unity16 = (match d with | .onset => fixedUnity l s.spec p | .release => s.unity16) := rfl
@[simp] theorem State.evalBank_nco (s : State) (l : FpLib) (d : Dir) (p : Nat) : (s.evalBank l d p).nco = (s.nco.put d (BitVec.ofNat 4 (2 * (s.spec.pcnt.get d).toNat))) := rfl
@[simp] theorem State.evalBank_c16 (s : State) (l : FpLib) (d : Dir) (p : Nat) : (s.evalBank l d p).c16 = (s.c16.put d (overwriteFront (s.c16.get d) (fixedCoeffs l s.spec d p))) := rfl
@[simp] theorem State.evalBank_xh (s : State) (l : FpLib) (d : Dir) (p : Nat) : (s.evalBank l d p).xh = s.xh := rfl
@[simp] theorem State.evalBank_yh (s : State) (l : FpLib) (d : Dir) (p : Nat) : (s.evalBank l d p).yh = s.yh := rfl
@[simp] theorem State.evalBank_mixLen (s : State) (l : FpLib) (d : Dir) (p : Nat) : (s.evalBank l d p).mixLen = s.mixLen := rfl
@[simp] theorem State.evalBank_mixOfs (s : State) (l : FpLib) (d : Dir) (p : Nat) : (s.evalBank l d p).mixOfs = s.mixOfs := rfl
@[simp] theorem State.evalBank_mixCnt (s : State) (l : FpLib) (d : Dir) (p : Nat) : (s.evalBank l d p).mixCnt = s.mixCnt := rfl
@[simp] theorem State.evalBank_mixIdx (s : State) (l : FpLib) (d : Dir) (p : Nat) : (s.evalBank l d p).mixIdx = s.mixIdx := rfl
@[simp] theorem State.evalBank_buf (s : State) (l : FpLib) (d : Dir) (p : Nat) : (s.evalBank l d p).buf = s.buf := rfl
@[simp] theorem State.evalBank_cp (s : State) (l : FpLib) (d : Dir) (p : Nat) : (s.evalBank l d p).cp = s.cp := rfl
@[simp] theorem State.evalBank_asm (s : State) (l : FpLib) (d : Dir) (p : Nat) : (s.evalBank l d p).asm = s.asm := rfl
@[simp] theorem State.evalBank_port (s : State) (l : FpLib) (d : Dir) (p : Nat) : (s.evalBank l d p).port = s.port := rfl

@[simp] theorem State.shiftHistories_status (s : State) (x y : Word) : (s.shiftHistories x y).status = s.status := rfl
@[simp] theorem State.shiftHistories_result (s : State) (x y : Word) : (s.shiftHistories x y).result = s.result := rfl
@[simp] theorem State.shiftHistories_errinfo (s : State) (x y : Word) : (s.shiftHistories x y).errinfo = s.errinfo := rfl
@[simp] theorem State.shiftHistories_oscShape (s : State) (x y : Word) : (s.shiftHistories x y).oscShape = s.oscShape := rfl
@[simp] theorem State.shiftHistories_oscPhase (s : State) (x y : Word) : (s.shiftHistories x y).oscPhase = s.oscPhase := rfl
@[simp] theorem State.shiftHistories_spec (s : State) (x y : Word) : (s.shiftHistories x y).spec = s.spec := rfl
@[simp] theorem State.shiftHistories_unity16 (s : State) (x y : Word) : (s.shiftHistories x y).unity16 = s.unity16 := rfl
@[simp] theorem State.shiftHistories_nco (s : State) (x y : Word) : (s.shiftHistories x y).nco = s.nco := rfl
@[simp] theorem State.shiftHistories_c16 (s : State) (x y : Word) : (s.shiftHistories x y).c16 = s.c16 := rfl
@[simp] theorem State.shiftHistories_xh (s : State) (x y : Word) : (s.shiftHistories x y).xh = (shiftIn s.xh x) := rfl
@[simp] theorem State.shiftHistories_yh (s : State) (x y : Word) : (s.shiftHistories x y).yh = (shiftIn s.yh y) := rfl
@[simp] theorem State.shiftHistories_mixLen (s : State) (x y : Word) : (s.shiftHistories x y).mixLen = s.mixLen := rfl
@[simp] theorem State.shiftHistories_mixOfs (s : State) (x y : Word) : (s.shiftHistories x y).mixOfs = s.mixOfs := rfl
@[simp] theorem State.shiftHistories_mixCnt (s : State) (x y : Word) : (s.shiftHistories x y).mixCnt = s.mixCnt := rfl
@[simp] theorem State.shiftHistories_mixIdx (s : State) (x y : Word) : (s.shiftHistories x y).mixIdx = s.mixIdx := rfl
@[simp] theorem State.shiftHistories_buf (s : State) (x y : Word) : (s.shiftHistories x y).buf = s.buf := rfl
@[simp] theorem State.shiftHistories_cp (s : State) (x y : Word) : (s.shiftHistories x y).cp = s.cp := rfl
@[simp] theorem State.shiftHistories_asm (s : State) (x y : Word) : (s.shiftHistories x y).asm = s.asm := rfl
@[simp] theorem State.shiftHistories_port (s : State) (x y : Word) : (s.shiftHistories x y).port = s.port := rfl

@[simp] theorem State.initBuffer_status (s : State) (n : Nat) : (s.initBuffer n).status = s.status := rfl
@[simp] theorem State.initBuffer_result (s : State) (n : Nat) : (s.initBuffer n).result = s.result := rfl
@[simp] theorem State.initBuffer_errinfo (s : State) (n : Nat) : (s.initBuffer n).errinfo = s.errinfo := rfl
@[simp] theorem State.initBuffer_oscShape (s : State) (n : Nat) : (s.initBuffer n).oscShape = s.oscShape := rfl
@[simp] theorem State.initBuffer_oscPhase (s : State) (n : Nat) : (s.initBuffer n).oscPhase = s.oscPhase := rfl
@[simp] theorem State.initBuffer_spec (s : State) (n : Nat) : (s.initBuffer n).spec = s.spec := rfl
@[simp] theorem State.initBuffer_unity16 (s : State) (n : Nat) : (s.initBuffer n).unity16 = s.unity16 := rfl
@[simp] theorem State.initBuffer_nco (s : State) (n : Nat) : (s.initBuffer n).nco = s.nco := rfl
@[simp] theorem State.initBuffer_c16 (s : State) (n : Nat) : (s.initBuffer n).c16 = s.c16 := rfl
@[simp] theorem State.initBuffer_xh (s : State) (n : Nat) : (s.initBuffer n).xh = s.xh := rfl
@[simp] theorem State.initBuffer_yh (s : State) (n : Nat) : (s.initBuffer n).yh = s.yh := rfl
@[simp] theorem State.initBuffer_mixLen (s : State) (n : Nat) : (s.initBuffer n).mixLen = (BitVec.ofNat 32 n) := rfl
@[simp] theorem State.initBuffer_mixOfs (s : State) (n : Nat) : (s.initBuffer n).mixOfs = (0) := rfl
@[simp] theorem State.initBuffer_mixCnt (s : State) (n : Nat) : (s.initBuffer n).mixCnt = (0) := rfl
@[simp] theorem State.initBuffer_mixIdx (s : State) (n : Nat) : (s.initBuffer n).mixIdx = (0) := rfl
@[simp] theorem State.initBuffer_buf (s : State) (n : Nat) : (s.initBuffer n).buf = ([]) := rfl
@[simp] theorem State.initBuffer_cp (s : State) (n : Nat) : (s.initBuffer n).cp = s.cp := rfl
@[simp] theorem State.initBuffer_asm (s : State) (n : Nat) : (s.initBuffer n).asm = s.asm := rfl
@[simp] theorem State.initBuffer_port (s : State) (n : Nat) : (s.initBuffer n).port = s.port := rfl

@[simp] theorem State.consume_status (s : State) (n : Nat) (r : List PortEvent) : (s.consume n r).status = s.status := rfl
@[simp] theorem State.consume_result (s : State) (n : Nat) (r : List PortEvent) : (s.consume n r).result = s.result := rfl
@[simp] theorem State.consume_errinfo (s : State) (n : Nat) (r : List PortEvent) : (s.consume n r).errinfo = s.errinfo := rfl
@[simp] theorem State.consume_oscShape (s : State) (n : Nat) (r : List PortEvent) : (s.consume n r).oscShape = s.oscShape := rfl
@[simp] theorem State.consume_oscPhase (s : State) (n : Nat) (r : List PortEvent) : (s.consume n r).oscPhase = s.oscPhase := rfl
@[simp] theorem State.consume_spec (s : State) (n : Nat) (r : List PortEvent) : (s.consume n r).spec = s.spec := rfl
@[simp] theorem State.consume_unity16 (s : State) (n : Nat) (r : List PortEvent) : (s.consume n r).unity16 = s.unity16 := rfl
@[simp] theorem State.consume_nco (s : State) (n : Nat) (r : List PortEvent) : (s.consume n r).nco = s.nco := rfl
@[simp] theorem State.consume_c16 (s : State) (n : Nat) (r : List PortEvent) : (s.consume n r).c16 = s.c16 := rfl
@[simp] theorem State.consume_xh (s : State) (n : Nat) (r : List PortEvent) : (s.consume n r).xh = s.xh := rfl
@[simp] theorem State.consume_yh (s : State) (n : Nat) (r : List PortEvent) : (s.consume n r).yh = s.yh := rfl
@[simp] theorem State.consume_mixLen (s : State) (n : Nat) (r : List PortEvent) : (s.consume n r).mixLen = s.mixLen := rfl
@[simp] theorem State.consume_mixOfs (s : State) (n : Nat) (r : List PortEvent) : (s.consume n r).mixOfs = s.mixOfs := rfl
@[simp] theorem State.consume_mixCnt (s : State) (n : Nat) (r : List PortEvent) : (s.consume n r).mixCnt = s.mixCnt := rfl
@[simp] theorem State.consume_mixIdx (s : State) (n : Nat) (r : List PortEvent) : (s.consume n r).mixIdx = s.mixIdx := rfl
@[simp] theorem State.consume_buf (s : State) (n : Nat) (r : List PortEvent) : (s.consume n r).buf = s.buf := rfl
@[simp] theorem State.consume_cp (s : State) (n : Nat) (r : List PortEvent) : (s.consume n r).cp = (s.cp + BitVec.ofNat 32 n) := rfl
@[simp] theorem State.consume_asm (s : State) (n : Nat) (r : List PortEvent) : (s.consume n r).asm = ([]) := rfl
@[simp] theorem State.consume_port (s : State) (n : Nat) (r : List PortEvent) : (s.consume n r).port = (r) := rfl

@[simp] theorem State.await_status (s : State) (a : List Word) : (s.await a).status = s.status := rfl
@[simp] theorem State.await_result (s : State) (a : List Word) : (s.await a).result = s.result := rfl
@[simp] theorem State.await_errinfo (s : State) (a : List Word) : (s.await a).errinfo = s.errinfo := rfl
@[simp] theorem State.await_oscShape (s : State) (a : List Word) : (s.await a).oscShape = s.oscShape := rfl
@[simp] theorem State.await_oscPhase (s : State) (a : List Word) : (s.await a).oscPhase = s.oscPhase := rfl
@[simp] theorem State.await_spec (s : State) (a : List Word) : (s.await a).spec = s.spec := rfl
@[simp] theorem State.await_unity16 (s : State) (a : List Word) : (s.await a).unity16 = s.unity16 := rfl
@[simp] theorem State.await_nco (s : State) (a : List Word) : (s.await a).nco = s.nco := rfl
@[simp] theorem State.await_c16 (s : State) (a : List Word) : (s.await a).c16 = s.c16 := rfl
@[simp] theorem State.await_xh (s : State) (a : List Word) : (s.await a).xh = s.xh := rfl
@[simp] theorem State.await_yh (s : State) (a : List Word) : (s.await a).yh = s.yh := rfl
@[simp] theorem State.await_mixLen (s : State) (a : List Word) : (s.await a).mixLen = s.mixLen := rfl
@[simp] theorem State.await_mixOfs (s : State) (a : List Word) : (s.await a).mixOfs = s.mixOfs := rfl
@[simp] theorem State.await_mixCnt (s : State) (a : List Word) : (s.await a).mixCnt = s.mixCnt := rfl
@[simp] theorem State.await_mixIdx (s : State) (a : List Word) : (s.await a).mixIdx = s.mixIdx := rfl
@[simp] theorem State.await_buf (s : State) (a : List Word) : (s.await a).buf = s.buf := rfl
@[simp] theorem State.await_cp (s : State) (a : List Word) : (s.await a).cp = s.cp := rfl
@[simp] theorem State.await_asm (s : State) (a : List Word) : (s.await a).asm = (a) := rfl
@[simp] theorem State.await_port (s : State) (a : List Word) : (s.await a).port = ([]) := rfl

@[simp] theorem State.raiseIllegal_status (s : State) (ws : List Word) : (s.raiseIllegal ws).status = (s.status.afterError .illegal) := rfl
@[simp] theorem State.raiseIllegal_result (s : State) (ws : List Word) : (s.raiseIllegal ws).result = s.result := rfl
@[simp] theorem State.raiseIllegal_errinfo (s : State) (ws : List Word) : (s.raiseIllegal ws).errinfo = (if s.status.err then s.errinfo else ws.headD 0) := rfl
@[simp] theorem State.raiseIllegal_oscShape (s : State) (ws : List Word) : (s.raiseIllegal ws).oscShape = s.oscShape := rfl
@[simp] theorem State.raiseIllegal_oscPhase (s : State) (ws : List Word) : (s.raiseIllegal ws).oscPhase = s.oscPhase := rfl
@[simp] theorem State.raiseIllegal_spec (s : State) (ws : List Word) : (s.raiseIllegal ws).spec = s.spec := rfl
@[simp] theorem State.raiseIllegal_unity16 (s : State) (ws : List Word) : (s.raiseIllegal ws).unity16 = s.unity16 := rfl
@[simp] theorem State.raiseIllegal_nco (s : State) (ws : List Word) : (s.raiseIllegal ws).nco = s.nco := rfl
@[simp] theorem State.raiseIllegal_c16 (s : State) (ws : List Word) : (s.raiseIllegal ws).c16 = s.c16 := rfl
@[simp] theorem State.raiseIllegal_xh (s : State) (ws : List Word) : (s.raiseIllegal ws).xh = s.xh := rfl
@[simp] theorem State.raiseIllegal_yh (s : State) (ws : List Word) : (s.raiseIllegal ws).yh = s.yh := rfl
@[simp] theorem State.raiseIllegal_mixLen (s : State) (ws : List Word) : (s.raiseIllegal ws).mixLen = s.mixLen := rfl
@[simp] theorem State.raiseIllegal_mixOfs (s : State) (ws : List Word) : (s.raiseIllegal ws).mixOfs = s.mixOfs := rfl
@[simp] theorem State.raiseIllegal_mixCnt (s : State) (ws : List Word) : (s.raiseIllegal ws).mixCnt = s.mixCnt := rfl
@[simp] theorem State.raiseIllegal_mixIdx (s : State) (ws : List Word) : (s.raiseIllegal ws).mixIdx = s.mixIdx := rfl
@[simp] theorem State.raiseIllegal_buf (s : State) (ws : List Word) : (s.raiseIllegal ws).buf = s.buf := rfl
@[simp] theorem State.raiseIllegal_cp (s : State) (ws : List Word) : (s.raiseIllegal ws).cp = s.cp := rfl
@[simp] theorem State.raiseIllegal_asm (s : State) (ws : List Word) : (s.raiseIllegal ws).asm = s.asm := rfl
@[simp] theorem State.raiseIllegal_port (s : State) (ws : List Word) : (s.raiseIllegal ws).port = s.port := rfl

@[simp] theorem Status.afterError_err (s : Status) (e : ErrCode) : (s.afterError e).err = true := rfl
@[simp] theorem Status.afterError_lasterr (s : Status) (e : ErrCode) : (s.afterError e).lasterr = true := rfl
@[simp] theorem Status.afterError_envreq (s : Status) (e : ErrCode) : (s.afterError e).envreq = s.envreq := rfl
@[simp] theorem Status.afterError_ecode (s : Status) (e : ErrCode) : (s.afterError e).ecode = (if s.err then s.ecode else e.code) := rfl

@[simp] theorem Status.afterSuccess_err (s : Status) : (s.afterSuccess).err = s.err := rfl
@[simp] theorem Status.afterSuccess_lasterr (s : Status) : (s.afterSuccess).lasterr = false := rfl
@[simp] theorem Status.afterSuccess_envreq (s : Status) : (s.afterSuccess).envreq = s.envreq := rfl
@[simp] theorem Status.afterSuccess_ecode (s : Status) : (s.afterSuccess).ecode = s.ecode := rfl

@[simp] theorem Status.cleared_err (s : Status) : (s.cleared).err = false := rfl
@[simp] theorem Status.cleared_lasterr (s : Status) : (s.cleared).lasterr = s.lasterr := rfl
@[simp] theorem Status.cleared_envreq (s : Status) : (s.cleared).envreq = s.envreq := rfl
@[simp] theorem Status.cleared_ecode (s : Status) : (s.cleared).ecode = 0 := rfl

@[simp] theorem Status.withEnvreq_err (s : Status) (b : Bool) : (s.withEnvreq b).err = s.err := rfl
@[simp] theorem Status.withEnvreq_lasterr (s : Status) (b : Bool) : (s.withEnvreq b).lasterr = s.lasterr := rfl
@[simp] theorem Status.withEnvreq_envreq (s : Status) (b : Bool) : (s.withEnvreq b).envreq = b := rfl
@[simp] theorem Status.withEnvreq_ecode (s : Status) (b : Bool) : (s.withEnvreq b).ecode = s.ecode := rfl

end Sys2Proof.Machine
end

