-- ==== Sys2Proof/Laws/Memory.lean ====
section
/-! SUPPORT. The laws of the mixer buffer's memory: a read after a write at the same index and at another
one, the canonical form kept by every operation, and what the bounded reads and writes of R84 can do. -/

namespace Sys2Proof.Machine

@[simp] theorem Memory.read_nil (p : Nat) : Memory.read [] p = 0 := rfl

theorem Memory.read_below {lo : Nat} {m : List Host.Cell} (h : Memory.wfFrom lo m = true) {p : Nat}
    (hp : p < lo) : Memory.read m p = 0 := by
  induction m generalizing lo with
  | nil => rfl
  | cons c m ih =>
    obtain ⟨a, b⟩ := c
    simp only [Memory.wfFrom, Bool.and_eq_true, decide_eq_true_eq] at h
    have : a ≠ p := by omega
    simp only [Memory.read, this, if_false]
    exact ih h.2 (by omega)

theorem Memory.wfFrom_mono {lo lo' : Nat} (hlo : lo' ≤ lo) {m : List Host.Cell}
    (h : Memory.wfFrom lo m = true) : Memory.wfFrom lo' m = true := by
  cases m with
  | nil => rfl
  | cons c m =>
    simp only [Memory.wfFrom, Bool.and_eq_true, decide_eq_true_eq] at h ⊢
    exact ⟨⟨by omega, h.1.2⟩, h.2⟩

theorem Memory.cons_wfFrom {lo p : Nat} {v : Byte} {m : List Host.Cell} (hlo : lo ≤ p)
    (h : Memory.wfFrom (p + 1) m = true) : Memory.wfFrom lo (Memory.cons p v m) = true := by
  unfold Memory.cons
  split
  · exact Memory.wfFrom_mono (by omega) h
  · simp_all [Memory.wfFrom]

theorem Memory.read_cons_same {p : Nat} {v : Byte} {m : List Host.Cell}
    (h : Memory.wfFrom (p + 1) m = true) : Memory.read (Memory.cons p v m) p = v := by
  unfold Memory.cons
  split
  · next hv => rw [Memory.read_below h (by omega), hv]; rfl
  · simp [Memory.read]

theorem Memory.read_cons_other {p q : Nat} (hq : q ≠ p) (v : Byte) (m : List Host.Cell) :
    Memory.read (Memory.cons p v m) q = Memory.read m q := by
  unfold Memory.cons
  split
  · rfl
  · simp [Memory.read, hq.symm]

/-- A read at the index just written gives the byte written. -/
theorem Memory.read_write_same {lo : Nat} {m : List Host.Cell} (h : Memory.wfFrom lo m = true) (p : Nat)
    (v : Byte) : Memory.read (Memory.write m p v) p = v := by
  induction m generalizing lo with
  | nil => exact Memory.read_cons_same rfl
  | cons c m ih =>
    obtain ⟨a, b⟩ := c
    simp only [Memory.wfFrom, Bool.and_eq_true, decide_eq_true_eq] at h
    simp only [Memory.write]
    split
    · next ha => simp only [Memory.read, if_neg (Nat.ne_of_lt ha)]; exact ih h.2
    · split
      · next ha => exact Memory.read_cons_same (ha ▸ h.2)
      · exact Memory.read_cons_same (by simp [Memory.wfFrom, h.1.2, h.2]; omega)

/-- A read at any other index is as before the write. -/
theorem Memory.read_write_other {p q : Nat} (hq : q ≠ p) (m : List Host.Cell) (v : Byte) :
    Memory.read (Memory.write m p v) q = Memory.read m q := by
  induction m with
  | nil => exact Memory.read_cons_other hq v []
  | cons c m ih =>
    obtain ⟨a, b⟩ := c
    simp only [Memory.write]
    split
    · simp only [Memory.read, ih]
    · split
      · next ha => rw [Memory.read_cons_other hq]; simp [Memory.read, ha, hq.symm]
      · exact Memory.read_cons_other hq v _

theorem Memory.write_wfFrom {lo : Nat} {m : List Host.Cell} (h : Memory.wfFrom lo m = true) {p : Nat}
    (hp : lo ≤ p) (v : Byte) : Memory.wfFrom lo (Memory.write m p v) = true := by
  induction m generalizing lo with
  | nil => exact Memory.cons_wfFrom hp rfl
  | cons c m ih =>
    obtain ⟨a, b⟩ := c
    simp only [Memory.wfFrom, Bool.and_eq_true, decide_eq_true_eq] at h
    simp only [Memory.write]
    split
    · simp only [Memory.wfFrom, Bool.and_eq_true, decide_eq_true_eq]
      exact ⟨h.1, ih h.2 (by omega)⟩
    · split
      · next ha => exact Memory.cons_wfFrom hp (ha ▸ h.2)
      · exact Memory.cons_wfFrom hp (by simp [Memory.wfFrom, h.1.2, h.2]; omega)

/-- A write keeps the canonical form. -/
theorem Memory.write_wf {m : List Host.Cell} (h : Memory.wf m = true) (p : Nat) (v : Byte) :
    Memory.wf (Memory.write m p v) = true := Memory.write_wfFrom h (Nat.zero_le p) v

/-- A listed cell after a write was listed before it or stands at the index written. -/
theorem Memory.mem_write {m : List Host.Cell} {p : Nat} {v : Byte} {c : Host.Cell}
    (h : c ∈ Memory.write m p v) : c ∈ m ∨ c.1 = p := by
  induction m with
  | nil =>
    simp only [Memory.write, Memory.cons] at h
    split at h <;> simp_all
  | cons d m ih =>
    obtain ⟨a, b⟩ := d
    simp only [Memory.write, Memory.cons] at h
    split at h
    · rcases List.mem_cons.1 h with h | h
      · simp [h]
      · rcases ih h with h | h <;> simp [h]
    · split at h <;> split at h <;> simp_all <;> grind

/-- The memory after reset is in canonical form. -/
theorem State.reset_memory_wf : Memory.wf State.reset.buf = true := rfl

/-- `MemRead` answers inside the buffer and nowhere else (R84). -/
theorem State.bufRead_eq_some {s : State} {p : Nat} {v : Byte} :
    s.bufRead p = some v ↔ p < s.mixLen.toNat ∧ Memory.read s.buf p = v := by
  simp [State.bufRead]

/-- `MemWrite` answers inside the buffer and nowhere else, and writes BUF alone (R84). -/
theorem State.bufWrite_eq_some {s t : State} {p : Nat} {v : Byte} :
    s.bufWrite p v = some t ↔ p < s.mixLen.toNat ∧ { s with buf := Memory.write s.buf p v } = t := by
  simp [State.bufWrite]

end Sys2Proof.Machine
end

