-- ==== Sys2Proof/Laws/Ops.lean ====
section
/-! SUPPORT. What the shared operations answer, said once: register banks, the register space, the errors a
command raises, and the collection of a command's words. -/

namespace Sys2Proof.Machine

/-- A channel exists exactly when its number is below N_OSC (R170). -/
theorem channelExists_iff {i : Nat} : channelExists i = true ↔ i < Config.nOsc := by
  simp only [channelExists, Bool.or_eq_true, beq_iff_eq, decide_eq_true_eq]
  have : 0 < Config.nOsc := Nat.succ_pos _
  omega

@[simp] theorem PerDir.get_put_same {α : Type} (p : PerDir α) (d : Dir) (v : α) :
    (p.put d v).get d = v := by cases d <;> rfl

theorem PerDir.get_put_other {α : Type} (p : PerDir α) {d d' : Dir} (h : d' ≠ d) (v : α) :
    (p.put d v).get d' = p.get d' := by cases d <;> cases d' <;> simp_all [PerDir.get, PerDir.put]

@[simp] theorem pick16_put16_same {α : Type} (v : Vector α 16) (i : BitVec 4) (x : α) :
    pick16 (put16 v i x) i = x := by simp [pick16, put16]

theorem pick16_put16_other {α : Type} (v : Vector α 16) {i j : BitVec 4} (h : j ≠ i) (x : α) :
    pick16 (put16 v i x) j = pick16 v j := by
  have : i.toNat ≠ j.toNat := fun e => h (BitVec.eq_of_toNat_eq e.symm)
  simp [pick16, put16, Vector.getElem_set_ne, this]

/-- Entry `k` of a bank whose front is overwritten: the new value if there is one, else the old (R234). -/
theorem overwriteFront_getElem {α : Type} {n : Nat} (v : Vector α n) (xs : List α) (k : Nat) (h : k < n) :
    (overwriteFront v xs)[k] = (xs[k]?).getD v[k] := by simp [overwriteFront]

/-- The newest entry of a shifted history (R241). -/
theorem shiftIn_zero (h : Vector Word 8) (x : Word) : (shiftIn h x)[0] = x := by simp [shiftIn]

/-- Every other entry of a shifted history (R241). -/
theorem shiftIn_succ (h : Vector Word 8) (x : Word) (k : Nat) (hk : k + 1 < 8) :
    (shiftIn h x)[k + 1] = h[k] := by simp [shiftIn]

/-- A register-space write answers only at a mapped shape or phase, and writes that register (R153). -/
theorem State.writeReg_cases {s t : State} {a : Half} {v : Word} (h : s.writeReg a v = some t) :
    (∃ i, Reg.ofAddr a = some (.oscShape i) ∧
      t = { s with oscShape := put16 s.oscShape i (v.setWidth 8) }) ∨
    (∃ i, Reg.ofAddr a = some (.oscPhase i) ∧ t = { s with oscPhase := put16 s.oscPhase i v }) := by
  unfold State.writeReg at h
  split at h
  · next r hr =>
    cases r <;> simp only [State.putReg, Option.some.injEq, reduceCtorEq] at h
    · exact .inl ⟨_, hr, h.symm⟩
    · exact .inr ⟨_, hr, h.symm⟩
  · cases h

/-- The words in front of the port are ready when as many as asked for have arrived. -/
theorem portFront_ready (ws : List Word) (rest : List PortEvent) :
    portFront ws.length (ws.map PortEvent.word ++ rest) = .ready rest := by
  induction ws with
  | nil => simp [portFront]
  | cons w ws ih => simpa [portFront] using ih

/-- A port that runs out is short. -/
theorem portFront_short (ws : List Word) {n : Nat} (h : ws.length < n) :
    portFront n (ws.map PortEvent.word) = .short := by
  induction ws generalizing n with
  | nil => cases n <;> simp_all [portFront]
  | cons w ws ih =>
    cases n with
    | zero => simp at h
    | succ n => simpa [portFront] using ih (by simpa using h)

/-- A reset among the words asked for is taken first. -/
theorem portFront_reset (ws : List Word) (rest : List PortEvent) {n : Nat} (h : ws.length < n) :
    portFront n (ws.map PortEvent.word ++ .reset :: rest) = .reset rest := by
  induction ws generalizing n with
  | nil => cases n <;> simp_all [portFront]
  | cons w ws ih =>
    cases n with
    | zero => simp at h
    | succ n => simpa [portFront] using ih (by simpa using h)

theorem frontWords_all (ws : List Word) (rest : List PortEvent) :
    frontWords ws.length (ws.map PortEvent.word ++ rest) = ws := by
  induction ws with
  | nil => simp [frontWords]
  | cons w ws ih => simpa [frontWords] using ih

theorem frontWords_short (ws : List Word) {n : Nat} (h : ws.length ≤ n) :
    frontWords n (ws.map PortEvent.word) = ws := by
  induction ws generalizing n with
  | nil => cases n <;> simp [frontWords]
  | cons w ws ih =>
    cases n with
    | zero => simp at h
    | succ n => simpa [frontWords] using ih (by simpa using h)

theorem cmdLength_pos (h : Word) : 1 ≤ cmdLength h := by
  unfold cmdLength
  split <;> omega

/-- Words of the command now arriving joined by exactly the ones it lacks are that command. -/
theorem fetchMore_command (asm ws : List Word) (rest : List PortEvent) :
    fetchMore asm ws.length (ws.map PortEvent.word ++ rest) = .command (asm ++ ws) rest := by
  simp [fetchMore, portFront_ready, frontWords_all]

/-- The fetch of a command split anyhow between the assembly buffer and the port (R31, R114). -/
theorem fetch_command {asm ws : List Word} {h : Word} {ds : List Word} (rest : List PortEvent)
    (he : asm ++ ws = h :: ds) (hl : ds.length + 1 = cmdLength h) (hw : ws ≠ []) :
    fetch asm (ws.map PortEvent.word ++ rest) = .command (asm ++ ws) rest := by
  cases asm with
  | nil =>
    obtain ⟨rfl⟩ : ws = h :: ds := by simpa using he
    have : cmdLength h - 1 = ds.length := by omega
    simp only [fetch, List.map_cons, List.cons_append, this]
    exact fetchMore_command [h] ds rest
  | cons a as =>
    obtain ⟨rfl, rfl⟩ : a = h ∧ as ++ ws = ds := by simpa using he
    have : cmdLength a - (a :: as).length = ws.length := by
      simp only [List.length_append, List.length_cons] at hl ⊢
      omega
    simp only [fetch, this]
    exact fetchMore_command (a :: as) ws rest

end Sys2Proof.Machine
end

