-- ==== Sys2Proof/Laws/Decode.lean ====
section
/-! SUPPORT. What the decoder can answer, said once: an answered command comes from the row its opcode selects,
matches that row's mask, and has as many data words as its header announces. -/

namespace Sys2Proof.Laws

theorem hasLength_iff {α : Type} (n : Nat) (l : List α) : hasLength n l = true ↔ l.length = n := by
  induction n generalizing l with
  | zero => cases l <;> simp [hasLength]
  | succ n ih => cases l <;> simp [hasLength, ih]

/-- The row that an OPC value selects has that value (R115). -/
theorem Opc.code_of_ofByte {b : Byte} {o : Opc} (h : Opc.ofByte b = some o) : o.code = b := by
  unfold Opc.ofByte at h
  split at h <;> cases h <;> (apply BitVec.eq_of_toNat_eq; simp_all [Opc.code])

/-- What a decoded command's words are (R115, R117, R118). -/
theorem decode_ok {h : Word} {ds : List Word} {i : Instr} (hd : decode (h :: ds) = .ok i) :
    ∃ o, Opc.ofByte (opcField h) = some o ∧ h &&& o.mask = o.pattern ∧ o.build h ds = some i := by
  simp only [decode] at hd
  cases ho : Opc.ofByte (opcField h) with
  | none => rw [ho] at hd; cases hd
  | some o =>
    simp only [ho] at hd
    by_cases hm : h &&& o.mask = o.pattern
    · rw [if_pos hm] at hd
      cases hj : o.build h ds with
      | none => rw [hj] at hd; cases hd
      | some j => rw [hj] at hd; cases hd; exact ⟨o, rfl, hm, hj⟩
    · rw [if_neg hm] at hd; cases hd

/-- A row builds a command only from the data words that its header announces (R113, R114). -/
theorem Opc.build_length {o : Opc} {h : Word} {ds : List Word} {i : Instr} (hb : o.build h ds = some i) :
    ds.length = o.dataWords h := by
  cases o <;> simp only [Opc.build, noData, oneData, twoData] at hb <;> (try split at hb) <;>
    simp only [Option.some.injEq, reduceCtorEq] at hb <;> try (simp [Opc.dataWords]; done)
  next hl => exact (hasLength_iff _ _).1 hl

/-- A decoded command is as long as its header announces (R114). -/
theorem decode_length {ws : List Word} {i : Instr} (hd : decode ws = .ok i) :
    ∃ h ds, ws = h :: ds ∧ ds.length + 1 = cmdLength h := by
  cases ws with
  | nil => cases hd
  | cons h ds =>
    obtain ⟨o, ho, -, hb⟩ := decode_ok hd
    exact ⟨h, ds, rfl, by simp only [cmdLength, ho, Opc.build_length hb]⟩

end Sys2Proof.Laws
end

