-- ==== Sys2Proof/Laws/Exec.lean ====
section
/-! SUPPORT. What each command can answer, said once: if its meaning answers a next state, that state is one
of those listed. Later proofs cite these and unfold no meaning. -/

namespace Sys2Proof.Machine

theorem execNop_cases {s t : State} (h : exec .nop s = .next t) : t = s.complete := by
  cases h; rfl

theorem execClrerr_cases {s t : State} (h : exec .clrerr s = .next t) : t = s.clearErrors.complete := by
  cases h; rfl

theorem execRegRd_cases {a : Half} {s t : State} (h : exec (.regRd a) s = .next t) :
    (∃ r, Reg.ofAddr a = some r ∧ t = s.completeWith (s.regValue r)) ∨
    (Reg.ofAddr a = none ∧ t = s.raise .addr (a.setWidth 32)) := by
  simp only [exec, execRegRd, State.readReg, Host.Outcome.next.injEq] at h
  subst h
  cases hr : Reg.ofAddr a with
  | none => exact .inr ⟨rfl, rfl⟩
  | some r => exact .inl ⟨r, rfl, rfl⟩

theorem execRegWr_cases {a : Half} {v : Word} {s t : State} (h : exec (.regWr a v) s = .next t) :
    (∃ i, Reg.ofAddr a = some (.oscShape i) ∧
      t = { s with oscShape := put16 s.oscShape i (v.setWidth 8) }.complete) ∨
    (∃ i, Reg.ofAddr a = some (.oscPhase i) ∧
      t = { s with oscPhase := put16 s.oscPhase i v }.complete) ∨
    (s.writeReg a v = none ∧ t = s.raise .addr (a.setWidth 32)) := by
  simp only [exec, execRegWr, Host.Outcome.next.injEq] at h
  subst h
  cases hw : s.writeReg a v with
  | none => exact .inr (.inr ⟨rfl, rfl⟩)
  | some u =>
    rcases State.writeReg_cases hw with ⟨i, hi, rfl⟩ | ⟨i, hi, rfl⟩
    · exact .inl ⟨i, hi, rfl⟩
    · exact .inr (.inl ⟨i, hi, rfl⟩)

theorem execOscGen_cases {ch : BitVec 4} {a inc : Word} {s t : State}
    (h : exec (.oscGen ch a inc) s = .next t) :
    (ch.toNat < Config.nOsc ∧ t = s.oscStep ch a inc) ∨
    (Config.nOsc ≤ ch.toNat ∧ t = s.raise .range (ch.setWidth 32)) := by
  simp only [exec, execOscGen, Host.Outcome.next.injEq] at h
  subst h
  by_cases hc : ch.toNat < Config.nOsc
  · exact .inl ⟨hc, if_pos (channelExists_iff.2 hc)⟩
  · exact .inr ⟨not_lt.1 hc, if_neg (fun h => hc (channelExists_iff.1 h))⟩

theorem execFltLoad_cases {bs : List Byte} {s t : State} (h : exec (.fltLoad bs) s = .next t) :
    (∃ fs env len, parseRecord bs = .ok (fs, env, len) ∧
      t = (s.loadSpec fs env).completeWith (BitVec.ofNat 32 len)) ∨
    (∃ e v, parseRecord bs = .error (e, v) ∧ t = s.raise e v) := by
  simp only [exec, execFltLoad] at h
  split at h
  · next fs env len hp => cases h; exact .inl ⟨fs, env, len, hp, rfl⟩
  · next e v hp => cases h; exact .inr ⟨e, v, hp, rfl⟩

/-- FLT_EVAL with supplied functions answers a next state only where they obey R222 (R310). -/
theorem fltEvalWith_cases {l : FpLib} {d : Dir} {p : Word} {s t : State} (h : fltEvalWith l d p s = .next t) :
    (65536 < p.toNat ∧ t = s.raise .range p) ∨
    (p.toNat ≤ 65536 ∧ (s.spec.pcnt.get d).toNat ≤ 4 ∧
      evalLawful l s.spec d (position l.fmt p.toNat) = true ∧
      t = (s.evalBank l d p.toNat).completeWith (BitVec.ofNat 32 (2 * (s.spec.pcnt.get d).toNat))) := by
  simp only [fltEvalWith] at h
  split at h
  · next hp => cases h; exact .inl ⟨hp, rfl⟩
  · next hp =>
    split at h
    · cases h
    · next hc =>
      split at h
      · next hl => cases h; exact .inr ⟨not_lt.1 hp, not_lt.1 hc, hl, rfl⟩
      · cases h

theorem execFltEval_cases {d : Dir} {p : Word} {s t : State} (h : exec (.fltEval d p) s = .next t) :
    (65536 < p.toNat ∧ t = s.raise .range p) ∨
    (p.toNat ≤ 65536 ∧ (s.spec.pcnt.get d).toNat ≤ 4 ∧
      t = (s.evalBank blockLib d p.toNat).completeWith
        (BitVec.ofNat 32 (2 * (s.spec.pcnt.get d).toNat))) := by
  rcases fltEvalWith_cases h with h | ⟨hp, hc, -, ht⟩
  · exact .inl h
  · exact .inr ⟨hp, hc, ht⟩

theorem execFltStep_cases {x : Word} {s t : State} (h : exec (.fltStep x) s = .next t) :
    s.nco.onset.toNat ≤ 8 ∧ s.nco.release.toNat ≤ 8 ∧
      t = (s.shiftHistories x (filterOutput s x)).completeWith (filterOutput s x) := by
  simp only [exec, execFltStep] at h
  split at h
  · cases h
  · next hc => cases h; exact ⟨by omega, by omega, rfl⟩

theorem execFltClr_cases {s t : State} (h : exec .fltClr s = .next t) :
    t = { s with xh := Vector.replicate 8 0, yh := Vector.replicate 8 0 }.complete := by
  cases h; rfl

theorem execMixInit_cases {ms : Word} {s t : State} (h : exec (.mixInit ms) s = .next t) :
    (Config.bufMax < samples ms.toNat ∧ t = s.raise .range ms) ∨
    (samples ms.toNat ≤ Config.bufMax ∧
      t = (s.initBuffer (samples ms.toNat)).completeWith (BitVec.ofNat 32 (samples ms.toNat))) := by
  simp only [exec, execMixInit] at h
  split at h
  · next hp => cases h; exact .inl ⟨hp, rfl⟩
  · next hp => cases h; exact .inr ⟨not_lt.1 hp, rfl⟩

theorem execMixTone_cases {st n : Word} {s t : State} (h : exec (.mixTone st n) s = .next t) :
    (s.mixLen.toNat < samples st.toNat + samples n.toNat ∧
      t = s.raise .range (BitVec.ofNat 32 (min (samples st.toNat + samples n.toNat) 0xFFFFFFFF))) ∨
    (samples st.toNat + samples n.toNat ≤ s.mixLen.toNat ∧
      t = { s with
        mixOfs := BitVec.ofNat 32 (samples st.toNat)
        mixCnt := BitVec.ofNat 32 (samples n.toNat)
        mixIdx := 0 }.completeWith (BitVec.ofNat 32 (samples n.toNat))) := by
  simp only [exec, execMixTone] at h
  split at h
  · next hp => cases h; exact .inl ⟨hp, rfl⟩
  · next hp => cases h; exact .inr ⟨not_lt.1 hp, rfl⟩

theorem execMixAdd_cases {x : Word} {s t : State} (h : exec (.mixAdd x) s = .next t) :
    (s.mixCnt.toNat ≤ s.mixIdx.toNat ∧ t = s.raise .range s.mixIdx) ∨
    (s.mixIdx.toNat < s.mixCnt.toNat ∧ s.mixOfs.toNat + s.mixIdx.toNat < s.mixLen.toNat ∧
      t = { s with
        buf := Memory.write s.buf (s.mixOfs.toNat + s.mixIdx.toNat)
          (low8 (s32 (mixSample (s.sample (s.mixOfs.toNat + s.mixIdx.toNat)) x)))
        mixIdx := s.mixIdx + 1 }.completeWith
          (mixSample (s.sample (s.mixOfs.toNat + s.mixIdx.toNat)) x)) := by
  simp only [exec, execMixAdd] at h
  split at h
  · next hp => cases h; exact .inl ⟨hp, rfl⟩
  · next hp =>
    split at h
    · cases h
    · next old ho =>
      split at h
      · cases h
      · next u hu =>
        cases h
        obtain ⟨h1, rfl⟩ := State.bufRead_eq_some.1 ho
        obtain ⟨-, rfl⟩ := State.bufWrite_eq_some.1 hu
        exact .inr ⟨not_le.1 hp, h1, rfl⟩

theorem execMixRd_cases {p : Word} {s t : State} (h : exec (.mixRd p) s = .next t) :
    (s.mixLen.toNat ≤ p.toNat ∧ t = s.raise .range p) ∨
    (p.toNat < s.mixLen.toNat ∧ t = s.completeWith (wrap32 (s8 (s.sample p.toNat)))) := by
  simp only [exec, execMixRd] at h
  split at h
  · next hp => cases h; exact .inl ⟨hp, rfl⟩
  · next hp =>
    split at h
    · cases h
    · next v hv =>
      cases h
      obtain ⟨h1, rfl⟩ := State.bufRead_eq_some.1 hv
      exact .inr ⟨h1, rfl⟩

theorem execMixRdpcm_cases {p : Word} {s t : State} (h : exec (.mixRdpcm p) s = .next t) :
    (s.mixLen.toNat ≤ p.toNat ∧ t = s.raise .range p) ∨
    (p.toNat < s.mixLen.toNat ∧
      t = s.completeWith ((low8 (s8 (s.sample p.toNat) - 127)).setWidth 32)) := by
  simp only [exec, execMixRdpcm] at h
  split at h
  · next hp => cases h; exact .inl ⟨hp, rfl⟩
  · next hp =>
    split at h
    · cases h
    · next v hv =>
      cases h
      obtain ⟨h1, rfl⟩ := State.bufRead_eq_some.1 hv
      exact .inr ⟨h1, rfl⟩

/-- What one step can do (R31, R298, R320). -/
theorem step_cases {s t : State} (h : step s = .next t) :
    (∃ asm, fetch s.asm s.port = .waiting asm ∧ t = s.await asm) ∨
    (∃ rest, fetch s.asm s.port = .reset rest ∧ t = State.takeReset rest) ∨
    (∃ ws rest i, fetch s.asm s.port = .command ws rest ∧ decode ws = .ok i ∧
      exec i (s.consume ws.length rest) = .next t) ∨
    (∃ ws rest e, fetch s.asm s.port = .command ws rest ∧ decode ws = .error e ∧
      t = (s.consume ws.length rest).raiseIllegal ws) := by
  unfold step at h
  split at h
  · next asm hf => cases h; exact .inl ⟨asm, hf, rfl⟩
  · next rest hf => cases h; exact .inr (.inl ⟨rest, hf, rfl⟩)
  · next ws rest hf =>
    unfold runCommand at h
    split at h
    · next i hd => exact .inr (.inr (.inl ⟨ws, rest, i, hf, hd, h⟩))
    · next e hd => cases h; exact .inr (.inr (.inr ⟨ws, rest, e, hf, hd, rfl⟩))

end Sys2Proof.Machine
end

