-- ==== Sys2Proof/Laws/Float.lean ====
section
/-! SUPPORT. Rounding to a format, over the rational numbers: it depends on the exact value alone, it keeps
the order against every value of the format, and so it leaves a value of the format as it is. -/

namespace Sys2Proof.Machine

theorem roundHalfEven_le {num den n : Nat} (hd : 0 < den) (h : num ≤ n * den) :
    roundHalfEven num den ≤ n := by
  have hq : num / den ≤ n := by
    rw [Nat.div_le_iff_le_mul_add_pred hd]
    have : den * n = n * den := Nat.mul_comm _ _
    omega
  simp only [roundHalfEven]
  rcases Nat.lt_or_eq_of_le hq with hlt | heq
  · split
    · omega
    · split <;> omega
  · have hr : num % den = 0 := by
      have h1 := Nat.div_add_mod num den
      have h2 : den * (num / den) = n * den := by rw [heq, Nat.mul_comm]
      omega
    rw [hr, if_pos (by omega)]
    exact hq

theorem le_roundHalfEven {num den n : Nat} (hd : 0 < den) (h : n * den ≤ num) :
    n ≤ roundHalfEven num den := by
  have hq : n ≤ num / den := (Nat.le_div_iff_mul_le hd).2 h
  simp only [roundHalfEven]
  split
  · exact hq
  · split <;> omega

theorem roundHalfEven_scale (num den : Nat) {c : Nat} (hc : 0 < c) :
    roundHalfEven (num * c) (den * c) = roundHalfEven num den := by
  simp only [roundHalfEven, Nat.mul_div_mul_right _ _ hc, Nat.mul_mod_mul_right, ← Nat.mul_assoc,
    Nat.mul_lt_mul_right hc]

/-- Rounding to an integer depends on the quotient alone. -/
theorem roundHalfEven_congr {a b c d : Nat} (hb : 0 < b) (hd : 0 < d) (h : a * d = c * b) :
    roundHalfEven a b = roundHalfEven c d := by
  rw [← roundHalfEven_scale a b hd, h, ← roundHalfEven_scale c d hb, Nat.mul_comm b d]

/-- A power of two at an integer exponent, as the quotient of two natural powers. -/
theorem two_zpow_eq (e : Int) :
    (2 : ℚ) ^ e = ((2 ^ e.toNat : Nat) : ℚ) / ((2 ^ (-e).toNat : Nat) : ℚ) := by
  rcases Int.le_total 0 e with h | h
  · obtain ⟨n, rfl⟩ := Int.eq_ofNat_of_zero_le h
    simp
  · obtain ⟨n, hn⟩ := Int.eq_ofNat_of_zero_le (Int.neg_nonneg.2 h)
    obtain rfl : e = -(n : Int) := by omega
    simp

theorem floorLog2_bounds {num den : Nat} (hn : 0 < num) (hd : 0 < den) :
    (2 : ℚ) ^ floorLog2 num den ≤ (num : ℚ) / den ∧ (num : ℚ) / den < (2 : ℚ) ^ (floorLog2 num den + 1) := by
  have hdq : (0 : ℚ) < den := by exact_mod_cast hd
  have n1 : (2 : ℚ) ^ (num.log2 : Int) ≤ num := by
    rw [zpow_natCast]; exact_mod_cast Nat.log2_self_le hn.ne'
  have n2 : (num : ℚ) < (2 : ℚ) ^ ((num.log2 : Int) + 1) := by
    have : num < 2 ^ (num.log2 + 1) := Nat.lt_log2_self
    rw [show ((num.log2 : Int) + 1) = ((num.log2 + 1 : Nat) : Int) by simp, zpow_natCast]
    exact_mod_cast this
  have d1 : (2 : ℚ) ^ (den.log2 : Int) ≤ den := by
    rw [zpow_natCast]; exact_mod_cast Nat.log2_self_le hd.ne'
  have d2 : (den : ℚ) < (2 : ℚ) ^ ((den.log2 : Int) + 1) := by
    have : den < 2 ^ (den.log2 + 1) := Nat.lt_log2_self
    rw [show ((den.log2 : Int) + 1) = ((den.log2 + 1 : Nat) : Int) by simp, zpow_natCast]
    exact_mod_cast this
  have key : ∀ l : Int, (den * 2 ^ l.toNat ≤ num * 2 ^ (-l).toNat) ↔ (2 : ℚ) ^ l ≤ (num : ℚ) / den := by
    intro l
    rw [two_zpow_eq, div_le_div_iff₀ (by positivity) hdq]
    constructor
    · intro h; rw [mul_comm]; exact_mod_cast h
    · intro h; rw [mul_comm] at h; exact_mod_cast h
  simp only [floorLog2, key]
  split
  · next h =>
    refine ⟨h, ?_⟩
    rw [div_lt_iff₀ hdq]
    calc (num : ℚ) < (2 : ℚ) ^ ((num.log2 : Int) + 1) := n2
      _ = (2 : ℚ) ^ ((num.log2 : Int) - den.log2 + 1) * (2 : ℚ) ^ (den.log2 : Int) := by
          rw [← zpow_add₀ (by norm_num)]; congr 1; ring
      _ ≤ _ := by gcongr
  · next h =>
    refine ⟨?_, by rw [sub_add_cancel]; exact not_le.1 h⟩
    rw [le_div_iff₀ hdq]
    calc (2 : ℚ) ^ ((num.log2 : Int) - den.log2 - 1) * den
        ≤ (2 : ℚ) ^ ((num.log2 : Int) - den.log2 - 1) * (2 : ℚ) ^ ((den.log2 : Int) + 1) := by
          gcongr
      _ = (2 : ℚ) ^ (num.log2 : Int) := by rw [← zpow_add₀ (by norm_num)]; congr 1; ring
      _ ≤ num := n1

/-- The binary logarithm depends on the quotient alone. -/
theorem floorLog2_congr {a b c d : Nat} (ha : 0 < a) (hb : 0 < b) (hc : 0 < c) (hd : 0 < d)
    (h : a * d = c * b) : floorLog2 a b = floorLog2 c d := by
  have hv : (a : ℚ) / b = (c : ℚ) / d := by
    rw [div_eq_div_iff (by positivity) (by positivity)]; exact_mod_cast h
  have h1 := floorLog2_bounds ha hb
  have h2 := floorLog2_bounds hc hd
  rw [hv] at h1
  have l1 := (zpow_lt_zpow_iff_right₀ (by norm_num : (1 : ℚ) < 2)).1 (h1.1.trans_lt h2.2)
  have l2 := (zpow_lt_zpow_iff_right₀ (by norm_num : (1 : ℚ) < 2)).1 (h2.1.trans_lt h1.2)
  omega

/-- A magnitude that the format can hold, its largest exponent aside. -/
def representable (f : FpFmt) (x : ℚ) : Prop :=
  ∃ (m : Nat) (k : Int), m ≤ 2 ^ precision f ∧ minQuantum f ≤ k ∧ x = m * (2 : ℚ) ^ k

theorem fpMag_nonneg (x : Fp) : 0 ≤ fpMag x := by unfold fpMag; positivity

/-- The scaled quotient that is rounded to an integer. -/
theorem scaled_quotient (num den : Nat) (q : Int) :
    ((num * 2 ^ (-q).toNat : Nat) : ℚ) / ((den * 2 ^ q.toNat : Nat) : ℚ) = (num : ℚ) / den / (2 : ℚ) ^ q := by
  rw [two_zpow_eq]
  push_cast
  field_simp

theorem fpMag_roundTo (f : FpFmt) (neg : Bool) {num : Nat} (den : Nat) (hn : 0 < num) :
    fpMag (roundTo f neg num den) =
      (roundHalfEven (num * 2 ^ (-(quantum f num den)).toNat) (den * 2 ^ (quantum f num den).toNat) : ℚ)
        * (2 : ℚ) ^ quantum f num den := by
  simp only [roundTo, if_neg hn.ne']
  split
  · next h =>
    rw [h]
    have hp : 2 ^ precision f = 2 ^ (precision f - 1) * 2 := by cases f <;> simp [precision]
    simp only [fpMag, hp]
    rw [zpow_add_one₀ (by norm_num)]
    push_cast
    ring
  · rfl

/-- A quotient at least as large as the quantum's binade where the quantum is not the least one. -/
theorem quantum_cases (f : FpFmt) {num den : Nat} (hn : 0 < num) (hd : 0 < den) :
    quantum f num den = minQuantum f ∨
      (minQuantum f < quantum f num den ∧
        (2 : ℚ) ^ (quantum f num den + (precision f - 1 : Nat)) ≤ (num : ℚ) / den) := by
  rcases le_or_gt (floorLog2 num den - (precision f - 1 : Nat)) (minQuantum f) with h | h
  · exact .inl (max_eq_right h)
  · right
    rw [quantum, max_eq_left h.le, sub_add_cancel]
    exact ⟨h, (floorLog2_bounds hn hd).1⟩

theorem pow_precision (f : FpFmt) (k : Int) :
    ((2 ^ precision f : Nat) : ℚ) * (2 : ℚ) ^ k = (2 : ℚ) ^ (k + 1 + (precision f - 1 : Nat)) := by
  have : (precision f - 1 : Nat) + 1 = precision f := by cases f <;> simp [precision]
  push_cast
  rw [← zpow_natCast, ← zpow_add₀ (by norm_num)]
  congr 1
  omega

/-- Rounding down to a value of the format: a quotient at most `B` rounds to at most `B`. -/
theorem roundTo_le {f : FpFmt} {neg : Bool} {num den : Nat} (hd : 0 < den) {B : ℚ}
    (hB : representable f B) (h : (num : ℚ) / den ≤ B) : fpMag (roundTo f neg num den) ≤ B := by
  rcases Nat.eq_zero_or_pos num with rfl | hn
  · obtain ⟨m, k, -, -, rfl⟩ := hB
    simp only [roundTo, if_true, fpMag, Nat.cast_zero, zero_mul]
    positivity
  obtain ⟨m, k, hm, hk, rfl⟩ := hB
  rw [fpMag_roundTo f neg den hn]
  generalize hq : quantum f num den = q
  have hdd : 0 < den * 2 ^ q.toNat := by positivity
  have main : ∀ n : Nat, (m : ℚ) * (2 : ℚ) ^ k = n * (2 : ℚ) ^ q →
      (roundHalfEven (num * 2 ^ (-q).toNat) (den * 2 ^ q.toNat) : ℚ) * (2 : ℚ) ^ q
        ≤ m * (2 : ℚ) ^ k := by
    intro n hn'
    rw [hn'] at h ⊢
    gcongr
    have h3 := scaled_quotient num den q
    have h2 : ((num * 2 ^ (-q).toNat : Nat) : ℚ) / ((den * 2 ^ q.toNat : Nat) : ℚ) ≤ n := by
      rw [h3, div_le_iff₀ (by positivity)]; exact h
    rw [div_le_iff₀ (by exact_mod_cast hdd)] at h2
    exact_mod_cast roundHalfEven_le hdd (by exact_mod_cast h2)
  rcases le_or_gt q k with hle | hlt
  · obtain ⟨j, hj⟩ := Int.eq_ofNat_of_zero_le (Int.sub_nonneg.2 hle)
    refine main (m * 2 ^ j) ?_
    rw [show k = j + q by omega, zpow_add₀ (by norm_num)]
    push_cast
    rw [zpow_natCast]
    ring
  · rcases quantum_cases f hn hd with h1 | ⟨-, h1⟩
    · omega
    · rw [hq] at h1
      have h4 : (m : ℚ) * (2 : ℚ) ^ k ≤ (2 : ℚ) ^ (k + 1 + (precision f - 1 : Nat)) := by
        rw [← pow_precision]; gcongr
      have h5 : (2 : ℚ) ^ (k + 1 + ((precision f - 1 : Nat) : Int))
          ≤ (2 : ℚ) ^ (q + ((precision f - 1 : Nat) : Int)) :=
        zpow_le_zpow_right₀ (by norm_num) (by omega)
      have h6 : (m : ℚ) * (2 : ℚ) ^ k = (2 : ℚ) ^ (q + (precision f - 1 : Nat)) :=
        le_antisymm (h4.trans h5) (h1.trans h)
      refine main (2 ^ (precision f - 1)) ?_
      rw [h6, zpow_add₀ (by norm_num)]
      push_cast
      rw [zpow_natCast]
      ring

/-- Rounding up to a value of the format: a quotient at least `B` rounds to at least `B`. -/
theorem le_roundTo {f : FpFmt} {neg : Bool} {num den : Nat} (hd : 0 < den) {B : ℚ}
    (hB : representable f B) (h : B ≤ (num : ℚ) / den) : B ≤ fpMag (roundTo f neg num den) := by
  rcases Nat.eq_zero_or_pos num with rfl | hn
  · exact (by simpa using h : B ≤ 0).trans (fpMag_nonneg _)
  obtain ⟨m, k, hm, hk, rfl⟩ := hB
  rw [fpMag_roundTo f neg den hn]
  generalize hq : quantum f num den = q
  have hdd : 0 < den * 2 ^ q.toNat := by positivity
  have main : ∀ n : Nat, n * (2 : ℚ) ^ q ≤ (num : ℚ) / den →
      n * (2 : ℚ) ^ q ≤
        (roundHalfEven (num * 2 ^ (-q).toNat) (den * 2 ^ q.toNat) : ℚ) * (2 : ℚ) ^ q := by
    intro n hn'
    gcongr
    have h3 := scaled_quotient num den q
    have h2 : (n : ℚ) ≤ ((num * 2 ^ (-q).toNat : Nat) : ℚ) / ((den * 2 ^ q.toNat : Nat) : ℚ) := by
      rw [h3, le_div_iff₀ (by positivity)]; exact hn'
    rw [le_div_iff₀ (by exact_mod_cast hdd)] at h2
    exact_mod_cast le_roundHalfEven hdd (by exact_mod_cast h2)
  rcases le_or_gt q k with hle | hlt
  · obtain ⟨j, hj⟩ := Int.eq_ofNat_of_zero_le (Int.sub_nonneg.2 hle)
    have he : (m : ℚ) * (2 : ℚ) ^ k = ((m * 2 ^ j : Nat) : ℚ) * (2 : ℚ) ^ q := by
      rw [show k = j + q by omega, zpow_add₀ (by norm_num)]
      push_cast
      rw [zpow_natCast]
      ring
    rw [he] at h ⊢
    exact main _ h
  · rcases quantum_cases f hn hd with h1 | ⟨-, h1⟩
    · omega
    · rw [hq] at h1
      have h4 : (m : ℚ) * (2 : ℚ) ^ k ≤ (2 : ℚ) ^ (k + 1 + (precision f - 1 : Nat)) := by
        rw [← pow_precision]; gcongr
      have h5 : (2 : ℚ) ^ (k + 1 + ((precision f - 1 : Nat) : Int))
          ≤ (2 : ℚ) ^ (q + ((precision f - 1 : Nat) : Int)) :=
        zpow_le_zpow_right₀ (by norm_num) (by omega)
      refine (h4.trans h5).trans ?_
      have h7 : (2 : ℚ) ^ (q + ((precision f - 1 : Nat) : Int))
          = ((2 ^ (precision f - 1) : Nat) : ℚ) * (2 : ℚ) ^ q := by
        rw [zpow_add₀ (by norm_num)]
        push_cast
        rw [zpow_natCast]
        ring
      rw [h7] at h1 ⊢
      exact main _ h1

/-- A value of the format is rounded to itself. -/
theorem roundTo_exact {f : FpFmt} {neg : Bool} {num den : Nat} (hd : 0 < den)
    (h : representable f ((num : ℚ) / den)) : fpMag (roundTo f neg num den) = (num : ℚ) / den :=
  le_antisymm (roundTo_le hd h le_rfl) (le_roundTo hd h le_rfl)

/-- Rounding depends on the exact value alone. -/
theorem roundTo_congr (f : FpFmt) (neg : Bool) {a b c d : Nat} (hb : 0 < b) (hd : 0 < d)
    (h : a * d = c * b) : roundTo f neg a b = roundTo f neg c d := by
  rcases Nat.eq_zero_or_pos a with rfl | ha
  · have : c = 0 := by
      rcases Nat.eq_zero_or_pos c with h0 | h0
      · exact h0
      · have := Nat.mul_pos h0 hb; omega
    subst this
    simp [roundTo]
  · have hc : 0 < c := by
      rcases Nat.eq_zero_or_pos c with rfl | h0
      · have := Nat.mul_pos ha hd; omega
      · exact h0
    have hq : quantum f a b = quantum f c d := by
      simp only [quantum, floorLog2_congr ha hb hc hd h]
    have hr : roundHalfEven (a * 2 ^ (-quantum f c d).toNat) (b * 2 ^ (quantum f c d).toNat)
        = roundHalfEven (c * 2 ^ (-quantum f c d).toNat) (d * 2 ^ (quantum f c d).toNat) := by
      apply roundHalfEven_congr (by positivity) (by positivity)
      calc a * 2 ^ (-quantum f c d).toNat * (d * 2 ^ (quantum f c d).toNat)
          = a * d * (2 ^ (-quantum f c d).toNat * 2 ^ (quantum f c d).toNat) := by ring
        _ = c * 2 ^ (-quantum f c d).toNat * (b * 2 ^ (quantum f c d).toNat) := by rw [h]; ring
    simp only [roundTo, hq, hr, ha.ne', hc.ne', if_false]

end Sys2Proof.Machine
end

