-- ==== Sys2Proof/Laws/FloatOps.lean ====
section
/-! SUPPORT. What each floating operation can answer, said once: its result is the exact value rounded, with
the exact value's sign. The bounds and the exact cases of the coefficient generator follow from this. -/

namespace Sys2Proof.Machine

/-- A value is an exact rational number rounded: every bound that the format can hold passes over to it,
from above and from below, and so does the sign. -/
structure Rounds (f : FpFmt) (exact : ℚ) (x : Fp) : Prop where
  le : ∀ b, representable f b → |exact| ≤ b → fpMag x ≤ b
  ge : ∀ b, representable f b → b ≤ |exact| → b ≤ fpMag x
  nonneg : 0 ≤ exact → 0 ≤ fpVal x
  nonpos : exact ≤ 0 → fpVal x ≤ 0

theorem abs_fpVal (x : Fp) : |fpVal x| = fpMag x := by
  unfold fpVal
  split
  · rw [abs_neg, abs_of_nonneg (fpMag_nonneg x)]
  · rw [abs_of_nonneg (fpMag_nonneg x)]

/-- A value of the format is left as it is. -/
theorem Rounds.exact_of_representable {f : FpFmt} {v : ℚ} {x : Fp} (h : Rounds f v x)
    (hv : representable f |v|) : fpVal x = v := by
  have hm : |fpVal x| = |v| := by
    rw [abs_fpVal]
    exact le_antisymm (h.le _ hv le_rfl) (h.ge _ hv le_rfl)
  rcases le_total 0 v with h0 | h0
  · rwa [abs_of_nonneg (h.nonneg h0), abs_of_nonneg h0] at hm
  · rw [abs_of_nonpos (h.nonpos h0), abs_of_nonpos h0] at hm
    linarith

@[simp] theorem roundTo_neg (f : FpFmt) (neg : Bool) (num den : Nat) :
    (roundTo f neg num den).neg = neg := by
  simp only [roundTo]
  split
  · rfl
  · split <;> rfl

/-- A rounded quotient with a sign that agrees with the exact value rounds that value. -/
theorem roundTo_rounds {f : FpFmt} {neg : Bool} {num den : Nat} (hd : 0 < den) {v : ℚ}
    (hv : |v| = (num : ℚ) / den) (hpos : 0 < v → neg = false) (hneg : v < 0 → neg = true) :
    Rounds f v (roundTo f neg num den) := by
  have hzero : v = 0 → fpVal (roundTo f neg num den) = 0 := by
    rintro rfl
    have : num = 0 := by
      rw [abs_zero] at hv
      rcases (div_eq_zero_iff.1 hv.symm) with h | h
      · exact_mod_cast h
      · exact absurd (by exact_mod_cast h) hd.ne'
    subst this
    simp [roundTo, fpVal, fpMag]
  refine ⟨fun b hb h => roundTo_le hd hb (hv ▸ h), fun b hb h => le_roundTo hd hb (hv ▸ h),
    fun h => ?_, fun h => ?_⟩
  · rcases h.lt_or_eq with h | h
    · simp [fpVal, hpos h, fpMag_nonneg]
    · exact (hzero h.symm).ge
  · rcases h.lt_or_eq with h | h
    · simp [fpVal, hneg h, fpMag_nonneg]
    · exact (hzero h).le

theorem dyadic_quotient (m : Nat) (e : Int) :
    ((m * 2 ^ e.toNat : Nat) : ℚ) / ((2 ^ (-e).toNat : Nat) : ℚ) = m * (2 : ℚ) ^ e := by
  rw [two_zpow_eq]
  push_cast
  ring

theorem flInt_rounds (f : FpFmt) (v : Int) : Rounds f v (flInt f v) := by
  refine roundTo_rounds Nat.one_pos ?_ ?_ ?_
  · simp [Nat.cast_natAbs]
  · intro h
    have : (0 : Int) < v := by exact_mod_cast h
    simp; omega
  · intro h
    have : v < 0 := by exact_mod_cast h
    simp [this]

theorem fpVal_signedAt (x : Fp) {e : Int} (h : e ≤ x.exp) :
    fpVal x = (signedAt x e : ℚ) * (2 : ℚ) ^ e := by
  obtain ⟨j, hj⟩ := Int.eq_ofNat_of_zero_le (Int.sub_nonneg.2 h)
  have he : x.exp = j + e := by omega
  have hm : fpMag x = ((x.mant * 2 ^ (x.exp - e).toNat : Nat) : ℚ) * (2 : ℚ) ^ e := by
    rw [fpMag, hj, he, zpow_add₀ (by norm_num)]
    push_cast
    simp only [Int.toNat_natCast]
    rw [zpow_natCast]
    ring
  simp only [fpVal, signedAt, hm]
  split
  · push_cast; ring
  · push_cast; ring

theorem fpAdd_rounds (f : FpFmt) (a b : Fp) : Rounds f (fpVal a + fpVal b) (fpAdd f a b) := by
  have hsum : fpVal a + fpVal b
      = ((signedAt a (min a.exp b.exp) + signedAt b (min a.exp b.exp) : Int) : ℚ)
        * (2 : ℚ) ^ (min a.exp b.exp) := by
    rw [fpVal_signedAt a (min_le_left _ _), fpVal_signedAt b (min_le_right _ _)]
    push_cast
    ring
  rw [hsum]
  simp only [fpAdd, roundDyadic]
  generalize signedAt a (min a.exp b.exp) + signedAt b (min a.exp b.exp) = m
  generalize min a.exp b.exp = e
  have hp : (0 : ℚ) < (2 : ℚ) ^ e := by positivity
  refine roundTo_rounds (by positivity) ?_ ?_ ?_
  · rw [dyadic_quotient, abs_mul, abs_of_pos hp, Nat.cast_natAbs, Int.cast_abs]
  · intro h
    have : (0 : Int) < m := by exact_mod_cast (pos_iff_pos_of_mul_pos h).2 hp
    rw [if_neg (by omega)]
    simp; omega
  · intro h
    have h1 : m < 0 := by
      by_contra hc
      have : (0 : ℚ) ≤ m := by exact_mod_cast not_lt.1 hc
      nlinarith
    rw [if_neg (by omega)]
    simp [h1]

theorem fpVal_neg (x : Fp) : fpVal (fpNeg x) = -fpVal x := by
  cases h : x.neg <;> simp [fpVal, fpNeg, h] <;> rfl

theorem fpSub_rounds (f : FpFmt) (a b : Fp) : Rounds f (fpVal a - fpVal b) (fpSub f a b) := by
  have := fpAdd_rounds f a (fpNeg b)
  rwa [fpVal_neg, ← sub_eq_add_neg] at this

theorem sign_pos {a b : Fp} (h : 0 < fpVal a * fpVal b) : (a.neg != b.neg) = false := by
  have ha := fpMag_nonneg a
  have hb := fpMag_nonneg b
  cases h1 : a.neg <;> cases h2 : b.neg <;> simp only [fpVal, h1, h2] at h ⊢ <;>
    first | rfl | (exfalso; simp at h; nlinarith [mul_nonneg ha hb])

theorem sign_neg {a b : Fp} (h : fpVal a * fpVal b < 0) : (a.neg != b.neg) = true := by
  have ha := fpMag_nonneg a
  have hb := fpMag_nonneg b
  cases h1 : a.neg <;> cases h2 : b.neg <;> simp only [fpVal, h1, h2] at h ⊢ <;>
    first | rfl | (exfalso; simp at h; nlinarith [mul_nonneg ha hb])

theorem fpMul_rounds (f : FpFmt) (a b : Fp) : Rounds f (fpVal a * fpVal b) (fpMul f a b) := by
  refine roundTo_rounds (by positivity) ?_ sign_pos sign_neg
  rw [dyadic_quotient, abs_mul, abs_fpVal, abs_fpVal, fpMag, fpMag, zpow_add₀ (by norm_num)]
  push_cast
  ring

theorem fpDiv_rounds (f : FpFmt) (a : Fp) {b : Fp} (hb : b.mant ≠ 0) :
    Rounds f (fpVal a / fpVal b) (fpDiv f a b) := by
  have hm : (0 : ℚ) < b.mant := by exact_mod_cast Nat.pos_of_ne_zero hb
  have hsign : fpVal a / fpVal b = fpVal a * fpVal b / (fpMag b * fpMag b) := by
    have hb2 : fpVal b ≠ 0 := by
      have : 0 < |fpVal b| := by rw [abs_fpVal, fpMag]; positivity
      exact abs_pos.1 this
    rw [← abs_fpVal b, abs_mul_abs_self]
    field_simp
  have hmb : 0 < fpMag b := by unfold fpMag; positivity
  refine roundTo_rounds (by positivity) ?_ ?_ ?_
  · rw [abs_div, abs_fpVal, abs_fpVal, fpMag, fpMag]
    have h1 := two_zpow_eq (a.exp - b.exp)
    rw [zpow_sub₀ (by norm_num)] at h1
    push_cast at h1 ⊢
    rw [mul_div_mul_comm, mul_div_mul_comm, h1]
  · intro h
    rw [hsign] at h
    exact sign_pos ((div_pos_iff_of_pos_right (by positivity)).1 h)
  · intro h
    rw [hsign] at h
    refine sign_neg ?_
    by_contra hc
    exact absurd h (not_lt.2 (div_nonneg (not_lt.1 hc) (by positivity)))

/-- Every natural number up to 2^24 is a value of both formats. -/
theorem representable_nat (f : FpFmt) {n : Nat} (h : n ≤ 2 ^ 24) : representable f (n : ℚ) :=
  ⟨n, 0, h.trans (by cases f <;> decide), by cases f <;> decide, by simp⟩

/-- An integer of at most 24 bits is converted exactly. -/
theorem fpVal_flInt (f : FpFmt) {v : Int} (h : v.natAbs ≤ 2 ^ 24) : fpVal (flInt f v) = v := by
  refine (flInt_rounds f v).exact_of_representable ?_
  have := representable_nat f h
  rwa [Nat.cast_natAbs, Int.cast_abs] at this

theorem Rounds.abs_le {f : FpFmt} {v : ℚ} {x : Fp} (h : Rounds f v x) {b : ℚ} (hb : representable f b)
    (hv : |v| ≤ b) : |fpVal x| ≤ b := by
  rw [abs_fpVal]; exact h.le b hb hv

theorem Rounds.le_of_le {f : FpFmt} {v : ℚ} {x : Fp} (h : Rounds f v x) {b : ℚ} (hb : representable f b)
    (h0 : 0 ≤ b) (hv : v ≤ b) : fpVal x ≤ b := by
  rcases le_total 0 v with hp | hn
  · exact (le_abs_self _).trans (h.abs_le hb (by rwa [abs_of_nonneg hp]))
  · exact (h.nonpos hn).trans h0

theorem isZero_iff (x : Fp) : isZero x = true ↔ fpVal x = 0 := by
  rw [← abs_eq_zero, abs_fpVal, fpMag]
  simp [isZero]
  intro h
  exact absurd h (by positivity)

theorem magLe_iff (x : Fp) (k : Nat) : magLe x k = true ↔ fpMag x ≤ k := by
  simp only [magLe, decide_eq_true_eq, fpMag]
  rw [two_zpow_eq, ← mul_div_assoc, div_le_iff₀ (by positivity)]
  exact_mod_cast Iff.rfl

theorem magGe_iff (x : Fp) (k : Nat) : magGe x k = true ↔ (k : ℚ) ≤ fpMag x := by
  simp only [magGe, decide_eq_true_eq, fpMag]
  rw [two_zpow_eq, ← mul_div_assoc, le_div_iff₀ (by positivity)]
  exact_mod_cast Iff.rfl

theorem isNonneg_iff (x : Fp) : isNonneg x = true ↔ 0 ≤ fpVal x := by
  simp only [isNonneg, Bool.or_eq_true, isZero_iff, Bool.not_eq_true']
  have := fpMag_nonneg x
  cases h : x.neg <;> simp [fpVal, h, this]
  constructor
  · intro h; rw [h]
  · intro h; linarith

/-- A value is 1 where `isOne` says so. -/
theorem isOne_iff (x : Fp) : isOne x = true ↔ fpVal x = 1 := by
  simp only [isOne, Bool.and_eq_true, Bool.not_eq_true', magLe_iff, magGe_iff, Nat.cast_one]
  have := fpMag_nonneg x
  cases h : x.neg <;> simp only [fpVal, h, Bool.false_eq_true, if_false, if_true, true_and, reduceCtorEq, false_and]
  · exact le_antisymm_iff.symm
  · constructor
    · exact False.elim
    · intro h; linarith

theorem inFormat_one (f : FpFmt) : inFormat f (flInt f 1) = true := by cases f <;> decide +kernel

/-- Truncation is the floor of the magnitude, with the sign (R14). -/
theorem truncF_eq (x : Fp) : truncF x = if x.neg then -⌊fpMag x⌋ else ⌊fpMag x⌋ := by
  have : ((x.mant * 2 ^ x.exp.toNat / 2 ^ (-x.exp).toNat : Nat) : Int) = ⌊fpMag x⌋ := by
    rw [fpMag, two_zpow_eq, ← mul_div_assoc]
    have := Rat.floor_intCast_div_natCast (x.mant * 2 ^ x.exp.toNat : Nat) (2 ^ (-x.exp).toNat)
    push_cast at this ⊢
    rw [this]
  simp only [truncF, this]

end Sys2Proof.Machine
end

