-- ==== Sys2Proof/Laws/FloatPlaces.lean ====
section
/-! SUPPORT. The finite values of a format by their bit patterns: their magnitudes rise with the pattern, every
pattern up to the largest is a value of the format, and 1 and 256 stand at the patterns `Config` names. -/

namespace Sys2Proof.Machine

/-- The magnitude of a bit pattern in quanta of the format. -/
def patternQuanta (f : FpFmt) (n : Nat) : Nat :=
  if n < 2 ^ (precision f - 1) then n
  else (2 ^ (precision f - 1) + n % 2 ^ (precision f - 1)) * 2 ^ (n / 2 ^ (precision f - 1) - 1)

@[simp] theorem ofPattern_neg (f : FpFmt) (n : Nat) : (ofPattern f n).neg = false := by
  simp only [ofPattern]; split <;> rfl

theorem fpMag_ofPattern (f : FpFmt) (n : Nat) :
    fpMag (ofPattern f n) = patternQuanta f n * (2 : ℚ) ^ minQuantum f := by
  simp only [ofPattern, patternQuanta]
  split
  · rfl
  · simp only [fpMag]
    rw [zpow_add₀ (by norm_num), zpow_natCast]
    push_cast
    ring

theorem fpVal_ofPattern (f : FpFmt) (n : Nat) : fpVal (ofPattern f n) = fpMag (ofPattern f n) := by
  simp [fpVal]

/-- The magnitude rises with the pattern. -/
theorem patternQuanta_strictMono (f : FpFmt) : StrictMono (patternQuanta f) := by
  refine strictMono_nat_of_lt_succ fun n => ?_
  simp only [patternQuanta]
  generalize hw : 2 ^ (precision f - 1) = w
  have hw0 : 0 < w := hw ▸ by positivity
  by_cases h : n + 1 < w
  · rw [if_pos h, if_pos (by omega)]; omega
  rw [if_neg h]
  by_cases h2 : n < w
  · have : n + 1 = w := by omega
    rw [if_pos h2, this, Nat.mod_self, Nat.div_self hw0]; simp; omega
  rw [if_neg h2]
  have hm := Nat.mod_lt n hw0
  have hd := Nat.div_add_mod n w
  have hq : 1 ≤ n / w := (Nat.one_le_div_iff hw0).2 (by omega)
  by_cases h3 : n % w + 1 < w
  · have e1 : (n + 1) / w = n / w := by
      rw [show n + 1 = w * (n / w) + (n % w + 1) by omega, Nat.mul_add_div hw0, Nat.div_eq_of_lt h3, add_zero]
    have e2 : (n + 1) % w = n % w + 1 := by rw [Nat.add_mod, Nat.mod_eq_of_lt (b := w) (a := 1) (by omega),
      Nat.mod_eq_of_lt (by omega)]
    rw [e1, e2]
    exact Nat.mul_lt_mul_of_pos_right (by omega) (by positivity)
  · have e0 : n + 1 = w * (n / w + 1) := by rw [Nat.mul_add]; omega
    have e1 : (n + 1) / w = n / w + 1 := by rw [e0, Nat.mul_div_cancel_left _ hw0]
    have e2 : (n + 1) % w = 0 := by rw [e0, Nat.mul_mod_right]
    rw [e1, e2, show n / w + 1 - 1 = (n / w - 1) + 1 by omega, pow_succ]
    have : 0 < 2 ^ (n / w - 1) := by positivity
    nlinarith

theorem fpMag_ofPattern_le_iff {f : FpFmt} {m n : Nat} :
    fpMag (ofPattern f m) ≤ fpMag (ofPattern f n) ↔ m ≤ n := by
  rw [fpMag_ofPattern, fpMag_ofPattern, mul_le_mul_iff_left₀ (by positivity), Nat.cast_le,
    (patternQuanta_strictMono f).le_iff_le]

theorem fpMag_patternOne (f : FpFmt) : fpMag (ofPattern f f.patternOne) = 1 := by
  rw [← fpVal_ofPattern, ← isOne_iff]; cases f <;> decide +kernel

theorem fpMag_pattern256 (f : FpFmt) : fpMag (ofPattern f f.pattern256) = 256 := by
  have h1 : magLe (ofPattern f f.pattern256) 256 = true := by cases f <;> decide +kernel
  have h2 : magGe (ofPattern f f.pattern256) 256 = true := by cases f <;> decide +kernel
  rw [magLe_iff] at h1
  rw [magGe_iff] at h2
  exact le_antisymm (by exact_mod_cast h1) (by exact_mod_cast h2)

/-- The patterns up to the largest are values of the format. -/
theorem inFormat_ofPattern {f : FpFmt} {n : Nat} (h : n ≤ f.patternMax) : inFormat f (ofPattern f n) = true := by
  have hp : 2 ^ precision f = 2 * 2 ^ (precision f - 1) := by cases f <;> simp [precision]
  have hq : minQuantum f ≤ maxQuantum f := by cases f <;> decide
  have hmax : f.patternMax / 2 ^ (precision f - 1) = (maxQuantum f - minQuantum f).toNat + 1 := by
    cases f <;> decide +kernel
  have hd := Nat.div_le_div_right (c := 2 ^ (precision f - 1)) h
  have hm := Nat.mod_lt n (show 0 < 2 ^ (precision f - 1) by positivity)
  simp only [ofPattern]
  generalize 2 ^ (precision f - 1) = w at *
  split <;> simp only [inFormat, hp, Bool.and_eq_true, decide_eq_true_eq] <;> omega

@[simp] theorem ofPlace_natCast (f : FpFmt) (n : Nat) : ofPlace f n = ofPattern f n := by
  simp [ofPlace]

theorem ofPlace_negSucc (f : FpFmt) (n : Nat) : ofPlace f (-n - 1) = fpNeg (ofPattern f n) := by
  rw [ofPlace, if_neg (by omega)]
  congr 2
  omega

theorem inFormat_fpNeg (f : FpFmt) (x : Fp) : inFormat f (fpNeg x) = inFormat f x := rfl

/-- A place within the patterns of a format on both sides of zero is a value of the format. -/
theorem inFormat_ofPlace {f : FpFmt} {i : Int} (h0 : -(f.patternMax + 1 : Int) ≤ i)
    (h1 : i ≤ f.patternMax) : inFormat f (ofPlace f i) = true := by
  simp only [ofPlace]
  split
  · exact inFormat_ofPattern (by omega)
  · rw [inFormat_fpNeg]; exact inFormat_ofPattern (by omega)

end Sys2Proof.Machine
end

