-- ==== Sys2Proof/Laws/Parse.lean ====
section
/-! SUPPORT. What the reads of the record parser answer: on the bytes of a field they give its value and move
the offset past it (R204, R205, R207); and what any list they give is. -/

namespace Sys2Proof.Machine

theorem ok_bind {ε α β : Type} (a : α) (f : α → Except ε β) :
    ((Except.ok a : Except ε α) >>= f) = f a := rfl

theorem of_bind_ok {ε α β : Type} {x : Except ε α} {f : α → Except ε β} {b : β}
    (h : (x >>= f) = .ok b) : ∃ a, x = .ok a ∧ f a = .ok b := by
  cases x with
  | error e => cases h
  | ok a => exact ⟨a, rfl, h⟩

theorem halfBytes_join (v : Half) : v.extractLsb' 8 8 ++ v.extractLsb' 0 8 = v := by
  apply BitVec.eq_of_getLsbD_eq
  intro k hk
  rw [BitVec.getLsbD_append]
  split
  · simp_all
  · simp only [BitVec.getLsbD_extractLsb']
    rw [show 8 + (k - 8) = k by omega, decide_eq_true (by omega), Bool.true_and]

theorem rd16_halfBytes (o : Nat) (v : Half) (rest : List Byte) :
    rd16 ⟨o, halfBytes v ++ rest⟩ = .ok (v, ⟨o + 2, rest⟩) := by simp [rd16, halfBytes, halfBytes_join]

theorem rdPair_pairBytes (o : Nat) (p : Half × Half) (rest : List Byte) :
    rdPair ⟨o, pairBytes p.1 p.2 ++ rest⟩ = .ok (p, ⟨o + 4, rest⟩) := by
  simp only [rdPair, pairBytes, List.append_assoc, rd16_halfBytes, ok_bind]

/-- The start codes of a list of pairs are read back from their bytes (R204). -/
theorem rdStarts_pairBytes (o : Nat) (ps : List (Half × Half)) (rest : List Byte) :
    rdStarts ps.length ⟨o, ps.flatMap (fun p => pairBytes p.1 p.2) ++ rest⟩
      = .ok (ps, ⟨o + 4 * ps.length, rest⟩) := by
  induction ps generalizing o with
  | nil => rfl
  | cons p ps ih =>
    simp only [List.length_cons, rdStarts, List.flatMap_cons, List.append_assoc, rdPair_pairBytes, ok_bind, ih,
      Except.ok.injEq, Prod.mk.injEq, Cursor.mk.injEq, true_and, and_true]
    omega

theorem rdStarts_length {n : Nat} {c c' : Cursor} {ps : List (Half × Half)}
    (h : rdStarts n c = .ok (ps, c')) : ps.length = n := by
  induction n generalizing c ps c' with
  | zero => cases h; rfl
  | succ n ih =>
    simp only [rdStarts] at h
    obtain ⟨⟨p, c1⟩, -, h⟩ := of_bind_ok h
    obtain ⟨⟨qs, c2⟩, h2, h⟩ := of_bind_ok h
    cases h
    simp [ih h2]

/-- The end codes that are read: one pair for each start pair, a copy of it where its migration bit is 0
(R205). -/
theorem rdEnds_spec {m : Byte} {bit : Nat} {ps qs : List (Half × Half)} {c c' : Cursor}
    (h : rdEnds m bit ps c = .ok (qs, c')) :
    qs.length = ps.length ∧ ∀ k, m.getLsbD (bit + k) = false → qs[k]? = ps[k]? := by
  induction ps generalizing bit c qs c' with
  | nil => cases h; simp
  | cons p ps ih =>
    simp only [rdEnds] at h
    obtain ⟨⟨q, c1⟩, h1, h⟩ := of_bind_ok h
    obtain ⟨⟨qs', c2⟩, h2, h⟩ := of_bind_ok h
    cases h
    have := ih h2
    refine ⟨by simp [this.1], fun k hk => ?_⟩
    cases k with
    | zero =>
      simp only [Nat.add_zero] at hk
      simp [rdEnd, hk] at h1
      simp [h1]
    | succ k =>
      simp only [List.getElem?_cons_succ]
      exact this.2 k (by rw [← hk]; congr 1; omega)

end Sys2Proof.Machine
end

