-- ==== Sys2Proof/Laws/PerInstr.lean ====
section
/-! SUPPORT. One family of facts made command by command: the encoder writes as many words as the header it
writes announces (R114), so a block that collects an encoded command finds the next header right after it. -/

namespace Sys2Proof.Laws

/-- The words of a well-formed command are a header and as many data words as the header announces (R114). -/
def EncodeLength.Statement (i : Instr) : Prop :=
  i.wellFormed = true → ∃ h ds, encode i = h :: ds ∧ ds.length + 1 = cmdLength h

theorem packBytes_length (bs : List Byte) : (packBytes bs).length = recordWords bs.length := by
  fun_induction packBytes bs with
  | case1 => rfl
  | case2 => simp [recordWords]
  | case3 => simp [recordWords]
  | case4 => simp [recordWords]
  | case5 a b c d bs ih => simp only [List.length_cons, ih, recordWords]; omega

theorem opcField_headerOf (o : Byte) (i s : BitVec 4) (m : Half) : opcField (headerOf o i s m) = o := by
  apply BitVec.eq_of_getLsbD_eq
  intro k hk
  simp only [opcField, headerOf, BitVec.getLsbD_extractLsb', BitVec.getLsbD_append, hk, decide_true,
    Bool.true_and]
  rw [if_neg (by omega), if_neg (by omega), if_neg (by omega)]
  congr 1
  omega

theorem immField_headerOf (o : Byte) (i s : BitVec 4) (m : Half) : immField (headerOf o i s m) = m := by
  apply BitVec.eq_of_getLsbD_eq
  intro k hk
  simp only [immField, headerOf, BitVec.getLsbD_extractLsb', BitVec.getLsbD_append, Nat.zero_add, hk,
    decide_true, Bool.true_and, if_true]

theorem Opc.ofByte_code (o : Opc) : Opc.ofByte o.code = some o := by cases o <;> rfl

theorem cmdLength_headerOf (o : Opc) (i s : BitVec 4) (m : Half) :
    cmdLength (headerOf o.code i s m) = o.dataWords (headerOf o.code i s m) + 1 := by
  simp only [cmdLength, opcField_headerOf, Opc.ofByte_code]

theorem EncodeLength.nop : EncodeLength.Statement .nop := fun _ =>
  ⟨_, _, rfl, by rw [cmdLength_headerOf]; rfl⟩
theorem EncodeLength.clrerr : EncodeLength.Statement .clrerr := fun _ =>
  ⟨_, _, rfl, by rw [cmdLength_headerOf]; rfl⟩
theorem EncodeLength.regRd (addr : Half) : EncodeLength.Statement (.regRd addr) := fun _ =>
  ⟨_, _, rfl, by rw [cmdLength_headerOf]; rfl⟩
theorem EncodeLength.regWr (addr : Half) (value : Word) : EncodeLength.Statement (.regWr addr value) :=
  fun _ => ⟨_, _, rfl, by rw [cmdLength_headerOf]; rfl⟩
theorem EncodeLength.oscGen (ch : BitVec 4) (amp inc : Word) :
    EncodeLength.Statement (.oscGen ch amp inc) :=
  fun _ => ⟨_, _, rfl, by rw [cmdLength_headerOf]; rfl⟩
theorem EncodeLength.fltLoad (bytes : List Byte) : EncodeLength.Statement (.fltLoad bytes) := by
  intro h
  refine ⟨_, _, rfl, ?_⟩
  have hl : bytes.length < 2 ^ 16 := by
    have : bytes.length ≤ 65535 := of_decide_eq_true h
    omega
  rw [cmdLength_headerOf, packBytes_length]
  simp only [Opc.dataWords, immField_headerOf, BitVec.toNat_ofNat, Nat.mod_eq_of_lt hl]
theorem EncodeLength.fltEval (dir : Dir) (pos : Word) : EncodeLength.Statement (.fltEval dir pos) :=
  fun _ => ⟨_, _, rfl, by rw [cmdLength_headerOf]; rfl⟩
theorem EncodeLength.fltStep (x : Word) : EncodeLength.Statement (.fltStep x) := fun _ =>
  ⟨_, _, rfl, by rw [cmdLength_headerOf]; rfl⟩
theorem EncodeLength.fltClr : EncodeLength.Statement .fltClr := fun _ =>
  ⟨_, _, rfl, by rw [cmdLength_headerOf]; rfl⟩
theorem EncodeLength.mixInit (ms : Word) : EncodeLength.Statement (.mixInit ms) := fun _ =>
  ⟨_, _, rfl, by rw [cmdLength_headerOf]; rfl⟩
theorem EncodeLength.mixTone (start len : Word) : EncodeLength.Statement (.mixTone start len) := fun _ =>
  ⟨_, _, rfl, by rw [cmdLength_headerOf]; rfl⟩
theorem EncodeLength.mixAdd (sample : Word) : EncodeLength.Statement (.mixAdd sample) := fun _ =>
  ⟨_, _, rfl, by rw [cmdLength_headerOf]; rfl⟩
theorem EncodeLength.mixRd (pos : Word) : EncodeLength.Statement (.mixRd pos) := fun _ =>
  ⟨_, _, rfl, by rw [cmdLength_headerOf]; rfl⟩
theorem EncodeLength.mixRdpcm (pos : Word) : EncodeLength.Statement (.mixRdpcm pos) := fun _ =>
  ⟨_, _, rfl, by rw [cmdLength_headerOf]; rfl⟩

end Sys2Proof.Laws
end

