-- ==== Sys2Proof/Tests/Slice0.lean ====
section
/-! SUPPORT. Small checks of the model. Expected values come from the spec: its encodings (R111, R115, R119),
its worked examples and its vectors (95_test_vectors.md), never from the model's own answers. -/

namespace Sys2Proof.Tests

open Sys2Proof Sys2Proof.Machine

/-- A state whose host has written some words to the command port. -/
def sending (s : State) (ws : List Word) : State := { s with port := ws.map PortEvent.word }

/-- One field of the next state, if there is one. -/
def field {α : Type} (g : State → α) : Host.Outcome State Fault Refusal → Option α
  | .next t => some (g t)
  | .fault _ => none
  | .refused _ => none

/-! Well-formedness: the one check there is (R119). -/

theorem wellFormed_replicate (n : Nat) (b : Byte) :
    (Instr.fltLoad (List.replicate n b)).wellFormed = decide (n ≤ maxRecordBytes) := by
  simp only [Instr.wellFormed, List.length_replicate]
theorem test_wellFormed_refuses_long_record :
    (Instr.fltLoad (List.replicate 65536 0)).wellFormed = false := wellFormed_replicate 65536 0
theorem test_wellFormed_admits_longest_record :
    (Instr.fltLoad (List.replicate 65535 0)).wellFormed = true := wellFormed_replicate 65535 0

/-! Decoding: each header's fields OPC, IDX, SUB and IMM written out bit by bit from R111 and R115. -/

theorem test_decode_nop : decode [0b00000000_0000_0000_0000000000000000#32] = .ok .nop := by decide
theorem test_decode_clrerr : decode [0b00000001_0000_0000_0000000000000000#32] = .ok .clrerr := by decide
theorem test_decode_regRd :
    decode [0b00000010_0000_0000_0000000101010000#32] = .ok (.regRd 0x0150) := by decide
theorem test_decode_regWr :
    decode [0b00000011_0000_0000_0000000000010000#32, 1] = .ok (.regWr 0x0010 1) := by decide
theorem test_decode_oscGen :
    decode [0b00010000_1010_0000_0000000000000000#32, 1000, 8192] = .ok (.oscGen 10 1000 8192) := by decide
theorem test_decode_fltLoad :
    decode [0b00100000_0000_0000_0000000000000101#32, 0x00112233, 0x44FFFFFF]
      = .ok (.fltLoad [0x00, 0x11, 0x22, 0x33, 0x44]) := by decide
theorem test_decode_fltEval_onset :
    decode [0b00100001_0000_0000_0000000000000000#32, 7] = .ok (.fltEval .onset 7) := by decide
theorem test_decode_fltEval_release :
    decode [0b00100001_0000_0001_0000000000000000#32, 7] = .ok (.fltEval .release 7) := by decide
theorem test_decode_fltStep :
    decode [0b00100010_0000_0000_0000000000000000#32, 12345] = .ok (.fltStep 12345) := by decide
theorem test_decode_fltClr : decode [0b00100011_0000_0000_0000000000000000#32] = .ok .fltClr := by decide
theorem test_decode_mixInit :
    decode [0b00110000_0000_0000_0000000000000000#32, 100] = .ok (.mixInit 100) := by decide
theorem test_decode_mixTone :
    decode [0b00110001_0000_0000_0000000000000000#32, 50, 60] = .ok (.mixTone 50 60) := by decide
theorem test_decode_mixAdd :
    decode [0b00110010_0000_0000_0000000000000000#32, 0x7F00] = .ok (.mixAdd 0x7F00) := by decide
theorem test_decode_mixRd :
    decode [0b00110011_0000_0000_0000000000000000#32, 1] = .ok (.mixRd 1) := by decide
theorem test_decode_mixRdpcm :
    decode [0b00110100_0000_0000_0000000000000000#32, 3] = .ok (.mixRdpcm 3) := by decide
/-- SUB values 2 to 15 of FLT_EVAL are illegal (R117). -/
theorem test_decode_refuses_sub2 :
    decode [0x21020000, 5] = .error (.reservedField 0x21020000) := by decide
/-- Opcode 0x04 is reserved (R116, R118). -/
theorem test_decode_refuses_reserved_opcode :
    decode [0x04000000] = .error (.undefinedOpcode 0x04000000) := by decide
/-- An illegal FLT_EVAL header still has length 2, a reserved opcode length 1 (R114). -/
theorem test_length_of_illegal : cmdLength 0x21020000 = 2 ∧ cmdLength 0x35000000 = 1 := by decide
/-- The longest command has 16384 data words (R330). -/
theorem test_length_of_longest : cmdLength 0x2000FFFF = 16385 := by decide
theorem test_table_word_oscGen :
    decodeTableWord 96 0x00000064000003E810000000 = some (.oscGen 0 1000 100) := by decide
theorem test_encode_fltLoad :
    encode (.fltLoad [0x01, 0, 0, 0, 0, 0, 0x80, 0, 0x40, 0])
      = [0x2000000A, 0x01000000, 0x00008000, 0x40000000] := by decide

/-! Steps: framing, reset and illegal headers. -/

/-- A partial command waits and changes nothing the host can read (R31, R54). -/
theorem test_partial_waits :
    field State.asm (step (sending State.reset [0x22000000])) = some [0x22000000] := by decide
/-- A reset in the middle of a command discards it (R320). -/
theorem test_reset_discards_partial :
    step { State.reset with asm := [0x22000000], port := [.reset] } = .next State.reset := by rfl
/-- Section 5 of the vectors: reserved opcode 0xFF. -/
theorem test_illegal_status :
    field (fun t => (t.status.toWord, t.errinfo, t.cp)) (step (sending State.reset [0xFFFFFFFF]))
      = some (0x00000103, 0xFFFFFFFF, 1) := by decide
/-- Section 5: header 21020000 consumes its data word before E_ILLEGAL. -/
theorem test_illegal_consumes_data :
    field (fun t => (t.status.toWord, t.errinfo, t.cp, t.port))
      (step (sending State.reset [0x21020000, 0x00020000]))
      = some (0x00000103, 0x21020000, 2, []) := by decide

/-! The control commands (R150 to R153, section 5). -/

theorem test_nop :
    field (fun t => t.status.toWord)
      (exec .nop { State.reset with status := ⟨true, true, false, 1⟩ }) = some 0x00000101 := by decide
theorem test_clrerr :
    field (fun t => (t.status.toWord, t.errinfo))
      (exec .clrerr { State.reset with status := ⟨true, true, false, 0x10⟩, errinfo := 0x55 })
      = some (0, 0) := by decide
theorem test_regRd_history :
    field State.result (exec (.regRd 0x0189) { State.reset with yh := #v[9, 8, 7, 6, 5, 4, 3, 2] })
      = some 8 := by decide
theorem test_regRd_unmapped_slot :
    field (fun t => (t.status.toWord, t.errinfo)) (exec (.regRd 0x0114) State.reset)
      = some (0x00000203, 0x114) := by decide
theorem test_regWr_shape :
    field (fun t => pick16 t.oscShape 0) (exec (.regWr 0x0010 0x00000102) State.reset) = some 2 := by decide
theorem test_regWr_read_only :
    field (fun t => (t.status.toWord, t.errinfo)) (exec (.regWr 0x0100 5) State.reset)
      = some (0x00000203, 0x100) := by decide

/-! The oscillator (section 2). -/

/-- Entries of section 2.1: 0, 100, 1000, 8191, 16385, 20000 and 32767. -/
theorem test_sine_entries :
    [0, 100, 1000, 8191, 16385, 20000, 32767].map romSin = [0, 314, 3122, 16384, -3, -10471, -3] := by
  decide +kernel
/-- Rows S4, S6, S8, N3, N8, W4, W6, W7 and Z2 of section 2.2. -/
theorem test_wave_rows :
    [wave 1 32767 1000, wave 1 (-1) 1000, wave 1 16384 (-2147483648), wave 2 1 (-1000),
      wave 2 24576 (-2147483648), wave 3 32767 1000, wave 3 32767 (-1000), wave 3 0 (-2147483648),
      wave 5 1234 1000].map BitVec.toInt
      = [-1000, -1000, -2147483648, -1, -2147483648, 999, -1000, -2147483648, 0] := by decide +kernel
/-- Rows R3 and R4 of section 2.2: the index, which needs no table. -/
theorem test_noise_index :
    and15 (tdiv (-2606) 2607) = 0 ∧ and15 (tdiv (-2607) 2607) = 32767 := by decide
/-- Section 2.3: the phase wraps from 2^31-1 to -2^31 after the sample is taken. -/
theorem test_oscGen_wraps :
    field (fun t => (t.result.toInt, pick16 t.oscPhase 0))
      (exec (.oscGen 0 5 1) { State.reset with
        oscShape := Vector.replicate 16 1, oscPhase := Vector.replicate 16 2147483647 })
      = some (-5, 0x80000000) := by decide +kernel

/-! FLT_LOAD (section 3.1). -/

/-- Record `mig`: RESULT 14, ENVREQ, and a migrated release pair. -/
theorem test_fltLoad_mig :
    field (fun t => (t.result, t.status.envreq, t.spec.migr, pick4 t.spec.range.release.stop 0,
        pick4 t.spec.freq.release.start 0))
      (exec (.fltLoad [0x01, 0, 0, 0x80, 0, 0x10, 0x40, 0, 0, 0, 0xC0, 0, 0xFF, 0xFF]) State.reset)
      = some (14, true, 0x10, 0xFFFF, 0x4000) := by decide +kernel
/-- The corner-case rows: the offsets at which a short record fails, and the pair-count check before them. -/
theorem test_fltLoad_errors :
    [[], [0x01], [0x01, 0, 0, 0, 0, 0], [0x01, 0, 0, 0, 0, 0, 0, 0, 0], [0x11, 0, 0], [0x55]].map
      (fun bs => field (fun t => (t.status.ecode, t.errinfo)) (exec (.fltLoad bs) State.reset))
      = [some (0x11, 0), some (0x11, 1), some (0x11, 6), some (0x11, 8), some (0x11, 3),
        some (0x10, 0x55)] := by decide +kernel

/-! FLT_EVAL (section 3.2), with correctly rounded values of the configuration functions at the arguments that
the records reach. -/

/-- Every function constantly 1, in binary32: they obey R222 at every argument. -/
def libOnes : FpLib :=
  { fmt := .binary32, pow10 := fun _ => flInt .binary32 1, pow2 := fun _ => flInt .binary32 1,
    cos := fun _ => flInt .binary32 1 }

/-- A `cosF` of 2, which breaks PRANGE. -/
def libBroken : FpLib := { libOnes with cos := fun _ => flInt .binary32 2 }

/-- pow10F(-1.25), pow2F(4) and cosF at the angle of `rel1`, correctly rounded in binary64. -/
def libRel1 : FpLib :=
  { fmt := .binary64
    pow10 := fun _ => ⟨false, 8104192584263319, -57⟩
    pow2 := fun _ => ⟨false, 4503599627370496, -48⟩
    cos := fun _ => ⟨false, 8907264169591674, -53⟩ }

/-- The FilterSpec of record `rel1`. -/
def specRel1 : FilterSpec :=
  { FilterSpec.zero with
    pcnt := ⟨0, 1⟩
    freq := ⟨FilterSpec.zero.freq.onset, ⟨#v[0x8000, 0, 0, 0], #v[0x8000, 0, 0, 0]⟩⟩
    range := ⟨FilterSpec.zero.range.onset, ⟨#v[0x4000, 0, 0, 0], #v[0x4000, 0, 0, 0]⟩⟩ }

theorem test_fltEval_rel1 :
    (fixedCoeffs libRel1 specRel1 .release 0).map BitVec.toInt = [-122328, 58372] := by decide +kernel
/-- `u = 0` gives the unity gain 65536 whatever the configuration functions are (PZERO). -/
theorem test_fltEval_unity : fixedUnity libOnes FilterSpec.zero 32768 = 65536 := by decide +kernel
theorem test_fltEval_count :
    field (fun t => (t.result, t.nco.release, t.unity16))
      (fltEvalWith libRel1 .release 65536 { State.reset with spec := specRel1 }) = some (2, 2, 0) := by
  decide +kernel
/-- Functions that break PRANGE where they are asked are refused; where no pair asks `cosF`, they are not (R310). -/
theorem test_fltEval_refuses :
    (match fltEvalWith libBroken .release 0 { State.reset with spec := specRel1 } with
      | .refused .unlawfulFunctions => true
      | _ => false) = true ∧
      field (fun t => t.unity16) (fltEvalWith libBroken .onset 0 { State.reset with spec := specRel1 })
        = some 65536 := by decide +kernel
theorem test_fltEval_position_range :
    field (fun t => (t.status.toWord, t.errinfo)) (exec (.fltEval .onset 65537) State.reset)
      = some (0x00000303, 0x00010001) := by decide

/-! FLT_STEP and FLT_CLR (section 3.3). -/

/-- Record `rel1`, the second output: 18666. -/
theorem test_fltStep_feedback :
    field (fun t => (t.result.toInt, t.yh[0].toInt, t.yh[1].toInt, t.xh[1].toInt))
      (exec (.fltStep 0) { State.reset with
        unity16 := 65536, nco := ⟨0, 2⟩
        c16 := ⟨Vector.replicate 8 0, #v[wrap32 (-122328), 58372, 0, 0, 0, 0, 0, 0]⟩
        xh := #v[10000, 0, 0, 0, 0, 0, 0, 0], yh := #v[10000, 0, 0, 0, 0, 0, 0, 0] })
      = some (18666, 18666, 10000, 10000) := by decide +kernel
/-- Record `on1`, the second output: each product is floored, so -1458.1 gives -1459. -/
theorem test_fltStep_floor :
    field (fun t => t.result.toInt)
      (exec (.fltStep 0) { State.reset with
        unity16 := 6552, nco := ⟨2, 0⟩
        c16 := ⟨#v[wrap32 (-9556), 3813, 0, 0, 0, 0, 0, 0], Vector.replicate 8 0⟩
        xh := #v[10000, 0, 0, 0, 0, 0, 0, 0] }) = some (-1459) := by decide +kernel
theorem test_fltClr :
    field (fun t => (t.xh[0], t.yh[7]))
      (exec .fltClr { State.reset with xh := Vector.replicate 8 5, yh := Vector.replicate 8 6 })
      = some (0, 0) := by decide

/-! The mixer (section 4). -/

theorem test_samples : [1, 45, 46, 999, 190217].map samples = [22, 992, 1014, 22027, 4194284] := by decide
theorem test_mixInit_limit :
    [190217, 190218].map (fun d => field (fun t => t.status.ecode) (exec (.mixInit d) State.reset))
      = [some 0, some 3] := by decide
/-- `MIX_INIT 100`, `MIX_TONE 50, 60` overruns by reaching sample 2425. -/
theorem test_mixTone_overrun :
    field (fun t => (t.status.ecode, t.errinfo)) (exec (.mixTone 50 60) { State.reset with mixLen := 2205 })
      = some (3, 2425) := by decide
/-- Rows of section 4.2 with `b = 0`, and three with a sample in the buffer. -/
theorem test_mixSample_rows :
    ([(0, 32767), (0, 32768), (0, -32769), (0, -1), (0, 255), (0, -2147483648), (100, 7168), (-100, -7424),
      (127, -1)] : List (Int × Int)).map (fun p => (mixSample (low8 p.1) (wrap32 p.2)).toInt)
      = [127, 127, -128, -1, 0, -128, 127, -128, 126] := by decide +kernel
theorem test_mixAdd_stores :
    field (fun t => (t.buf, t.mixIdx, t.result))
      (exec (.mixAdd 0xFFFF0000) { State.reset with mixLen := 22, mixCnt := 22, mixIdx := 1 })
      = some ([(1, 0x80)], 2, 0xFFFFFF80) := by decide +kernel
theorem test_mixAdd_no_samples_left :
    field (fun t => (t.status.ecode, t.errinfo))
      (exec (.mixAdd 0) { State.reset with mixLen := 22, mixCnt := 22, mixIdx := 22 })
      = some (3, 22) := by decide
theorem test_mixRd : field State.result
    (exec (.mixRd 1) { State.reset with mixLen := 22, buf := [(0, 127), (1, 0x80)] })
      = some 0xFFFFFF80 := by decide
theorem test_mixRd_outside :
    field (fun t => (t.status.ecode, t.errinfo)) (exec (.mixRd 22) { State.reset with mixLen := 22 })
      = some (3, 22) := by decide
/-- Section 4.3: 127, 0, -1 and -128. -/
theorem test_mixRdpcm_map :
    [0, 1, 2, 3].map (fun p => field State.result (exec (.mixRdpcm p)
      { State.reset with mixLen := 4, buf := [(0, 127), (2, 0xFF), (3, 0x80)] }))
      = [some 0x00, some 0x81, some 0x80, some 0x01] := by decide

/-! Witnesses: for each statement of Obligations.lean with hypotheses, values that meet them together, at the
ends of their ranges where a clause has a range. -/

/-- A FilterSpec at the largest pair counts, with one migrating pair and a moving unity gain. -/
def specFull : FilterSpec :=
  { FilterSpec.zero with
    pcnt := ⟨4, 4⟩
    unity := ⟨0, 0xFFFF⟩
    migr := 0x80
    freq := ⟨FilterSpec.zero.freq.onset, ⟨#v[1, 2, 3, 4], #v[1, 2, 3, 0xFFFF]⟩⟩ }

/-- A buffer of two samples, at whose end a tone of one sample has none left. -/
def mixing : State :=
  { State.reset with mixLen := 2, mixOfs := 1, mixCnt := 1, mixIdx := 1, buf := [(1, 0x80)] }

theorem reset_mixerLegal : MixerLegal State.reset :=
  ⟨rfl, by simp [State.reset], by decide, by decide, by decide⟩

theorem specFull_legal : SpecLegal specFull := by
  refine ⟨fun d => by cases d <;> decide, ?_, ?_⟩
  · intro d e n
    cases d <;> cases e <;> revert n <;> decide
  · intro d n
    cases d <;> revert n <;> decide

theorem zero_legal : SpecLegal FilterSpec.zero := by
  refine ⟨fun d => by cases d <;> decide, ?_, ?_⟩
  · intro d e n
    cases d <;> cases e <;> revert n <;> decide
  · intro d n
    cases d <;> revert n <;> decide

theorem reset_bankLegal : BankLegal State.reset := ⟨by decide, fun d => by cases d <;> decide⟩
theorem reset_recordLegal : RecordLegal State.reset :=
  ⟨fun _ => by decide, fun h => absurd h (by decide)⟩
theorem reset_channelsLegal : ChannelsLegal State.reset := by
  have : ∀ i, pick16 State.reset.oscShape i = 0 ∧ pick16 State.reset.oscPhase i = 0 := by decide
  exact fun i _ => this i

/-- The reset state with something written to the port is legal. -/
theorem sending_legal (p : List PortEvent) : Legal { State.reset with port := p } :=
  ⟨⟨reset_mixerLegal.canonical, reset_mixerLegal.inside, reset_mixerLegal.lenMax, reset_mixerLegal.toneFits,
      reset_mixerLegal.indexFits⟩,
    zero_legal, ⟨reset_bankLegal.unity, reset_bankLegal.counts⟩,
    ⟨reset_recordLegal.clear, reset_recordLegal.recorded⟩, trivial, reset_channelsLegal⟩

theorem witness_DecodeEncodedCommand :
    (Instr.fltLoad (List.replicate 65535 0)).wellFormed = true ∧ (Instr.fltLoad []).wellFormed = true :=
  ⟨wellFormed_replicate 65535 0, rfl⟩
theorem witness_EncodeDecodedCommand :
    decode [0x20000001, 0xAB000001] = .ok (.fltLoad [0xAB]) ∧
      decode [0x10F00000, 1, 2] = .ok (.oscGen 15 1 2) := by decide
theorem witness_OpcodeRowsAsTabulated :
    (0x0200FFFF : Word) &&& 0xFFFF0000 = 0x02000000 ∧ (0x10F00000 : Word) &&& 0xFF0FFFFF = 0x10000000 ∧
      (0x2000FFFF : Word) &&& 0xFFFF0000 = 0x20000000 ∧ (0x21010000 : Word) &&& 0xFFFEFFFF = 0x21000000 ∧
      (List.replicate 16384 (0 : Word)).length = ((immField 0x2000FFFF).toNat + 3) / 4 :=
  ⟨by decide, by decide, by decide, by decide, List.length_replicate⟩
theorem witness_StepRunsDecodedCommand :
    decode ([0x22000000] ++ [5]) = .ok (.fltStep 5) ∧ ([5] : List Word) ≠ [] ∧
      ({ State.reset with asm := [0x22000000], port := [.word 5, .reset] } : State).port
        = [5].map PortEvent.word ++ [.reset] := by decide
theorem witness_IllegalHeader :
    (∀ o : Opc, (0x21020000 : Word) &&& o.mask ≠ o.pattern) ∧ [(7 : Word)].length + 1 = cmdLength 0x21020000 ∧
      (∀ o : Opc, opcField 0x35000000 ≠ o.code) ∧
      [0x23FFFFFF, 0x34000001, 0x31800000, 0x20010000].map opcField = [0x23, 0x34, 0x31, 0x20] :=
  ⟨fun o => by cases o <;> decide, by decide, fun o => by cases o <;> decide, by decide⟩
theorem witness_PartialCommandWaits :
    isPartial (State.reset.asm ++ [0x10000000, 1]) ∧ ¬ isPartial (State.reset.asm ++ [0x10000000, 1, 2]) := by
  simp only [State.reset, List.nil_append, isPartial]; decide
theorem witness_ResetInput :
    isPartial ([0x10000000] ++ [1]) ∧
      ({ State.reset with asm := [0x10000000], port := [.word 1, .reset, .word 2] } : State).port
        = [1].map PortEvent.word ++ PortEvent.reset :: [.word 2] := by
  simp only [isPartial, List.singleton_append]; decide
theorem witness_ZeroWords : Legal { State.reset with port := List.replicate 16385 (PortEvent.word 0) } :=
  sending_legal _
/-- A legal state, in the middle of a command, whose next step runs it: the state of every invariant. -/
theorem witness_StepKeeps :
    Legal (sending State.reset [0x30000000, 190217]) ∧
      field State.mixLen (step (sending State.reset [0x30000000, 190217])) = some 4194284 :=
  ⟨sending_legal _, by decide⟩
theorem witness_RaiseRecordsTheFirstError :
    State.reset.status.err = false ∧ (State.reset.raise .addr 0).status.err = true := by decide
theorem witness_exec_next :
    exec .nop State.reset = .next State.reset ∧
      exec (.mixRd 0) State.reset = .next (State.reset.raise .range 0) := ⟨rfl, rfl⟩
theorem witness_Writers : opcOf (.regWr 0x10 1) = .regWr ∧ opcOf .nop ∈ [Opc.nop, .clrerr, .regWr, .fltClr] ∧
    (15 : BitVec 4) ≠ 0 := by decide
theorem witness_BufferBytesKept :
    opcOf (.mixAdd 0) = .mixAdd ∧ ∃ p, p ≠ mixing.mixOfs.toNat + mixing.mixIdx.toNat := ⟨rfl, 0, by decide⟩
theorem witness_channel_zero : (0 : BitVec 4).toNat < Config.nOsc := Nat.succ_pos _
/-- Where there are fewer than sixteen channels, channel 15 is one that does not exist. -/
theorem witness_channel_absent (h : Config.nOsc < 16) : Config.nOsc ≤ (15 : BitVec 4).toNat :=
  Nat.le_of_lt_succ h
theorem witness_OtherAddressesRaise :
    (∀ r : Reg, r.present → r.address ≠ (0xFFFF : Half).toNat) ∧
      (∀ r : Reg, r.present → r.writable → r.address ≠ (0x0100 : Half).toNat) := by
  have h16 : ∀ i : BitVec 4, i.toNat < 16 := fun i => i.isLt
  have h8 : ∀ i : BitVec 3, i.toNat < 8 := fun i => i.isLt
  have h4 : ∀ i : BitVec 2, i.toNat < 4 := fun i => i.isLt
  constructor
  · intro r _
    cases r with
    | oscShape i => have := h16 i; simp [Reg.address]; omega
    | oscPhase i => have := h16 i; simp [Reg.address]; omega
    | fsUnity e => cases e <;> decide
    | fsFreq d e n => have := h4 n; cases d <;> cases e <;> simp [Reg.address, dirNumber, endNumber] <;> omega
    | fsRange d e n => have := h4 n; cases d <;> cases e <;> simp [Reg.address, dirNumber, endNumber] <;> omega
    | fltNco d => cases d <;> decide
    | fltC16 d k => have := h8 k; cases d <;> simp [Reg.address, dirNumber] <;> omega
    | fltXh k => have := h8 k; simp [Reg.address]; omega
    | fltYh k => have := h8 k; simp [Reg.address]; omega
    | _ => decide
  · intro r _ hw
    cases r with
    | oscShape i => have := h16 i; simp [Reg.address]; omega
    | oscPhase i => have := h16 i; simp [Reg.address]; omega
    | _ => exact absurd hw (by simp [Reg.writable])
theorem witness_shape_codes : (0 : Byte).toNat = 0 ∧ 4 < (5 : Byte).toNat ∧ (5 : Byte) ≠ 4 := by decide
theorem witness_SineShape :
    (-2147483648 ≤ (-2147483648 : Int) ∧ (-2147483648 : Int) ≤ 2147483647) ∧
      romSin ((0 : Int) % 32768).toNat ≠ -16384 ∧ romSin ((-8192 : Int) % 32768).toNat = -16384 := by
  decide +kernel
theorem witness_RomSin : 32767 < 32768 := by decide
theorem witness_Sawtooth :
    (0 < (1 : Int) ∧ (2147483647 : Int) ≤ 2147483647) ∧ (-32768 : Int) % 32768 = 0 ∧
      (-16384 : Int) % 32768 = 16384 := by decide
theorem witness_Noise : (-2606 ≤ (-2606 : Int) ∧ (2606 : Int) ≤ 2606) ∧ 0 ≤ (0 : Int) := by decide
theorem witness_FltLoad :
    SpecLegal specFull ∧ 0 < specFull.pcnt.onset.toNat + specFull.pcnt.release.toNat ∧
      41 < recordLength specFull ∧ recordLength specFull = 42 :=
  ⟨specFull_legal, by decide, by decide +kernel, by decide +kernel⟩
theorem witness_FltLoadPairCount : 4 < (0x50 : Byte).toNat / 16 ∧ 4 < (0x05 : Byte).toNat % 16 := by decide
theorem witness_FltEval :
    (65536 : Word).toNat ≤ 65536 ∧ 65536 < (65537 : Word).toNat ∧ specFull.pcnt.onset.toNat ≤ 4 ∧
      specFull.pcnt.release.toNat ≤ 4 := by decide
theorem witness_Interpolation : 65535 < 65536 ∧ 0 < 65536 ∧ 65536 ≤ 65536 := by decide
/-- The argument classes of the configuration functions: both zeros, a negative value, and 8. -/
theorem witness_ConfigurationFunctions :
    fpVal ⟨true, 0, 0⟩ = 0 ∧ fpVal ⟨true, 1, 0⟩ ≤ 0 ∧ 0 ≤ fpVal ⟨false, 1, 3⟩ ∧ fpVal ⟨false, 1, 3⟩ ≤ 8 := by
  norm_num [fpVal, fpMag]
/-- A value that every range of R222 admits. -/
theorem witness_lawful_value (f : FpFmt) : inFormat f (flInt f 1) = true ∧ fpVal (flInt f 1) = 1 :=
  ⟨inFormat_one f, by rw [← isOne_iff]; cases f <;> decide +kernel⟩
/-- The interpolated unity value is 0 at the end of an envelope that falls to 0. -/
theorem witness_UnityGain :
    unityLawful libOnes { FilterSpec.zero with unity := ⟨0xFFFF, 0⟩ } (position .binary32 65536) = true ∧
      fpVal (interp .binary32 0xFFFF 0 (position .binary32 65536)) = 0 :=
  ⟨by decide +kernel, by rw [← isZero_iff]; decide +kernel⟩
theorem witness_PairFactors : pairLawful libOnes specFull .release (position .binary32 65536) 3 = true := by
  decide +kernel
/-- Functions that obey R222 where FLT_EVAL asks for them, at the largest pair counts, and functions that do
not. -/
theorem witness_CoefficientsNeverOverflow :
    (∀ d, (specFull.pcnt.get d).toNat ≤ 4 ∧ evalLawful libOnes specFull d (position .binary32 65536) = true) ∧
      (specRel1.pcnt.get .release).toNat ≤ 4 ∧
      evalLawful libBroken specRel1 .release (position .binary32 0) = false :=
  ⟨fun d => by cases d <;> decide +kernel, by decide, by decide +kernel⟩
theorem witness_StaticPairs :
    (∀ n, pick4 specRel1.freq.release.start n = pick4 specRel1.freq.release.stop n) ∧
      (∀ n, pick4 specRel1.range.release.start n = pick4 specRel1.range.release.stop n) := by decide
theorem witness_ZeroRange :
    ∃ fs : FilterSpec, (fs.pcnt.get .release).toNat = 1 ∧ pick4 (fs.range.get .release).start 0 = 0 ∧
      pick4 (fs.range.get .release).stop 0 = 0 ∧
      pairLawful libOnes fs .release (position .binary32 65536) 0 = true ∧
      evalLawful libOnes fs .release (position .binary32 65536) = true :=
  ⟨{ FilterSpec.zero with pcnt := ⟨0, 1⟩ }, by decide +kernel⟩
theorem witness_FltStep : (8 : BitVec 4).toNat ≤ 8 ∧
    ({ State.reset with unity16 := 65536 } : State).nco = ⟨0, 0⟩ := by decide
theorem witness_MixInit : (190217 : Word).toNat ≤ 190217 ∧ 190217 < (190218 : Word).toNat := by decide
/-- A tone that ends exactly at the buffer's end, and one that ends a sample after it. -/
theorem witness_MixTone :
    (1000 : Word).toNat * 22050 / 1000 + (0 : Word).toNat * 22050 / 1000 ≤ (22050 : Word).toNat ∧
      (22049 : Word).toNat < (1000 : Word).toNat * 22050 / 1000 + (0 : Word).toNat * 22050 / 1000 := by decide
theorem witness_AnnouncedTonesFit :
    (190217 : Word).toNat + (0 : Word).toNat ≤ (190217 : Word).toNat ∧
      field State.mixLen (exec (.mixInit 190217) State.reset) = some 4194284 := by decide
theorem witness_MixAdd :
    MixerLegal mixing ∧ mixing.mixCnt.toNat ≤ mixing.mixIdx.toNat ∧
      MixerLegal { mixing with mixIdx := 0 } ∧ (0 : Word).toNat < mixing.mixCnt.toNat :=
  ⟨⟨rfl, by decide, by decide, by decide, by decide⟩, by decide,
    ⟨rfl, by decide, by decide, by decide, by decide⟩, by decide⟩
theorem witness_Saturation : |(-2147483647 : Int)| < 2147483648 := by decide
theorem witness_MixRead :
    (1 : Word).toNat < mixing.mixLen.toNat ∧ mixing.mixLen.toNat ≤ (2 : Word).toNat ∧
      Memory.wf mixing.buf = true := by decide

end Sys2Proof.Tests
end

section
/-! The record of FLT_LOAD with a zero count byte (R122, R203): both pair counts are 0, so the check of R202
passes, the parse ends after one byte with the zero FilterSpec, and nothing announces an envelope block. -/

namespace Sys2Proof.Machine

/-- A byte that is there is read, and the offset moves past it (R207). -/
theorem rd8_cons (o : Nat) (b : Byte) (rest : List Byte) : rd8 ⟨o, b :: rest⟩ = .ok (b, ⟨o + 1, rest⟩) := rfl

/-- The count byte is all a record without pairs has: both nibbles pass the check of R202, and whatever follows the
byte is not read (R203). -/
theorem parseRecord_zero_cons (extra : List Byte) :
    parseRecord (0 :: extra) = .ok (FilterSpec.zero, false, 1) := by
  simp only [parseRecord, rd8_cons, ok_bind]
  rw [if_neg (by decide), if_pos trivial]

/-- FLT_LOAD of a record that parses: the FilterSpec and ENVREQ are replaced, RESULT is the length (R201, R206). -/
theorem exec_fltLoad_of_parseRecord_ok {bytes : List Byte} {fs : FilterSpec} {env : Bool} {len : Nat}
    (h : parseRecord bytes = .ok (fs, env, len)) (s : State) :
    exec (.fltLoad bytes) s = .next ((s.loadSpec fs env).completeWith (BitVec.ofNat 32 len)) := by
  simp only [exec, execFltLoad, h]

/-- Settles O37: the parse of a zero count byte, in the rule for a record that parses. -/
theorem fltLoadZeroCountByte : Obligations.FltLoadZeroCountByte := by
  intro extra s
  exact exec_fltLoad_of_parseRecord_ok (parseRecord_zero_cons extra) s

end Sys2Proof.Machine
end

section
/-! The waveforms other than the sine table (R173 to R175, R177, R178): the integer operators in Lean's own
division, one equation for each shape code, and the levels of the sawtooth between minus and plus the amplitude. -/

namespace Sys2Proof.Machine

theorem wrap32_toInt {v : Int} (hlo : -2147483648 ≤ v) (hhi : v ≤ 2147483647) : (wrap32 v).toInt = v := by
  rw [wrap32, BitVec.toInt_ofInt]
  exact Int.bmod_eq_of_le (by omega) (by omega)

/-- The one magnitude that 32 bits hold only with the minus sign (R12). -/
theorem wrap32_two_pow_31_toInt : (wrap32 2147483648).toInt = -2147483648 := by decide

/-- The shift by 14 places is division by 16384, rounded down (R13). -/
theorem asr_fourteen_eq_floor (v : Int) : asr v 14 = ⌊(v : ℚ) / 16384⌋ := by
  exact_mod_cast (Rat.floor_intCast_div_natCast v 16384).symm

theorem widx_eq_emod (ph : Int) : (widx ph : Int) = ph % 32768 :=
  Int.toNat_of_nonneg (Int.emod_nonneg ph (by decide))

theorem widx_lt (ph : Int) : widx ph < 32768 := by
  have := widx_eq_emod ph
  omega

theorem widx_add_period (ph k : Int) : widx (ph + 32768 * k) = widx ph := by
  simp only [widx, and15, Int.add_mul_emod_self_left]

/-! One equation for each shape code. -/

theorem wave_zero_shape {code : Byte} (h : code.toNat = 0 ∨ 4 < code.toNat) (ph a : Int) : wave code ph a = 0 := by
  unfold wave
  split
  any_goals omega
  rfl

theorem wave_square (ph a : Int) : wave 1 ph a = wrap32 (if ph % 32768 < 16384 then a else -a) := by
  have hw := widx_eq_emod ph
  change waveSquare ph a = _
  unfold waveSquare
  split
  · rw [if_pos (by omega)]
  · rw [if_neg (by omega)]

theorem wave_sine (ph a : Int) : wave 2 ph a = wrap32 (asr (romSin (widx ph) * a) 14) := rfl

theorem wave_saw (ph a : Int) : wave 3 ph a = wrap32 (asr (ph % 32768 * a) 14 - a) := by
  rw [← widx_eq_emod]
  rfl

theorem wave_noise (ph a : Int) : wave 4 ph a = wrap32 (romNoise (Int.tdiv ph 2607 % 32768).toNat * a) := rfl

/-- Every shape but noise reads the phase only through the waveform index (R173). -/
theorem wave_congr_of_widx_eq {code : Byte} (hc : code ≠ 4) {ph ph' : Int} (h : widx ph = widx ph') (a : Int) :
    wave code ph a = wave code ph' a := by
  unfold wave
  split
  next => simp only [waveSquare, h]
  next => simp only [waveSine, h]
  next => simp only [waveSaw, h]
  next h4 => exact absurd (BitVec.eq_of_toNat_eq h4) hc
  next => rfl

/-- Settles O29. -/
theorem zeroShapeOutputsZero : Obligations.ZeroShapeOutputsZero :=
  fun _ ph a h => wave_zero_shape h ph a

/-- Settles O30: at amplitude -2^31 the negated half wraps back to -2^31. -/
theorem squareShapeIsPlusOrMinusAmplitude : Obligations.SquareShapeIsPlusOrMinusAmplitude := by
  intro ph a
  refine ⟨wave_square ph a, ?_⟩
  rw [wave_square]
  split
  · exact wrap32_toInt (by decide) (by decide)
  · exact wrap32_two_pow_31_toInt

/-- Settles O31: the index forgets whole periods, and the index is all that these shapes read. -/
theorem shapesButNoiseHavePeriod32768 : Obligations.ShapesButNoiseHavePeriod32768 :=
  ⟨widx_eq_emod, by decide, fun _ ph a k hc => wave_congr_of_widx_eq hc (widx_add_period ph k) a⟩

/-! The sawtooth's level before it is cut to 32 bits, for an index of the period. -/

/-- The level of the sawtooth at index `i` (R177). -/
def sawLevel (i a : Int) : Int := asr (i * a) 14 - a

theorem sawLevel_eq (i a : Int) : sawLevel i a = i * a / 16384 - a := rfl

theorem wave_saw_eq_sawLevel (ph a : Int) : wave 3 ph a = wrap32 (sawLevel (ph % 32768) a) := wave_saw ph a

theorem sawLevel_start (a : Int) : sawLevel 0 a = -a := by
  rw [sawLevel_eq]; omega

theorem sawLevel_middle (a : Int) : sawLevel 16384 a = 0 := by
  rw [sawLevel_eq]; omega

theorem sawLevel_mono {i j a : Int} (h : i ≤ j) (ha : 0 ≤ a) : sawLevel i a ≤ sawLevel j a := by
  have := Int.ediv_le_ediv (show (0 : Int) < 16384 by decide) (mul_le_mul_of_nonneg_right h ha)
  simp only [sawLevel_eq]
  omega

theorem sawLevel_anti {i j a : Int} (h : i ≤ j) (ha : a ≤ 0) : sawLevel j a ≤ sawLevel i a := by
  have := Int.ediv_le_ediv (show (0 : Int) < 16384 by decide) (mul_le_mul_of_nonpos_right h ha)
  simp only [sawLevel_eq]
  omega

/-- A rising sawtooth starts at minus the amplitude, and its last level is still below plus the amplitude. -/
theorem sawLevel_bounds_of_pos {i a : Int} (h0 : 0 ≤ i) (h1 : i ≤ 32767) (ha : 0 < a) :
    -a ≤ sawLevel i a ∧ sawLevel i a < a := by
  have hlo := sawLevel_mono h0 ha.le
  have hhi := sawLevel_mono h1 ha.le
  rw [sawLevel_start] at hlo
  refine ⟨hlo, hhi.trans_lt ?_⟩
  rw [sawLevel_eq]; omega

theorem sawLevel_bounds_of_nonpos {i a : Int} (h0 : 0 ≤ i) (h1 : i ≤ 32767) (ha : a ≤ 0) :
    a ≤ sawLevel i a ∧ sawLevel i a ≤ -a := by
  have hlo := sawLevel_anti h1 ha
  have hhi := sawLevel_anti h0 ha
  rw [sawLevel_start] at hhi
  refine ⟨le_trans ?_ hlo, hhi⟩
  rw [sawLevel_eq]; omega

/-- Short of amplitude -2^31 every level fits 32 bits. -/
theorem wave_saw_toInt (ph : Int) {a : Int} (hlo : -2147483648 < a) (hhi : a ≤ 2147483647) :
    (wave 3 ph a).toInt = sawLevel (ph % 32768) a := by
  have h0 : 0 ≤ ph % 32768 := Int.emod_nonneg ph (by decide)
  have h1 : ph % 32768 ≤ 32767 := by omega
  rw [wave_saw_eq_sawLevel]
  rcases lt_or_ge 0 a with ha | ha
  · have := sawLevel_bounds_of_pos h0 h1 ha
    exact wrap32_toInt (by omega) (by omega)
  · have := sawLevel_bounds_of_nonpos h0 h1 ha
    exact wrap32_toInt (by omega) (by omega)

/-- Settles O34, from the monotone levels and the bounds at the two ends of the period. -/
theorem sawtoothShapeRisesBelowAmplitude : Obligations.SawtoothShapeRisesBelowAmplitude := by
  refine ⟨by decide, fun ph ph' a hlo hhi hph => ⟨fun ha => ?_, fun ha => ⟨?_, fun h0 => ?_⟩⟩,
    fun ph a => ⟨?_, fun ha hhi => ?_, fun h0 => ?_⟩⟩
  · simpa only [wave_saw_toInt _ hlo hhi] using sawLevel_mono hph ha.le
  · simpa only [wave_saw_toInt _ hlo hhi] using sawLevel_anti hph ha.le
  · rw [wave_saw_toInt _ hlo hhi, h0, sawLevel_start]
  · rw [wave_saw, asr_fourteen_eq_floor, wrap32]
  · obtain ⟨hlow, hhigh⟩ := sawLevel_bounds_of_pos (i := ph % 32768) (by omega) (by omega) ha
    rw [wave_saw_toInt _ (by omega) hhi]
    exact ⟨hlow, hhigh, fun h => by rw [h, sawLevel_start], fun h => by rw [h, sawLevel_middle]⟩
  · rw [wave_saw_eq_sawLevel, h0, sawLevel_start]
    exact wrap32_two_pow_31_toInt

/-! The noise shape. -/

theorem romNoise_eq_one_or_neg_one (i : Nat) : romNoise i = 1 ∨ romNoise i = -1 := by
  unfold romNoise
  split
  · exact .inl rfl
  · exact .inr rfl

/-- The noise index returns after `85426176 = 2607 * 32768` units of a phase that is not negative (R178). -/
theorem noise_index_add_period {ph : Int} (h : 0 ≤ ph) (k : Nat) :
    Int.tdiv (ph + 85426176 * k) 2607 % 32768 = Int.tdiv ph 2607 % 32768 := by
  rw [Int.tdiv_eq_ediv_of_nonneg h, Int.tdiv_eq_ediv_of_nonneg (by omega)]
  omega

/-- The division toward zero sends the phases on both sides of 0 to entry 0 (R13, R178). -/
theorem noise_quotient_eq_zero {ph : Int} (hlo : -2606 ≤ ph) (hhi : ph ≤ 2606) : Int.tdiv ph 2607 = 0 := by
  rw [← Int.natAbs_eq_zero, Int.natAbs_tdiv]
  exact Nat.div_eq_of_lt (by omega)

/-- Settles O35. -/
theorem noiseShapeUsesTheWholePhase : Obligations.NoiseShapeUsesTheWholePhase := by
  refine ⟨wave_noise, fun ph a => ?_, fun ph a hlo hhi => ?_, fun a => rfl, fun ph a k h => ?_, by decide⟩
  · rw [wave_noise]
    rcases romNoise_eq_one_or_neg_one (Int.tdiv ph 2607 % 32768).toNat with h | h
    · exact .inl (by rw [h, one_mul, wrap32])
    · exact .inr (by rw [h, neg_one_mul, wrap32])
  · rw [wave_noise, noise_quotient_eq_zero hlo hhi]
    rfl
  · rw [wave_noise, wave_noise, noise_index_add_period h]

end Sys2Proof.Machine
end

section
/-! The sine table (R171): the series of the model as an alternating sum, its distance from the real sine, and the
distance of its values from a tie, which makes the rounded value the nearest integer to the real sine as well. -/

namespace Sys2Proof.Machine

/-! The series in exact fractions. -/

/-- A numerator and a denominator stand for a real number above 0 and at most 1. -/
def IsFraction (t : Nat × Nat) (v : ℝ) : Prop := 0 < t.1 ∧ t.1 ≤ t.2 ∧ (t.1 : ℝ) / t.2 = v

/-- One factor of the sine series over the real numbers, `y` the square of the angle. -/
noncomputable def sineTerm (y v : ℝ) (j : Nat) : ℝ := 1 - y / (2 * j * (2 * j + 1)) * v

/-- One factor of the sine series in exact fractions (R171). -/
def sineStep (n2 d2 : Nat) (t : Nat × Nat) (j : Nat) : Nat × Nat :=
  (t.2 * (d2 * (2 * j * (2 * j + 1))) - n2 * t.1, t.2 * (d2 * (2 * j * (2 * j + 1))))

theorem sineFactor_eq_foldl (n2 d2 : Nat) (js : List Nat) :
    sineFactor n2 d2 js = js.foldl (sineStep n2 d2) (1, 1) := rfl

/-- Below an angle of `√6` no subtraction is cut at 0, so one factor in fractions is the real one. -/
theorem sineStep_isFraction {n2 d2 j : Nat} (hj : 1 ≤ j) (hn : n2 < 6 * d2) {t : Nat × Nat} {v : ℝ}
    (h : IsFraction t v) : IsFraction (sineStep n2 d2 t j) (sineTerm ((n2 : ℝ) / d2) v j) := by
  obtain ⟨hpos, hle, rfl⟩ := h
  have hd : 0 < d2 := by omega
  have ht : 0 < t.2 := by omega
  have hsix : 6 ≤ 2 * j * (2 * j + 1) := by nlinarith
  have hlt : n2 * t.1 < t.2 * (d2 * (2 * j * (2 * j + 1))) := by
    calc n2 * t.1 ≤ n2 * t.2 := Nat.mul_le_mul_left _ hle
      _ < 6 * d2 * t.2 := Nat.mul_lt_mul_of_pos_right hn ht
      _ ≤ t.2 * (d2 * (2 * j * (2 * j + 1))) := by nlinarith [Nat.mul_le_mul_left (t.2 * d2) hsix]
  refine ⟨Nat.sub_pos_of_lt hlt, Nat.sub_le _ _, ?_⟩
  simp only [sineStep, sineTerm, Nat.cast_sub hlt.le]
  push_cast
  have : (0 : ℝ) < j := by exact_mod_cast hj
  have : (0 : ℝ) < d2 := by exact_mod_cast hd
  have : (0 : ℝ) < t.2 := by exact_mod_cast ht
  field_simp

theorem foldl_sineStep_isFraction {n2 d2 : Nat} (hn : n2 < 6 * d2) {js : List Nat} (hjs : ∀ j ∈ js, 1 ≤ j)
    {t : Nat × Nat} {v : ℝ} (h : IsFraction t v) :
    IsFraction (js.foldl (sineStep n2 d2) t) (js.foldl (sineTerm ((n2 : ℝ) / d2)) v) := by
  induction js generalizing t v with
  | nil => exact h
  | cons j js ih =>
    obtain ⟨hj, hrest⟩ := List.forall_mem_cons.mp hjs
    exact ih hrest (sineStep_isFraction hj hn h)

theorem sineFactor_isFraction {n2 d2 : Nat} (hn : n2 < 6 * d2) {js : List Nat} (hjs : ∀ j ∈ js, 1 ≤ j) :
    IsFraction (sineFactor n2 d2 js) (js.foldl (sineTerm ((n2 : ℝ) / d2)) 1) :=
  foldl_sineStep_isFraction hn hjs ⟨Nat.one_pos, le_rfl, by norm_num⟩

/-! The series and the real sine. -/

/-- The sine series cut after nine terms. -/
noncomputable def sineSeries (x : ℝ) : ℝ :=
  ∑ i ∈ Finset.range 9, (-1) ^ i * (x ^ (2 * i + 1) / (2 * i + 1).factorial)

/-- The eight factors of the model's series are the first nine terms of the sine's. -/
theorem sineSeries_eq_foldl (x : ℝ) :
    sineSeries x = x * [8, 7, 6, 5, 4, 3, 2, 1].foldl (sineTerm (x ^ 2)) 1 := by
  simp only [sineSeries, Finset.sum_range_succ, Finset.sum_range_zero, List.foldl, sineTerm, Nat.factorial]
  push_cast
  ring

/-- Up to an angle of 2 the terms of the sine series fall in magnitude. -/
theorem antitone_sine_terms {x : ℝ} (h0 : 0 ≤ x) (h2 : x ≤ 2) :
    Antitone fun i : ℕ => x ^ (2 * i + 1) / ((2 * i + 1).factorial : ℝ) := by
  refine antitone_nat_of_succ_le fun i => ?_
  have hfac : (2 * (i + 1) + 1).factorial = (2 * i + 3) * (2 * i + 2) * (2 * i + 1).factorial := by
    rw [show 2 * (i + 1) + 1 = 2 * i + 1 + 1 + 1 by ring, Nat.factorial_succ, Nat.factorial_succ]
    ring
  rw [hfac, div_le_div_iff₀ (by positivity) (by positivity)]
  push_cast
  have hpow : 0 ≤ x ^ (2 * i + 1) * ((2 * i + 1).factorial : ℝ) := by positivity
  have hsq : x ^ 2 ≤ (2 * i + 3) * (2 * i + 2) := by
    have : (0 : ℝ) ≤ i := Nat.cast_nonneg i
    nlinarith
  calc x ^ (2 * (i + 1) + 1) * ((2 * i + 1).factorial : ℝ)
      = x ^ (2 * i + 1) * ((2 * i + 1).factorial : ℝ) * x ^ 2 := by ring
    _ ≤ x ^ (2 * i + 1) * ((2 * i + 1).factorial : ℝ) * ((2 * i + 3) * (2 * i + 2)) :=
        mul_le_mul_of_nonneg_left hsq hpow
    _ = x ^ (2 * i + 1) * ((2 * i + 3) * (2 * i + 2) * ((2 * i + 1).factorial : ℝ)) := by ring

/-- The cut series misses the sine by at most the first term left out. -/
theorem abs_sin_sub_sineSeries_le {x : ℝ} (h0 : 0 ≤ x) (h2 : x ≤ 2) :
    |Real.sin x - sineSeries x| ≤ x ^ 19 / (Nat.factorial 19 : ℝ) := by
  have hsum : Summable fun i : ℕ => x ^ (2 * i + 1) / ((2 * i + 1).factorial : ℝ) :=
    (Real.summable_pow_div_factorial x).comp_injective (i := fun i : ℕ => 2 * i + 1) fun i j h => by
      simp only at h; omega
  have htsum : Real.sin x = ∑' i : ℕ, (-1) ^ i * (x ^ (2 * i + 1) / ((2 * i + 1).factorial : ℝ)) := by
    simp only [Real.sin_eq_tsum, mul_div_assoc]
  rw [htsum]
  exact alternating_series_error_bound _ (antitone_sine_terms h0 h2) hsum 9

/-! The first quarter of the table. -/

/-- The unrounded entry of the first quarter, as a numerator and a denominator. -/
def quarterRatio (k : Nat) : Nat × Nat :=
  let f := sineFactor (k * piScaled * (k * piScaled)) (16384 * 10 ^ 20 * (16384 * 10 ^ 20)) [8, 7, 6, 5, 4, 3, 2, 1]
  (16384 * (k * piScaled) * f.1, 16384 * 10 ^ 20 * f.2)

theorem quarterSine_eq (k : Nat) :
    quarterSine k = (2 * (quarterRatio k).1 + (quarterRatio k).2) / (2 * (quarterRatio k).2) := rfl

/-- The angle of entry `k` as the model has it, with pi cut after twenty decimals. -/
noncomputable def tableAngle (k : Nat) : ℝ := (k : ℝ) * piScaled / (16384 * 10 ^ 20)

/-- In the first quarter the model's angle lies between 0 and 2. -/
theorem tableAngle_bounds {k : Nat} (hk : k ≤ 8192) : 0 ≤ tableAngle k ∧ tableAngle k ≤ 2 := by
  have hk' : (k : ℝ) ≤ 8192 := by exact_mod_cast hk
  refine ⟨by unfold tableAngle; positivity, ?_⟩
  rw [tableAngle, div_le_iff₀ (by norm_num)]
  norm_num [piScaled]
  linarith

theorem quarterRatio_value {k : Nat} (hk : k ≤ 8192) :
    0 < (quarterRatio k).2 ∧
      ((quarterRatio k).1 : ℝ) / (quarterRatio k).2 = 16384 * sineSeries (tableAngle k) := by
  have hn : k * piScaled * (k * piScaled) < 6 * (16384 * 10 ^ 20 * (16384 * 10 ^ 20)) := by
    have : k * piScaled ≤ 8192 * piScaled := Nat.mul_le_mul_right _ hk
    exact (Nat.mul_le_mul this this).trans_lt (by norm_num [piScaled])
  obtain ⟨hpos, hle, hval⟩ := sineFactor_isFraction hn (js := [8, 7, 6, 5, 4, 3, 2, 1]) (by decide)
  refine ⟨Nat.mul_pos (by norm_num) (hpos.trans_le hle), ?_⟩
  have hsq : ((k * piScaled * (k * piScaled) : ℕ) : ℝ) / (16384 * 10 ^ 20 * (16384 * 10 ^ 20) : ℕ)
      = tableAngle k ^ 2 := by
    push_cast [tableAngle]
    ring
  rw [sineSeries_eq_foldl, ← hsq, ← hval, tableAngle]
  simp only [quarterRatio]
  push_cast
  ring

/-- The pi of the model is right to twenty decimals, so the angle is. -/
theorem abs_tableAngle_sub_le {k : Nat} (hk : k ≤ 8192) :
    |tableAngle k - k * Real.pi / 16384| ≤ 1 / 10 ^ 20 := by
  have hk' : (k : ℝ) ≤ 8192 := by exact_mod_cast hk
  have hpi : |(piScaled : ℝ) / 10 ^ 20 - Real.pi| ≤ 1 / 10 ^ 20 := by
    have := Real.pi_gt_d20
    have := Real.pi_lt_d20
    rw [abs_le]
    constructor <;> norm_num [piScaled] at * <;> linarith
  have hfactor : tableAngle k - k * Real.pi / 16384 = (k : ℝ) / 16384 * ((piScaled : ℝ) / 10 ^ 20 - Real.pi) := by
    rw [tableAngle]
    ring
  have hle : (k : ℝ) / 16384 ≤ 1 := by linarith
  rw [hfactor, abs_mul, abs_of_nonneg (by positivity : (0 : ℝ) ≤ (k : ℝ) / 16384)]
  exact (mul_le_of_le_one_left (abs_nonneg _) hle).trans hpi

/-- The unrounded entry is less than a ten-millionth away from the scaled real sine. -/
theorem abs_series_sub_sin_lt {k : Nat} (hk : k ≤ 8192) :
    |16384 * sineSeries (tableAngle k) - 16384 * Real.sin (k * Real.pi / 16384)| < 1 / 10 ^ 7 := by
  obtain ⟨h0, h2⟩ := tableAngle_bounds hk
  have hseries : |Real.sin (tableAngle k) - sineSeries (tableAngle k)| ≤ 2 ^ 19 / (Nat.factorial 19 : ℝ) :=
    (abs_sin_sub_sineSeries_le h0 h2).trans (by gcongr)
  have hangle := (Real.abs_sin_sub_sin_le (tableAngle k) (k * Real.pi / 16384)).trans (abs_tableAngle_sub_le hk)
  norm_num [Nat.factorial] at hseries
  rw [abs_le] at hseries hangle
  rw [abs_lt]
  obtain ⟨hs1, hs2⟩ := hseries
  obtain ⟨ha1, ha2⟩ := hangle
  norm_num at ha1 ha2 ⊢
  constructor <;> linarith

/-! Rounding: no unrounded entry is near a tie, so rounding the series rounds the sine. -/

/-- A fraction is at least half a millionth away from every tie: the remainder of its rounded quotient, of `2 * t.2`
parts, is neither among the lowest nor among the highest. -/
def FarFromTie (t : Nat × Nat) : Prop :=
  t.2 ≤ 1000000 * ((2 * t.1 + t.2) % (2 * t.2)) ∧ 1000000 * ((2 * t.1 + t.2) % (2 * t.2)) ≤ 1999999 * t.2

/-- Rounding such a fraction moves it by less than one half, by a margin. -/
theorem FarFromTie.abs_round_sub_le {t : Nat × Nat} (h : FarFromTie t) (ht : 0 < t.2) :
    |(((2 * t.1 + t.2) / (2 * t.2) : ℕ) : ℝ) - t.1 / t.2| ≤ 1 / 2 - 1 / 2000000 := by
  obtain ⟨hlo, hhi⟩ := h
  have hdiv := Nat.div_add_mod (2 * t.1 + t.2) (2 * t.2)
  generalize (2 * t.1 + t.2) % (2 * t.2) = r at *
  generalize (2 * t.1 + t.2) / (2 * t.2) = q at *
  have ht' : (0 : ℝ) < t.2 := by exact_mod_cast ht
  have hdiv' : 2 * (t.2 : ℝ) * q + r = 2 * t.1 + t.2 := by exact_mod_cast hdiv
  have hlo' : (t.2 : ℝ) ≤ 1000000 * r := by exact_mod_cast hlo
  have hhi' : 1000000 * (r : ℝ) ≤ 1999999 * t.2 := by exact_mod_cast hhi
  have hdist : (q : ℝ) - t.1 / t.2 = (t.2 - r) / (2 * t.2) := by
    field_simp
    linarith
  rw [hdist, abs_le, le_div_iff₀ (by positivity), div_le_iff₀ (by positivity)]
  constructor <;> linarith

/-- No entry of the first quarter is near a tie. That is a fact about each entry on its own: nothing but the value
tells how near to a tie it falls, so the kernel computes them, in blocks of 64. -/
theorem quarterRatio_farFromTie_block : ∀ b < 129, ∀ r < 64, FarFromTie (quarterRatio (64 * b + r)) := by
  unfold FarFromTie
  decide +kernel

theorem quarterRatio_farFromTie {k : Nat} (hk : k ≤ 8192) : FarFromTie (quarterRatio k) := by
  have := quarterRatio_farFromTie_block (k / 64) (by omega) (k % 64) (by omega)
  rwa [Nat.div_add_mod] at this

/-- The first quarter of the table is the rounded sine: the margin of the rounding is wider than the series is
off. -/
theorem abs_quarterSine_sub_lt {k : Nat} (hk : k ≤ 8192) :
    |(quarterSine k : ℝ) - 16384 * Real.sin (k * Real.pi / 16384)| < 1 / 2 := by
  obtain ⟨hpos, hval⟩ := quarterRatio_value hk
  have hround := (quarterRatio_farFromTie hk).abs_round_sub_le hpos
  rw [← quarterSine_eq, hval] at hround
  have hseries := abs_series_sub_sin_lt hk
  calc |(quarterSine k : ℝ) - 16384 * Real.sin (k * Real.pi / 16384)|
      ≤ |(quarterSine k : ℝ) - 16384 * sineSeries (tableAngle k)|
        + |16384 * sineSeries (tableAngle k) - 16384 * Real.sin (k * Real.pi / 16384)| := abs_sub_le _ _ _
    _ < 1 / 2 := by linarith

/-! The whole table, by the symmetries of the sine. -/

/-- Every entry is plus or minus an entry of the first quarter, and the sine has the same symmetry. -/
theorem romSin_symmetry {i : Nat} (hi : i < 32768) : ∃ k ≤ 8192,
    (romSin i = quarterSine k ∧ Real.sin (i * Real.pi / 16384) = Real.sin (k * Real.pi / 16384)) ∨
    (romSin i = -(quarterSine k : Int) ∧
      Real.sin (i * Real.pi / 16384) = -Real.sin (k * Real.pi / 16384)) := by
  unfold romSin
  split_ifs with h1 h2 h3
  · exact ⟨i, h1, .inl ⟨rfl, rfl⟩⟩
  · refine ⟨16384 - i, by omega, .inl ⟨rfl, ?_⟩⟩
    rw [← Real.sin_pi_sub, Nat.cast_sub h2]
    push_cast
    ring_nf
  · refine ⟨i - 16384, by omega, .inr ⟨rfl, ?_⟩⟩
    rw [← Real.sin_add_pi, Nat.cast_sub (by omega)]
    push_cast
    ring_nf
  · refine ⟨32768 - i, by omega, .inr ⟨rfl, ?_⟩⟩
    rw [← Real.sin_two_pi_sub, Nat.cast_sub hi.le]
    push_cast
    ring_nf

theorem abs_romSin_sub_lt {i : Nat} (hi : i < 32768) :
    |(romSin i : ℝ) - 16384 * Real.sin (i * Real.pi / 16384)| < 1 / 2 := by
  obtain ⟨k, hk, ⟨hrom, hsin⟩ | ⟨hrom, hsin⟩⟩ := romSin_symmetry hi <;> rw [hrom, hsin]
  · exact_mod_cast abs_quarterSine_sub_lt hk
  · rw [Int.cast_neg, mul_neg, neg_sub_neg, abs_sub_comm]
    exact_mod_cast abs_quarterSine_sub_lt hk

/-- Where the scaled sine is itself an integer, that integer is the entry. -/
theorem romSin_eq_of_sin_eq {i : Nat} (hi : i < 32768) {z : Int}
    (h : 16384 * Real.sin (i * Real.pi / 16384) = z) : romSin i = z := by
  have hlt := abs_romSin_sub_lt hi
  rw [h, abs_lt] at hlt
  have hlo : (z : ℝ) < romSin i + 1 := by linarith
  have hhi : (romSin i : ℝ) < z + 1 := by linarith
  have : z < romSin i + 1 := by exact_mod_cast hlo
  have : romSin i < z + 1 := by exact_mod_cast hhi
  omega

/-- The sine lies between -1 and 1, and rounding cannot pass the integers at the two ends. -/
theorem romSin_bounds {i : Nat} (hi : i < 32768) : -16384 ≤ romSin i ∧ romSin i ≤ 16384 := by
  have hlt := abs_romSin_sub_lt hi
  have hs := Real.neg_one_le_sin (i * Real.pi / 16384)
  have hs' := Real.sin_le_one (i * Real.pi / 16384)
  rw [abs_lt] at hlt
  have hlo : (-16385 : ℝ) < romSin i := by linarith
  have hhi : (romSin i : ℝ) < 16385 := by linarith
  have : -16385 < romSin i := by exact_mod_cast hlo
  have : romSin i < 16385 := by exact_mod_cast hhi
  omega

/-- Settles O33. -/
theorem romSinIsTheRoundedSine : Obligations.RomSinIsTheRoundedSine := by
  refine ⟨fun i hi => ⟨abs_romSin_sub_lt hi, romSin_bounds hi⟩,
    romSin_eq_of_sin_eq (by decide) ?_, romSin_eq_of_sin_eq (by decide) ?_,
    romSin_eq_of_sin_eq (by decide) ?_, romSin_eq_of_sin_eq (by decide) ?_⟩
  · simp
  · rw [show ((8192 : ℕ) : ℝ) * Real.pi / 16384 = Real.pi / 2 by push_cast; ring, Real.sin_pi_div_two]
    norm_num
  · rw [show ((16384 : ℕ) : ℝ) * Real.pi / 16384 = Real.pi by push_cast; ring, Real.sin_pi]
    norm_num
  · rw [show ((24576 : ℕ) : ℝ) * Real.pi / 16384 = Real.pi / 2 + Real.pi by push_cast; ring,
      Real.sin_add_pi, Real.sin_pi_div_two]
    norm_num

/-! The sine shape. -/

/-- An entry times the amplitude, divided by 16384 and rounded down, keeps the amplitude's bounds. -/
theorem abs_scaled_entry_le {r a : Int} (hr : |r| ≤ 16384) : |asr (r * a) 14| ≤ |a| := by
  have hprod : |r * a| ≤ 16384 * |a| := by
    rw [abs_mul]
    exact mul_le_mul_of_nonneg_right hr (abs_nonneg a)
  rw [abs_le] at hprod
  rw [abs_le, show asr (r * a) 14 = r * a / 16384 from rfl]
  omega

/-- Only amplitude -2^31 at entry -16384 leaves 32 bits (R176). -/
theorem scaled_entry_fits {r a : Int} (hr : |r| ≤ 16384) (hlo : -2147483648 ≤ a) (hhi : a ≤ 2147483647)
    (h : a ≠ -2147483648 ∨ r ≠ -16384) :
    -2147483648 ≤ asr (r * a) 14 ∧ asr (r * a) 14 ≤ 2147483647 := by
  have hb := abs_le.mp (abs_scaled_entry_le (a := a) hr)
  rcases eq_or_ne a (-2147483648) with rfl | ha
  · rw [abs_le] at hr
    rw [show asr (r * -2147483648) 14 = r * -2147483648 / 16384 from rfl]
    omega
  · have : |a| ≤ 2147483647 := abs_le.mpr (by omega)
    omega

/-- Settles O32: the level is within the amplitude, so 32 bits hold it but for the one corner. -/
theorem sineShapeFloorsTheScaledEntry : Obligations.SineShapeFloorsTheScaledEntry := by
  refine ⟨fun ph a hlo hhi => ?_, by decide +kernel, by decide +kernel⟩
  have hr : |romSin (ph % 32768).toNat| ≤ 16384 := abs_le.mpr (romSin_bounds (widx_lt ph))
  have hw : wave 2 ph a = wrap32 (asr (romSin (ph % 32768).toNat * a) 14) := wave_sine ph a
  rw [hw, ← asr_fourteen_eq_floor]
  refine ⟨rfl, fun hne => ?_, fun ha hmin => ?_⟩
  · obtain ⟨hfits, hfits'⟩ := scaled_entry_fits hr hlo hhi hne
    rw [wrap32_toInt hfits hfits']
    exact ⟨rfl, abs_le.mp (abs_scaled_entry_le hr)⟩
  · rw [ha, hmin]
    exact wrap32_two_pow_31_toInt

end Sys2Proof.Machine
end

section
/-! The count byte of FLT_LOAD (R121, R202): its two nibbles are the pair counts, and they are checked before any
other byte is read. -/

namespace Sys2Proof.Machine

/-- The onset pair count is the high nibble (R121). -/
theorem highNibble_toNat (b : Byte) : (b.extractLsb' 4 4).toNat = b.toNat / 16 := by
  rw [BitVec.extractLsb'_toNat, Nat.shiftRight_eq_div_pow]
  omega

/-- The release pair count is the low nibble (R121). -/
theorem lowNibble_toNat (b : Byte) : (b.extractLsb' 0 4).toNat = b.toNat % 16 := by
  rw [BitVec.extractLsb'_toNat, Nat.shiftRight_zero]

/-- A pair count above 4 ends the parse at the count byte: what follows is not looked at, so no record is too short
for this error (R202). -/
theorem parseRecord_pairs_above_four {cnt : Byte} (h : 4 < cnt.toNat / 16 ∨ 4 < cnt.toNat % 16)
    (extra : List Byte) : parseRecord (cnt :: extra) = .error (.fmtPairs, cnt.setWidth 32) := by
  rw [← highNibble_toNat, ← lowNibble_toNat] at h
  simp only [parseRecord, rd8_cons, ok_bind]
  exact if_pos h

/-- FLT_LOAD of a record that does not parse raises the parse's error and stores nothing (R201). -/
theorem exec_fltLoad_of_parseRecord_error {bytes : List Byte} {e : ErrCode} {info : Word}
    (h : parseRecord bytes = .error (e, info)) (s : State) :
    exec (.fltLoad bytes) s = .next (s.raise e info) := by
  simp only [exec, execFltLoad, h]

/-- Settles O38: the parse stops at the count byte, in the rule for a record that does not parse. -/
theorem fltLoadPairCountAboveFourRaises : Obligations.FltLoadPairCountAboveFourRaises := by
  intro cnt extra s h
  rw [exec_fltLoad_of_parseRecord_error (parseRecord_pairs_above_four h extra), BitVec.ofNat_toNat]

end Sys2Proof.Machine
end

section
/-! The position of FLT_EVAL (R223): a quotient by 2^16 of an integer of at most 17 bits is a value of both formats,
so the division rounds nothing off; the command checks the position before anything else. -/

namespace Sys2Proof.Machine

/-- A position is a significand of at most 24 bits at the exponent -16. -/
theorem representable_position (f : FpFmt) {p : Nat} (h : p ≤ 65536) : representable f ((p : ℚ) / 65536) := by
  refine ⟨p, -16, h.trans ?_, ?_, ?_⟩
  · cases f <;> decide
  · cases f <;> decide
  · rw [div_eq_mul_inv]
    norm_num

/-- The divisor of the position is not 0. -/
theorem flInt_65536_mant_ne_zero (f : FpFmt) : (flInt f 65536).mant ≠ 0 := by cases f <;> decide +kernel

/-- The division of R223 is exact. -/
theorem fpVal_position (f : FpFmt) {p : Nat} (h : p ≤ 65536) : fpVal (position f p) = (p : ℚ) / 65536 := by
  have hr := fpDiv_rounds f (flInt f p) (flInt_65536_mant_ne_zero f)
  rw [fpVal_flInt f (v := p) (by omega), fpVal_flInt f (v := 65536) (by norm_num)] at hr
  push_cast at hr
  refine hr.exact_of_representable ?_
  rw [abs_of_nonneg (by positivity)]
  exact representable_position f h

/-- FLT_EVAL at a position above 65536 raises E_RANGE, in any state (R223, R232). -/
theorem exec_fltEval_position_above (d : Dir) {p : Word} (h : 65536 < p.toNat) (s : State) :
    exec (.fltEval d p) s = .next (s.raise .range p) :=
  if_pos h

/-- Settles O42: the exact division, and the check that comes first. -/
theorem positionIsExactAndBounded : Obligations.PositionIsExactAndBounded :=
  ⟨fun f _ h => fpVal_position f h, fun d _ s h => exec_fltEval_position_above d h s⟩

end Sys2Proof.Machine
end

section
/-! FLT_STEP (R240, R241): the taps as a sum over the eight entries in which those at NCO and above count as 0, and
the shift of both histories. -/

namespace Sys2Proof.Machine

/-- The shift of a product by 16 places is division by 65536, rounded down (R13, R240). -/
theorem asr_sixteen_eq_floor (v : Int) : asr v 16 = ⌊(v : ℚ) / 65536⌋ :=
  (Rat.floor_intCast_div_natCast v 65536).symm

/-- The products of a history and a bank, entry by entry. -/
theorem map_zip_toList (hist bank : Vector Word 8) (g : Word × Word → Int) :
    (hist.toList.zip bank.toList).map g = List.ofFn fun k : Fin 8 => g (hist[k.val], bank[k.val]) := by
  apply List.ext_getElem <;> simp [-List.ofFn_succ]

/-- The sum over the first `n` taps is the sum over all eight with the others left out, each product floored on its
own (R240). -/
theorem tapSum_eq_sum (hist bank : Vector Word 8) (n : Nat) :
    tapSum hist bank n = ∑ k : Fin 8, if k.val < n
      then ⌊((hist[k.val].toInt * bank[k.val].toInt : Int) : ℚ) / 65536⌋ else 0 := by
  rw [tapSum, List.map_take, map_zip_toList, List.sum_take_ofFn, Finset.sum_filter]
  simp only [s32, asr_sixteen_eq_floor]

/-- The output with R240's shifts written as floored quotients. -/
theorem filterOutput_eq (s : State) (x : Word) :
    filterOutput s x = BitVec.ofInt 32 (⌊((x.toInt * s.unity16.toInt : Int) : ℚ) / 65536⌋
      + (∑ k : Fin 8, if k.val < s.nco.onset.toNat
          then ⌊((s.xh[k.val].toInt * s.c16.onset[k.val].toInt : Int) : ℚ) / 65536⌋ else 0)
      - (∑ k : Fin 8, if k.val < s.nco.release.toNat
          then ⌊((s.yh[k.val].toInt * s.c16.release[k.val].toInt : Int) : ℚ) / 65536⌋ else 0)) := by
  rw [filterOutput, wrap32, asr_sixteen_eq_floor, tapSum_eq_sum, tapSum_eq_sum]

/-- FLT_STEP with coefficient counts that R45 allows. -/
theorem exec_fltStep_of_counts {s : State} (hx : s.nco.onset.toNat ≤ 8) (hy : s.nco.release.toNat ≤ 8) (x : Word) :
    exec (.fltStep x) s
      = .next ((s.shiftHistories x (filterOutput s x)).completeWith (filterOutput s x)) :=
  if_neg (by omega)

/-- Settles O51: the histories shift by the lemmas of `shiftIn`, which do not mention NCO. -/
theorem fltStepFiltersAndShifts : Obligations.FltStepFiltersAndShifts := by
  intro x s hx hy
  refine ⟨filterOutput s x, shiftIn s.xh x, shiftIn s.yh (filterOutput s x), ?_, filterOutput_eq s x,
    shiftIn_zero .., shiftIn_zero .., fun k hk => ⟨shiftIn_succ _ _ k hk, shiftIn_succ _ _ k hk⟩⟩
  exact exec_fltStep_of_counts hx hy x

end Sys2Proof.Machine
end

section
/-! Who writes the filter unit's state (R200): the rule of each command names the states it can answer, and what
each of them leaves unchanged is read off the lemmas about the shared updates. -/

namespace Sys2Proof.Machine

/-- A command of row `o` keeps every part of the filter unit's state that R200 does not let it write: the FilterSpec
and ENVREQ, the coefficient bank, the histories. -/
def FilterFrame (o : Opc) (s t : State) : Prop :=
  (o ≠ .fltLoad → t.spec = s.spec ∧ t.status.envreq = s.status.envreq) ∧
  (o ≠ .fltEval → t.unity16 = s.unity16 ∧ t.nco = s.nco ∧ t.c16 = s.c16) ∧
  (o ≠ .fltStep → o ≠ .fltClr → t.xh = s.xh ∧ t.yh = s.yh)

/-- An error changes nothing of the filter unit, whatever command raises it (R296). -/
theorem FilterFrame.raise (o : Opc) (s : State) (e : ErrCode) (info : Word) : FilterFrame o s (s.raise e info) := by
  simp [FilterFrame]

/-- Leaving a value in RESULT changes nothing of the filter unit (R35, R297). -/
theorem FilterFrame.completeWith (o : Opc) (s : State) (v : Word) : FilterFrame o s (s.completeWith v) := by
  simp [FilterFrame]

/-- Command by command: what each state that its rule names leaves of the filter unit. -/
theorem exec_filterFrame {i : Instr} {s t : State} (h : exec i s = .next t) : FilterFrame (opcOf i) s t := by
  cases i with
  | nop => rw [execNop_cases h]; simp [FilterFrame]
  | clrerr => rw [execClrerr_cases h]; simp [FilterFrame]
  | regRd addr =>
    rcases execRegRd_cases h with ⟨r, -, rfl⟩ | ⟨-, rfl⟩
    · exact .completeWith ..
    · exact .raise ..
  | regWr addr value =>
    rcases execRegWr_cases h with ⟨ch, -, rfl⟩ | ⟨ch, -, rfl⟩ | ⟨-, rfl⟩
    · simp [FilterFrame]
    · simp [FilterFrame]
    · exact .raise ..
  | oscGen ch amp inc =>
    rcases execOscGen_cases h with ⟨-, rfl⟩ | ⟨-, rfl⟩
    · simp [FilterFrame]
    · exact .raise ..
  | fltLoad bytes =>
    rcases execFltLoad_cases h with ⟨fs, env, len, -, rfl⟩ | ⟨e, info, -, rfl⟩
    · simp [FilterFrame, opcOf]
    · exact .raise ..
  | fltEval dir pos =>
    rcases execFltEval_cases h with ⟨-, rfl⟩ | ⟨-, -, rfl⟩
    · exact .raise ..
    · simp [FilterFrame, opcOf]
  | fltStep x =>
    obtain ⟨-, -, rfl⟩ := execFltStep_cases h
    simp [FilterFrame, opcOf]
  | fltClr => rw [execFltClr_cases h]; simp [FilterFrame, opcOf]
  | mixInit ms =>
    rcases execMixInit_cases h with ⟨-, rfl⟩ | ⟨-, rfl⟩
    · exact .raise ..
    · simp [FilterFrame]
  | mixTone start len =>
    rcases execMixTone_cases h with ⟨-, rfl⟩ | ⟨-, rfl⟩
    · exact .raise ..
    · simp [FilterFrame]
  | mixAdd sample =>
    rcases execMixAdd_cases h with ⟨-, rfl⟩ | ⟨-, -, rfl⟩
    · exact .raise ..
    · simp [FilterFrame]
  | mixRd pos =>
    rcases execMixRd_cases h with ⟨-, rfl⟩ | ⟨-, rfl⟩
    · exact .raise ..
    · exact .completeWith ..
  | mixRdpcm pos =>
    rcases execMixRdpcm_cases h with ⟨-, rfl⟩ | ⟨-, rfl⟩
    · exact .raise ..
    · exact .completeWith ..

/-- Settles O20: the frame of R200 holds for every command. -/
theorem filterStateWriters : Obligations.FilterStateWriters := fun _ _ _ h => exec_filterFrame h

end Sys2Proof.Machine
end

section
/-! The saturation formula of the mixer (R264, R265): the mask test holds of the accumulators a byte can hold and of
no others, and for the others the sign selects the end of the byte's range. -/

namespace Sys2Proof.Machine

/-- Clearing the low byte is a shift right and back, so it leaves 0 exactly where there is nothing above the byte. -/
theorem and_clear_low_byte_eq_zero_iff (w : Word) : w &&& 0xFFFFFF00 = 0 ↔ w.toNat < 256 := by
  have hmask : (0xFFFFFF00 : Word) = BitVec.allOnes 32 <<< 8 := by decide
  have hzero : (0 : Word).toNat = 0 := rfl
  rw [hmask, ← BitVec.shiftLeft_ushiftRight, ← BitVec.toNat_inj, BitVec.toNat_shiftLeft, BitVec.toNat_ushiftRight,
    hzero, Nat.shiftRight_eq_div_pow, Nat.shiftLeft_eq]
  omega

/-- The mask test of `sat8` passes for the accumulators that fit a signed byte and for no others; where `acc + 128`
overflows it is negative, so the test still fails (R265). -/
theorem sat8_mask_eq_zero_iff (acc : Word) :
    (acc + 128) &&& 0xFFFFFF00 = 0 ↔ -128 ≤ acc.toInt ∧ acc.toInt ≤ 127 := by
  have hoffset : (128 : Word).toNat = 128 := rfl
  rw [and_clear_low_byte_eq_zero_iff, BitVec.toNat_add, hoffset, BitVec.toInt_eq_toNat_cond]
  split <;> omega

/-- The arithmetic shift by 31 places leaves the sign in every bit (R13). -/
theorem sshiftRight_31_eq_sign (w : Word) : w.sshiftRight 31 = if w.toInt < 0 then -1 else 0 := by
  have hlo := w.le_toInt
  have hhi := w.toInt_lt
  rw [BitVec.sshiftRight_eq, Int.shiftRight_eq_div_pow]
  split
  · exact congrArg (BitVec.ofInt 32) (show _ = -1 by omega)
  · exact congrArg (BitVec.ofInt 32) (show _ = 0 by omega)

/-- An accumulator that fits a signed byte is stored as it is (R264). -/
theorem sat8_of_fits {acc : Word} (h : -128 ≤ acc.toInt ∧ acc.toInt ≤ 127) : sat8 acc = acc :=
  if_neg (not_not_intro ((sat8_mask_eq_zero_iff acc).2 h))

/-- For any other accumulator the sign selects the end of the byte's range, by flipping 127 or not (R264). -/
theorem sat8_of_not_fits {acc : Word} (h : ¬ (-128 ≤ acc.toInt ∧ acc.toInt ≤ 127)) :
    sat8 acc = if acc.toInt < 0 then -128 else 127 := by
  have hsat : sat8 acc = acc.sshiftRight 31 ^^^ 127 := if_pos (mt (sat8_mask_eq_zero_iff acc).1 h)
  rw [hsat, sshiftRight_31_eq_sign, apply_ite (· ^^^ (127 : Word))]
  rfl

/-- The saturation formula is the clamp, on every 32-bit accumulator (R265). -/
theorem sat8_toInt (acc : Word) : (sat8 acc).toInt = max (-128) (min 127 acc.toInt) := by
  by_cases hfits : -128 ≤ acc.toInt ∧ acc.toInt ≤ 127
  · rw [sat8_of_fits hfits, min_eq_right hfits.2, max_eq_right hfits.1]
  · have hlow : (-128 : Word).toInt = -128 := rfl
    have hhigh : (127 : Word).toInt = 127 := rfl
    rw [sat8_of_not_fits hfits, apply_ite BitVec.toInt, hlow, hhigh]
    split <;> omega

/-- A value that fits a signed byte reads back from its low 8 bits (R12). -/
theorem low8_toInt {v : Int} (hlo : -128 ≤ v) (hhi : v ≤ 127) : (low8 v).toInt = v :=
  BitVec.toInt_ofInt_eq_self (by decide) hlo (Int.lt_add_one_of_le hhi)

/-- What `sat8` answers fits the byte it is stored in (R265). -/
theorem low8_sat8_toInt (acc : Word) : (low8 (sat8 acc).toInt).toInt = (sat8 acc).toInt := by
  have hclamp := sat8_toInt acc
  exact low8_toInt (by omega) (by omega)

/-- Settles O58: below 2^31 in magnitude the accumulator is the value of its own 32-bit pattern. -/
theorem saturationIsTheClamp : Obligations.SaturationIsTheClamp := by
  intro acc hacc
  obtain ⟨hlo, hhi⟩ := abs_lt.1 hacc
  have hvalue : (BitVec.ofInt 32 acc).toInt = acc := wrap32_toInt hlo.le (Int.le_sub_one_of_lt hhi)
  exact ⟨by rw [sat8_toInt, hvalue], low8_sat8_toInt _⟩

end Sys2Proof.Machine
end

section
/-! How a command ends (R297, R298, R300). A completion is a shared last operation on a state whose error record is
still that of the start; CLRERR is the one command whose effect touches the record before it completes, so it stands
apart. -/

namespace Sys2Proof.Machine

/-- ERR, ECODE and ERRINFO are the same in both states. -/
def SameErrorRecord (s t : State) : Prop :=
  t.status.err = s.status.err ∧ t.status.ecode = s.status.ecode ∧ t.errinfo = s.errinfo

/-- `t` is where a command begun in `s` ends without an error: LASTERR is 0 and the error record is kept (R297). -/
def CompletedFrom (s t : State) : Prop := t.status.lasterr = false ∧ SameErrorRecord s t

theorem SameErrorRecord.refl (s : State) : SameErrorRecord s s := ⟨rfl, rfl, rfl⟩

/-- Effects outside STATUS and ERRINFO leave the error record alone. -/
theorem SameErrorRecord.of_eq {s u : State} (hstatus : u.status = s.status) (hinfo : u.errinfo = s.errinfo) :
    SameErrorRecord s u := by
  simp [SameErrorRecord, hstatus, hinfo]

/-- FLT_LOAD writes STATUS, but only its envelope request (R205). -/
theorem SameErrorRecord.loadSpec (s : State) (fs : FilterSpec) (env : Bool) :
    SameErrorRecord s (s.loadSpec fs env) := by
  simp [SameErrorRecord]

theorem CompletedFrom.complete {s u : State} (h : SameErrorRecord s u) : CompletedFrom s u.complete := by
  simpa [CompletedFrom, SameErrorRecord] using h

theorem CompletedFrom.completeWith {s u : State} (h : SameErrorRecord s u) (v : Word) :
    CompletedFrom s (u.completeWith v) := by
  simpa [CompletedFrom, SameErrorRecord] using h

/-- CLRERR cannot fail, and clears what every other command keeps (R151). -/
theorem execClrerr_clears {s t : State} (h : exec .clrerr s = .next t) :
    t.status.lasterr = false ∧ t.status.err = false ∧ t.status.ecode = 0 ∧ t.errinfo = 0 := by
  rw [execClrerr_cases h]; simp

/-- Command by command: it raises its error on the state it began in, before any effect (R298), or its effects leave
the error record alone and it completes. -/
theorem exec_completed_or_raised {i : Instr} {s t : State} (hi : i ≠ .clrerr) (h : exec i s = .next t) :
    CompletedFrom s t ∨ ∃ e v, t = s.raise e v := by
  cases i with
  | nop => rw [execNop_cases h]; exact .inl (.complete (.refl s))
  | clrerr => exact absurd rfl hi
  | regRd addr =>
    rcases execRegRd_cases h with ⟨r, -, rfl⟩ | ⟨-, rfl⟩
    · exact .inl (.completeWith (.refl s) _)
    · exact .inr ⟨_, _, rfl⟩
  | regWr addr value =>
    rcases execRegWr_cases h with ⟨ch, -, rfl⟩ | ⟨ch, -, rfl⟩ | ⟨-, rfl⟩
    · exact .inl (.complete (.of_eq rfl rfl))
    · exact .inl (.complete (.of_eq rfl rfl))
    · exact .inr ⟨_, _, rfl⟩
  | oscGen ch amp inc =>
    rcases execOscGen_cases h with ⟨-, rfl⟩ | ⟨-, rfl⟩
    · exact .inl (.completeWith (.of_eq rfl rfl) _)
    · exact .inr ⟨_, _, rfl⟩
  | fltLoad bytes =>
    rcases execFltLoad_cases h with ⟨fs, env, len, -, rfl⟩ | ⟨e, info, -, rfl⟩
    · exact .inl (.completeWith (.loadSpec s fs env) _)
    · exact .inr ⟨_, _, rfl⟩
  | fltEval dir pos =>
    rcases execFltEval_cases h with ⟨-, rfl⟩ | ⟨-, -, rfl⟩
    · exact .inr ⟨_, _, rfl⟩
    · exact .inl (.completeWith (.of_eq (State.evalBank_status ..) (State.evalBank_errinfo ..)) _)
  | fltStep x =>
    obtain ⟨-, -, rfl⟩ := execFltStep_cases h
    exact .inl (.completeWith (.of_eq (State.shiftHistories_status ..) (State.shiftHistories_errinfo ..)) _)
  | fltClr => rw [execFltClr_cases h]; exact .inl (.complete (.of_eq rfl rfl))
  | mixInit ms =>
    rcases execMixInit_cases h with ⟨-, rfl⟩ | ⟨-, rfl⟩
    · exact .inr ⟨_, _, rfl⟩
    · exact .inl (.completeWith (.of_eq (State.initBuffer_status ..) (State.initBuffer_errinfo ..)) _)
  | mixTone start len =>
    rcases execMixTone_cases h with ⟨-, rfl⟩ | ⟨-, rfl⟩
    · exact .inr ⟨_, _, rfl⟩
    · exact .inl (.completeWith (.of_eq rfl rfl) _)
  | mixAdd sample =>
    rcases execMixAdd_cases h with ⟨-, rfl⟩ | ⟨-, -, rfl⟩
    · exact .inr ⟨_, _, rfl⟩
    · exact .inl (.completeWith (.of_eq rfl rfl) _)
  | mixRd pos =>
    rcases execMixRd_cases h with ⟨-, rfl⟩ | ⟨-, rfl⟩
    · exact .inr ⟨_, _, rfl⟩
    · exact .inl (.completeWith (.refl s) _)
  | mixRdpcm pos =>
    rcases execMixRdpcm_cases h with ⟨-, rfl⟩ | ⟨-, rfl⟩
    · exact .inr ⟨_, _, rfl⟩
    · exact .inl (.completeWith (.refl s) _)

/-- Settles O18: CLRERR always completes and clears the record; every other command completes with the record it
found, or raises. -/
theorem commandsCompleteOrRaiseOneError : Obligations.CommandsCompleteOrRaiseOneError := by
  intro i s t h
  by_cases hi : i = .clrerr
  · subst hi
    obtain ⟨hlast, hcleared⟩ := execClrerr_clears h
    exact .inl ⟨hlast, fun hne => absurd rfl hne, fun _ => hcleared⟩
  · rcases exec_completed_or_raised hi h with ⟨hlast, hkept⟩ | hraised
    · exact .inl ⟨hlast, fun _ => hkept, fun heq => absurd heq hi⟩
    · exact .inr hraised

end Sys2Proof.Machine
end

section
/-! The command format (R110 to R119): a header is its four fields, a row of the opcode map is a condition on each of
them, and the record bytes of FLT_LOAD survive the packing into words. -/

namespace Sys2Proof

open Laws (opcField_headerOf immField_headerOf)

/-! Headers and their fields. -/

/-- A header is put together from its own fields (R111). -/
theorem headerOf_fields (h : Word) : headerOf (opcField h) (idxField h) (subField h) (immField h) = h := by
  simp only [headerOf, opcField, idxField, subField, immField]
  rw [BitVec.extractLsb'_append_extractLsb'_eq_extractLsb' (start₂ := 24) (start₁ := 20) rfl,
    BitVec.extractLsb'_append_extractLsb'_eq_extractLsb' (start₂ := 20) (start₁ := 16) rfl,
    BitVec.extractLsb'_append_extractLsb'_eq_extractLsb' (start₂ := 16) (start₁ := 0) rfl]
  exact BitVec.extractLsb'_eq_self

theorem subField_headerOf (o : Byte) (i s : BitVec 4) (m : Half) : subField (headerOf o i s m) = s := by
  rw [subField, headerOf, BitVec.extractLsb'_append_eq_of_le (by decide)]
  exact BitVec.extractLsb'_append_eq_right

theorem idxField_headerOf (o : Byte) (i s : BitVec 4) (m : Half) : idxField (headerOf o i s m) = i := by
  rw [idxField, headerOf, BitVec.extractLsb'_append_eq_of_le (by decide),
    BitVec.extractLsb'_append_eq_of_le (by decide)]
  exact BitVec.extractLsb'_append_eq_right

/-- Two headers are equal when their fields are (R111). -/
theorem headerOf_inj {o o' : Byte} {i i' s s' : BitVec 4} {m m' : Half} :
    headerOf o i s m = headerOf o' i' s' m' ↔ o = o' ∧ i = i' ∧ s = s' ∧ m = m' := by
  refine ⟨fun h => ⟨?_, ?_, ?_, ?_⟩, ?_⟩
  · simpa only [opcField_headerOf] using congrArg opcField h
  · simpa only [idxField_headerOf] using congrArg idxField h
  · simpa only [subField_headerOf] using congrArg subField h
  · simpa only [immField_headerOf] using congrArg immField h
  · rintro ⟨rfl, rfl, rfl, rfl⟩
    rfl

/-- Masking works field by field. -/
theorem headerOf_and (o o' : Byte) (i i' s s' : BitVec 4) (m m' : Half) :
    headerOf o i s m &&& headerOf o' i' s' m' = headerOf (o &&& o') (i &&& i') (s &&& s') (m &&& m') := by
  simp only [headerOf]
  rw [BitVec.and_append, BitVec.and_append, BitVec.and_append]

/-! The rows of the opcode map, field by field (R115). -/

/-- The bits of IDX that a row fixes: all but the channel of OSC_GEN. -/
def Opc.idxMask : Opc → BitVec 4
  | .oscGen => 0
  | _ => 0xF

/-- The bits of SUB that a row fixes: all but the direction of FLT_EVAL. -/
def Opc.subMask : Opc → BitVec 4
  | .fltEval => 0xE
  | _ => 0xF

/-- The bits of IMM that a row fixes: all or, where it holds an address or a byte count, none. -/
def Opc.immMask : Opc → Half
  | .regRd | .regWr | .fltLoad => 0
  | _ => 0xFFFF

theorem Opc.mask_eq_headerOf (o : Opc) : o.mask = headerOf 0xFF o.idxMask o.subMask o.immMask := by
  cases o <;> rfl

/-- A header is of a row when its opcode is the row's and every bit that the row fixes is 0 (R115, R118). -/
theorem matches_iff (o : Opc) (h : Word) :
    h &&& o.mask = o.pattern ↔
      opcField h = o.code ∧ idxField h &&& o.idxMask = 0 ∧ subField h &&& o.subMask = 0 ∧
        immField h &&& o.immMask = 0 := by
  have hopc : opcField h &&& 0xFF = opcField h := BitVec.and_allOnes
  nth_rewrite 1 [← headerOf_fields h]
  rw [Opc.mask_eq_headerOf, headerOf_and, Opc.pattern, headerOf_inj, hopc]

theorem headerOf_matches_iff (o : Opc) (i s : BitVec 4) (m : Half) :
    headerOf o.code i s m &&& o.mask = o.pattern ↔
      i &&& o.idxMask = 0 ∧ s &&& o.subMask = 0 ∧ m &&& o.immMask = 0 := by
  rw [matches_iff, opcField_headerOf, idxField_headerOf, subField_headerOf, immField_headerOf]
  exact and_iff_right rfl

/-- The opcode of a row selects it (R115). -/
theorem ofByte_opcField_of_matches {o : Opc} {h : Word} (hm : h &&& o.mask = o.pattern) :
    Opc.ofByte (opcField h) = some o := by
  rw [((matches_iff o h).1 hm).1, Laws.Opc.ofByte_code]

/-- No header is of two rows (R115). -/
theorem row_unique {o o' : Opc} {h : Word} (hm : h &&& o.mask = o.pattern) (hm' : h &&& o'.mask = o'.pattern) :
    o = o' :=
  Option.some.inj ((ofByte_opcField_of_matches hm).symm.trans (ofByte_opcField_of_matches hm'))

/-! The decoder and the length of a command. -/

/-- A header of a row and data words from which the row builds a command (R115). -/
theorem decode_of_build {o : Opc} {h : Word} {ds : List Word} {i : Instr} (hm : h &&& o.mask = o.pattern)
    (hb : o.build h ds = some i) : decode (h :: ds) = .ok i := by
  simp only [decode, ofByte_opcField_of_matches hm, if_pos hm, hb]

/-- A row builds a command of its own from as many data words as its header announces (R113, R114). -/
theorem Opc.build_of_length {o : Opc} {h : Word} {ds : List Word} (hl : ds.length = o.dataWords h) :
    ∃ i, o.build h ds = some i ∧ Machine.opcOf i = o := by
  cases o with
  | nop | clrerr | regRd | fltClr =>
    obtain rfl := List.length_eq_zero_iff.1 hl
    exact ⟨_, rfl, rfl⟩
  | regWr | fltEval | fltStep | mixInit | mixAdd | mixRd | mixRdpcm =>
    obtain ⟨d0, rfl⟩ := List.length_eq_one_iff.1 hl
    exact ⟨_, rfl, rfl⟩
  | oscGen | mixTone =>
    obtain ⟨d0, d1, rfl⟩ := List.length_eq_two.1 hl
    exact ⟨_, rfl, rfl⟩
  | fltLoad => exact ⟨_, if_pos ((Laws.hasLength_iff _ _).2 hl), rfl⟩

/-- A header of a row decodes, with as many data words as it announces, to a command of that row (R115). -/
theorem decode_of_matches {o : Opc} {h : Word} {ds : List Word} (hm : h &&& o.mask = o.pattern)
    (hl : ds.length = o.dataWords h) : ∃ i, decode (h :: ds) = .ok i ∧ Machine.opcOf i = o := by
  obtain ⟨i, hb, ho⟩ := Opc.build_of_length hl
  exact ⟨i, decode_of_build hm hb, ho⟩

theorem cmdLength_of_ofByte {o : Opc} {h : Word} (ho : Opc.ofByte (opcField h) = some o) :
    cmdLength h = o.dataWords h + 1 := by
  simp only [cmdLength, ho]

/-- The length goes by the opcode alone, whatever the reserved fields hold (R114). -/
theorem cmdLength_of_opcField {o : Opc} {h : Word} (ho : opcField h = o.code) :
    cmdLength h = o.dataWords h + 1 :=
  cmdLength_of_ofByte (by rw [ho, Laws.Opc.ofByte_code])

/-- Words of the announced length decode exactly when their header is of a row (R115, R117, R118). -/
theorem decode_ok_iff_matches {h : Word} {ds : List Word} (hl : ds.length + 1 = cmdLength h) :
    (∃ i, decode (h :: ds) = .ok i) ↔ ∃ o : Opc, h &&& o.mask = o.pattern := by
  constructor
  · rintro ⟨i, hd⟩
    obtain ⟨o, -, hm, -⟩ := Laws.decode_ok hd
    exact ⟨o, hm⟩
  · rintro ⟨o, hm⟩
    rw [cmdLength_of_ofByte (ofByte_opcField_of_matches hm)] at hl
    obtain ⟨i, hd, -⟩ := decode_of_matches hm (Nat.succ_injective hl)
    exact ⟨i, hd⟩

/-! The record bytes of FLT_LOAD (R119). -/

/-- A word gives back the four bytes it was put together from (R86). -/
theorem wordBytes_append (a b c d : Byte) : wordBytes (a ++ b ++ c ++ d) = [a, b, c, d] := by
  simp only [wordBytes, List.cons.injEq, and_true]
  refine ⟨?_, ?_, ?_, ?_⟩
  · rw [BitVec.extractLsb'_append_eq_of_le (by decide), BitVec.extractLsb'_append_eq_of_le (by decide)]
    exact BitVec.extractLsb'_append_eq_left
  · rw [BitVec.extractLsb'_append_eq_of_le (by decide), BitVec.extractLsb'_append_eq_of_le (by decide)]
    exact BitVec.extractLsb'_append_eq_right
  · rw [BitVec.extractLsb'_append_eq_of_le (by decide)]
    exact BitVec.extractLsb'_append_eq_right
  · exact BitVec.extractLsb'_append_eq_right

theorem append_three_zero_bytes (a : Byte) : a ++ (0 : BitVec 24) = a ++ (0 : Byte) ++ (0 : Byte) ++ (0 : Byte) := by
  rw [BitVec.append_assoc, BitVec.append_assoc]
  rfl

theorem append_two_zero_bytes (a b : Byte) : a ++ b ++ (0 : BitVec 16) = a ++ b ++ (0 : Byte) ++ (0 : Byte) := by
  rw [BitVec.append_assoc (x₃ := (0 : Byte))]
  rfl

/-- The packed bytes come first in their words; what follows them is padding (R119). -/
theorem flatMap_wordBytes_packBytes (bs : List Byte) :
    ∃ padding, (packBytes bs).flatMap wordBytes = bs ++ padding := by
  fun_induction packBytes bs with
  | case1 => exact ⟨[], rfl⟩
  | case2 a => exact ⟨[0, 0, 0], by rw [append_three_zero_bytes]; exact (List.append_nil _).trans (wordBytes_append ..)⟩
  | case3 a b => exact ⟨[0, 0], by rw [append_two_zero_bytes]; exact (List.append_nil _).trans (wordBytes_append ..)⟩
  | case4 a b c => exact ⟨[0], (List.append_nil _).trans (wordBytes_append ..)⟩
  | case5 a b c d bs ih =>
    obtain ⟨padding, h⟩ := ih
    exact ⟨padding, by rw [List.flatMap_cons, wordBytes_append, h]; rfl⟩

/-- Unpacking the packed bytes gives them back (R119). -/
theorem unpackBytes_packBytes (bs : List Byte) : unpackBytes bs.length (packBytes bs) = bs := by
  obtain ⟨padding, h⟩ := flatMap_wordBytes_packBytes bs
  rw [unpackBytes, h, List.take_left]

theorem length_flatMap_wordBytes (ds : List Word) : (ds.flatMap wordBytes).length = 4 * ds.length := by
  induction ds with
  | nil => rfl
  | cons d ds ih => rw [List.flatMap_cons, List.length_append, ih, List.length_cons, wordBytes]; simp; omega

/-- As many words as `n` bytes need carry `n` bytes (R119). -/
theorem unpackBytes_length {n : Nat} {ds : List Word} (h : ds.length = recordWords n) :
    (unpackBytes n ds).length = n := by
  rw [unpackBytes, List.length_take, length_flatMap_wordBytes, h, recordWords]
  omega

/-! Decoding and encoding. -/

theorem dirField_headerOf (o : Byte) (i : BitVec 4) (d : Dir) (m : Half) : dirField (headerOf o i d.sub m) = d := by
  rw [dirField, subField_headerOf]
  cases d <;> rfl

/-- The header of FLT_LOAD holds the byte count (R119). -/
theorem immField_fltLoad {bs : List Byte} (h : bs.length ≤ 65535) :
    (immField (headerOf Opc.fltLoad.code 0 0 (BitVec.ofNat 16 bs.length))).toNat = bs.length := by
  rw [immField_headerOf, BitVec.toNat_ofNat, Nat.mod_eq_of_lt (by omega)]

/-- Settles O1: each command's header is of its row, and the row builds the command back from the data words. -/
theorem decodeEncodedCommand : Obligations.DecodeEncodedCommand := by
  intro i hwf
  cases i with
  | nop => rfl
  | clrerr => rfl
  | regRd addr =>
    refine decode_of_build (o := .regRd) ((headerOf_matches_iff ..).2 ⟨rfl, rfl, BitVec.and_zero⟩) ?_
    simp only [Opc.build, noData, immField_headerOf]
  | regWr addr value =>
    refine decode_of_build (o := .regWr) ((headerOf_matches_iff ..).2 ⟨rfl, rfl, BitVec.and_zero⟩) ?_
    simp only [Opc.build, oneData, immField_headerOf]
  | oscGen ch amp inc =>
    refine decode_of_build (o := .oscGen) ((headerOf_matches_iff ..).2 ⟨BitVec.and_zero, rfl, rfl⟩) ?_
    simp only [Opc.build, twoData, idxField_headerOf]
  | fltLoad bytes =>
    have hlen : bytes.length ≤ 65535 := of_decide_eq_true hwf
    refine decode_of_build (o := .fltLoad) ((headerOf_matches_iff ..).2 ⟨rfl, rfl, BitVec.and_zero⟩) ?_
    simp only [Opc.build, immField_fltLoad hlen, unpackBytes_packBytes]
    exact if_pos ((Laws.hasLength_iff _ _).2 (Laws.packBytes_length bytes))
  | fltEval dir pos =>
    refine decode_of_build (o := .fltEval) ((headerOf_matches_iff ..).2 ⟨rfl, by cases dir <;> rfl, rfl⟩) ?_
    simp only [Opc.build, oneData, dirField_headerOf]
  | fltStep x => rfl
  | fltClr => rfl
  | mixInit ms => rfl
  | mixTone start len => rfl
  | mixAdd sample => rfl
  | mixRd pos => rfl
  | mixRdpcm pos => rfl

/-! Encoding what was decoded. -/

theorem noData_eq_some {i j : Instr} {ds : List Word} : noData i ds = some j ↔ ds = [] ∧ i = j := by
  cases ds <;> simp [noData]

theorem oneData_eq_some {mk : Word → Instr} {j : Instr} {ds : List Word} :
    oneData mk ds = some j ↔ ∃ d0, ds = [d0] ∧ mk d0 = j := by
  unfold oneData
  split <;> simp_all

theorem twoData_eq_some {mk : Word → Word → Instr} {j : Instr} {ds : List Word} :
    twoData mk ds = some j ↔ ∃ d0 d1, ds = [d0, d1] ∧ mk d0 d1 = j := by
  unfold twoData
  split <;> simp_all

/-- Where the mask fixes every bit, the row has one header (R115). -/
theorem header_of_full_mask {o : Opc} {h : Word} (hfull : o.mask = BitVec.allOnes 32)
    (hm : h &&& o.mask = o.pattern) : h = o.pattern := by
  rwa [hfull, BitVec.and_allOnes] at hm

/-- Where the mask fixes IDX and SUB, the IMM field is all there is to know of the header (R115). -/
theorem header_of_imm {o : Opc} {h : Word} (hi : o.idxMask = BitVec.allOnes 4) (hs : o.subMask = BitVec.allOnes 4)
    (hm : h &&& o.mask = o.pattern) : headerOf o.code 0 0 (immField h) = h := by
  obtain ⟨hopc, hidx, hsub, -⟩ := (matches_iff o h).1 hm
  rw [hi, BitVec.and_allOnes] at hidx
  rw [hs, BitVec.and_allOnes] at hsub
  conv_rhs => rw [← headerOf_fields h, hopc, hidx, hsub]

/-- A header of OSC_GEN is known by its channel (R115). -/
theorem header_of_oscGen {h : Word} (hm : h &&& Opc.oscGen.mask = Opc.oscGen.pattern) :
    headerOf Opc.oscGen.code (idxField h) 0 0 = h := by
  obtain ⟨hopc, -, hsub, himm⟩ := (matches_iff _ h).1 hm
  have hs : subField h = 0 := BitVec.and_allOnes.symm.trans hsub
  have hi : immField h = 0 := BitVec.and_allOnes.symm.trans himm
  rw [← hopc, ← hs, ← hi, headerOf_fields]

/-- A SUB field that is 0 above bit 0 is a direction (R126). -/
theorem sub_dirField {h : Word} (hs : subField h &&& 0xE = 0) : (dirField h).sub = subField h := by
  unfold dirField
  generalize subField h = x at *
  revert x
  decide

/-- A header of FLT_EVAL is known by its direction (R115, R126). -/
theorem header_of_fltEval {h : Word} (hm : h &&& Opc.fltEval.mask = Opc.fltEval.pattern) :
    headerOf Opc.fltEval.code 0 (dirField h).sub 0 = h := by
  obtain ⟨hopc, hidx, hsub, himm⟩ := (matches_iff _ h).1 hm
  have hx : idxField h = 0 := BitVec.and_allOnes.symm.trans hidx
  have hi : immField h = 0 := BitVec.and_allOnes.symm.trans himm
  rw [sub_dirField hsub, ← hopc, ← hx, ← hi, headerOf_fields]

/-- The rows without data whose mask fixes every bit encode to the words they were built from. -/
theorem encode_of_noData {o : Opc} {h : Word} {ds : List Word} {i j : Instr} (hfull : o.mask = BitVec.allOnes 32)
    (henc : encode i = [o.pattern]) (hm : h &&& o.mask = o.pattern) (hb : noData i ds = some j) :
    encode j = h :: ds := by
  obtain ⟨rfl, rfl⟩ := noData_eq_some.1 hb
  rw [henc, header_of_full_mask hfull hm]

/-- The rows with one data word whose mask fixes every bit encode to the words they were built from. -/
theorem encode_of_oneData {o : Opc} {h : Word} {ds : List Word} {mk : Word → Instr} {j : Instr}
    (hfull : o.mask = BitVec.allOnes 32) (henc : ∀ d0, encode (mk d0) = [o.pattern, d0])
    (hm : h &&& o.mask = o.pattern) (hb : oneData mk ds = some j) : encode j = h :: ds := by
  obtain ⟨d0, rfl, rfl⟩ := oneData_eq_some.1 hb
  rw [henc, header_of_full_mask hfull hm]

/-- Every row but FLT_LOAD builds a command whose encoding is the words it was built from. -/
theorem encode_of_build {o : Opc} {h : Word} {ds : List Word} {i : Instr} (hm : h &&& o.mask = o.pattern)
    (hb : o.build h ds = some i) (ho : o ≠ .fltLoad) : encode i = h :: ds := by
  cases o with
  | nop | clrerr | fltClr => exact encode_of_noData rfl rfl hm hb
  | fltStep | mixInit | mixAdd | mixRd | mixRdpcm => exact encode_of_oneData rfl (fun _ => rfl) hm hb
  | regRd =>
    obtain ⟨rfl, rfl⟩ := noData_eq_some.1 hb
    rw [encode, header_of_imm rfl rfl hm]
  | regWr =>
    obtain ⟨d0, rfl, rfl⟩ := oneData_eq_some.1 hb
    rw [encode, header_of_imm rfl rfl hm]
  | oscGen =>
    obtain ⟨d0, d1, rfl, rfl⟩ := twoData_eq_some.1 hb
    rw [encode, header_of_oscGen hm]
  | fltLoad => exact absurd rfl ho
  | fltEval =>
    obtain ⟨d0, rfl, rfl⟩ := oneData_eq_some.1 hb
    rw [encode, header_of_fltEval hm]
  | mixTone =>
    obtain ⟨d0, d1, rfl, rfl⟩ := twoData_eq_some.1 hb
    rw [header_of_full_mask rfl hm]
    rfl

/-- FLT_LOAD is built from exactly the words its byte count asks for, and takes that many bytes (R119). -/
theorem build_fltLoad_eq_some {h : Word} {ds : List Word} {i : Instr} (hb : Opc.fltLoad.build h ds = some i) :
    ds.length = recordWords (immField h).toNat ∧ i = .fltLoad (unpackBytes (immField h).toNat ds) := by
  simp only [Opc.build] at hb
  split at hb
  · next hl =>
    cases hb
    exact ⟨(Laws.hasLength_iff _ _).1 hl, rfl⟩
  · cases hb

/-- A row builds commands of its own only. -/
theorem opcOf_of_build {o : Opc} {h : Word} {ds : List Word} {i : Instr} (hb : o.build h ds = some i) :
    Machine.opcOf i = o := by
  obtain ⟨j, hj, ho⟩ := Opc.build_of_length (Laws.Opc.build_length hb)
  obtain rfl : j = i := Option.some.inj (hj.symm.trans hb)
  exact ho

/-- Settles O2: the header is known by its free fields; FLT_LOAD takes as many bytes as its IMM field says, so the
encoder writes the same field. -/
theorem encodeDecodedCommand : Obligations.EncodeDecodedCommand := by
  intro ws i hd
  obtain ⟨h, ds, rfl, -⟩ := Laws.decode_length hd
  obtain ⟨o, -, hm, hb⟩ := Laws.decode_ok hd
  have ho := opcOf_of_build hb
  by_cases hload : o = .fltLoad
  · subst hload
    obtain ⟨hl, rfl⟩ := build_fltLoad_eq_some hb
    have hlen : (unpackBytes (immField h).toNat ds).length = (immField h).toNat := unpackBytes_length hl
    have hhead : headerOf Opc.fltLoad.code 0 0 (BitVec.ofNat 16 (unpackBytes (immField h).toNat ds).length) = h := by
      rw [hlen, BitVec.ofNat_toNat, BitVec.setWidth_eq, header_of_imm rfl rfl hm]
    refine ⟨?_, fun hne => absurd ho hne, ?_⟩
    · have := (immField h).isLt
      exact decide_eq_true (by rw [hlen, maxRecordBytes]; omega)
    · rintro bs heq
      cases heq
      refine ⟨congrArg some hhead, ?_, by rw [hlen]; rfl, unpackBytes_packBytes _⟩
      rw [encode, List.length_cons, List.length_cons, Laws.packBytes_length, hlen, hl]
  · refine ⟨?_, fun _ => encode_of_build hm hb hload, ?_⟩
    · cases i with
      | fltLoad bytes => exact absurd ho.symm hload
      | _ => rfl
    · rintro bs rfl
      exact absurd ho.symm hload

/-- Settles O3: each tabulated pair of a mask and a match is the row's own. -/
theorem opcodeRowsAsTabulated : Obligations.OpcodeRowsAsTabulated :=
  ⟨fun _ hm => decode_of_matches (o := .nop) hm rfl,
    fun _ hm => decode_of_matches (o := .clrerr) hm rfl,
    fun _ hm => decode_of_matches (o := .regRd) hm rfl,
    fun _ _ hm => decode_of_matches (o := .regWr) hm rfl,
    fun _ _ _ hm => decode_of_matches (o := .oscGen) hm rfl,
    fun _ _ hm hl => decode_of_matches (o := .fltLoad) hm hl,
    fun _ _ hm => decode_of_matches (o := .fltEval) hm rfl,
    fun _ _ hm => decode_of_matches (o := .fltStep) hm rfl,
    fun _ hm => decode_of_matches (o := .fltClr) hm rfl,
    fun _ _ hm => decode_of_matches (o := .mixInit) hm rfl,
    fun _ _ _ hm => decode_of_matches (o := .mixTone) hm rfl,
    fun _ _ hm => decode_of_matches (o := .mixAdd) hm rfl,
    fun _ _ hm => decode_of_matches (o := .mixRd) hm rfl,
    fun _ _ hm => decode_of_matches (o := .mixRdpcm) hm rfl,
    fun _ _ _ hm hm' => row_unique hm hm'⟩

/-- Settles O4. -/
theorem exampleWordsDecode : Obligations.ExampleWordsDecode := by
  refine ⟨?_, ?_, ?_, ?_, ?_, ?_⟩ <;> decide

end Sys2Proof
end

section
/-! The register map (R52): the decoder of addresses answers exactly the registers that the block has, each at its own
address; with it REG_RD and REG_WR, the STATUS word and the values after reset. -/

namespace Sys2Proof.Machine

/-! Addresses. -/

/-- An address is its page, its row and its column (R52). -/
theorem address_toNat (a : Half) :
    a.toNat = 256 * (a.extractLsb' 8 8).toNat + 16 * (a.extractLsb' 4 4).toNat + (a.extractLsb' 0 4).toNat := by
  have := a.isLt
  simp only [BitVec.extractLsb'_toNat, Nat.shiftRight_eq_div_pow]
  omega

/-- A mapped column of a block of code registers is an envelope end and a pair (R52). -/
theorem codeColumn_toNat : ∀ col : BitVec 4, col.getLsbD 2 = false →
    col.toNat = 8 * endNumber (endOfCol col) + (col.extractLsb' 0 2).toNat := by decide

/-- A coefficient's column is a direction and an index (R52). -/
theorem coefficientColumn_toNat : ∀ col : BitVec 4,
    col.toNat = 8 * dirNumber (dirOfCol col) + (col.extractLsb' 0 3).toNat := by decide

/-- A history's column is the history, by bit 3, and an index (R52). -/
theorem historyColumn_toNat : ∀ col : BitVec 4,
    col.toNat = (if col.getLsbD 3 then 8 else 0) + (col.extractLsb' 0 3).toNat := by decide

theorem codeReg_eq_some {mk : End → BitVec 2 → Reg} {col : BitVec 4} {r : Reg} (h : codeReg mk col = some r) :
    ∃ e n, r = mk e n ∧ col.toNat = 8 * endNumber e + n.toNat := by
  unfold codeReg at h
  split at h
  · cases h
  · next hbit =>
    cases h
    exact ⟨_, _, rfl, codeColumn_toNat col (Bool.eq_false_of_not_eq_true hbit)⟩

/-- A register that an address decodes to is one of the block's and stands at that address (R52). -/
theorem present_and_address_of_ofAddr {a : Half} {r : Reg} (h : Reg.ofAddr a = some r) :
    r.present ∧ r.address = a.toNat := by
  rw [address_toNat a]
  simp only [Reg.ofAddr] at h
  split at h
  case h_1 hpage hrow =>
    split at h <;> cases h <;> simp only [Reg.present, Reg.address, true_and] <;> omega
  case h_2 hpage hrow =>
    split at h <;> cases h
    next hch => exact ⟨channelExists_iff.1 hch, by simp only [Reg.address]; omega⟩
  case h_3 hpage hrow =>
    split at h <;> cases h
    next hch => exact ⟨channelExists_iff.1 hch, by simp only [Reg.address]; omega⟩
  case h_4 hpage hrow =>
    split at h <;> cases h <;> simp only [Reg.present, Reg.address, endNumber, true_and] <;> omega
  case h_9 hpage hrow =>
    split at h <;> cases h <;> simp only [Reg.present, Reg.address, dirNumber, true_and] <;> omega
  case h_10 hpage hrow =>
    have := coefficientColumn_toNat (a.extractLsb' 0 4)
    cases h
    simp only [Reg.present, Reg.address, true_and]
    omega
  case h_11 hpage hrow =>
    have := historyColumn_toNat (a.extractLsb' 0 4)
    split at h
    · next hbit =>
      cases h
      rw [if_pos hbit] at this
      simp only [Reg.present, Reg.address, true_and]
      omega
    · next hbit =>
      cases h
      rw [if_neg hbit] at this
      simp only [Reg.present, Reg.address, true_and]
      omega
  case h_12 hpage hrow =>
    split at h <;> cases h <;> simp only [Reg.present, Reg.address, true_and] <;> omega
  case h_13 => cases h
  all_goals
    obtain ⟨e, n, rfl, hcol⟩ := codeReg_eq_some h
    simp only [Reg.present, Reg.address, dirNumber, true_and]
    omega

/-- The columns of the channel rows, whole (R52). -/
theorem ofAddr_channel (i : BitVec 4) :
    Reg.ofAddr (BitVec.ofNat 16 (0x0010 + i.toNat)) = (if channelExists i.toNat then some (.oscShape i) else none) ∧
    Reg.ofAddr (BitVec.ofNat 16 (0x0020 + i.toNat)) = (if channelExists i.toNat then some (.oscPhase i) else none) := by
  have hshape : ∀ i : BitVec 4, (BitVec.ofNat 16 (0x0010 + i.toNat)).extractLsb' 0 4 = i ∧
      ((BitVec.ofNat 16 (0x0010 + i.toNat)).extractLsb' 8 8).toNat = 0 ∧
      ((BitVec.ofNat 16 (0x0010 + i.toNat)).extractLsb' 4 4).toNat = 1 := by decide
  have hphase : ∀ i : BitVec 4, (BitVec.ofNat 16 (0x0020 + i.toNat)).extractLsb' 0 4 = i ∧
      ((BitVec.ofNat 16 (0x0020 + i.toNat)).extractLsb' 8 8).toNat = 0 ∧
      ((BitVec.ofNat 16 (0x0020 + i.toNat)).extractLsb' 4 4).toNat = 2 := by decide
  obtain ⟨hcol, hpage, hrow⟩ := hshape i
  obtain ⟨hcol', hpage', hrow'⟩ := hphase i
  constructor
  · simp only [Reg.ofAddr, hcol, hpage, hrow]
  · simp only [Reg.ofAddr, hcol', hpage', hrow']

/-- Every register that the block has is decoded at its address (R52). -/
theorem ofAddr_address {r : Reg} (h : r.present) : Reg.ofAddr (BitVec.ofNat 16 r.address) = some r := by
  cases r with
  | oscShape i => exact (ofAddr_channel i).1.trans (if_pos (channelExists_iff.2 h))
  | oscPhase i => exact (ofAddr_channel i).2.trans (if_pos (channelExists_iff.2 h))
  | status | result | errinfo | fsPairs | fsMigr | fltUnity16 | mixLen | mixOfs | mixCnt | mixIdx => rfl
  | fsUnity e => cases e <;> rfl
  | fltNco d => cases d <;> rfl
  | fsFreq d e n => clear h; revert n; cases d <;> cases e <;> decide
  | fsRange d e n => clear h; revert n; cases d <;> cases e <;> decide
  | fltC16 d k => clear h; revert k; cases d <;> decide
  | fltXh k => clear h; revert k; decide
  | fltYh k => clear h; revert k; decide

/-- The decoder of addresses answers exactly the block's registers, each at its address (R52). -/
theorem ofAddr_eq_some_iff {a : Half} {r : Reg} : Reg.ofAddr a = some r ↔ r.present ∧ r.address = a.toNat := by
  refine ⟨present_and_address_of_ofAddr, fun ⟨hp, ha⟩ => ?_⟩
  have := ofAddr_address hp
  rwa [ha, BitVec.ofNat_toNat, BitVec.setWidth_eq] at this

theorem ofAddr_eq_none {a : Half} (h : ∀ r : Reg, r.present → r.address ≠ a.toNat) : Reg.ofAddr a = none := by
  cases hr : Reg.ofAddr a with
  | none => rfl
  | some r =>
    obtain ⟨hp, ha⟩ := ofAddr_eq_some_iff.1 hr
    exact absurd ha (h r hp)

/-! REG_RD and REG_WR (R152, R153). -/

theorem exec_regRd_of_ofAddr_some {a : Half} {r : Reg} (h : Reg.ofAddr a = some r) (s : State) :
    exec (.regRd a) s = .next (s.completeWith (s.regValue r)) := by
  simp only [exec, execRegRd, State.readReg, h, Option.map_some]

theorem exec_regRd_of_ofAddr_none {a : Half} (h : Reg.ofAddr a = none) (s : State) :
    exec (.regRd a) s = .next (s.raise .addr (a.setWidth 32)) := by
  simp only [exec, execRegRd, State.readReg, h, Option.map_none]

theorem exec_regWr_of_writeReg_some {s t : State} {a : Half} {v : Word} (h : s.writeReg a v = some t) :
    exec (.regWr a v) s = .next t.complete := by
  simp only [exec, execRegWr, h]

theorem exec_regWr_of_writeReg_none {s : State} {a : Half} {v : Word} (h : s.writeReg a v = none) :
    exec (.regWr a v) s = .next (s.raise .addr (a.setWidth 32)) := by
  simp only [exec, execRegWr, h]

/-- A register-space write answers nothing where no writable register of the block stands (R153). -/
theorem State.writeReg_eq_none {s : State} {a : Half} {v : Word}
    (h : ∀ r : Reg, r.present → r.writable → r.address ≠ a.toNat) : s.writeReg a v = none := by
  cases hw : s.writeReg a v with
  | none => rfl
  | some t =>
    rcases State.writeReg_cases hw with ⟨i, hi, -⟩ | ⟨i, hi, -⟩
    all_goals
      obtain ⟨hp, ha⟩ := ofAddr_eq_some_iff.1 hi
      exact absurd ha (h _ hp trivial)

/-- REG_RD at the address of one of the block's registers returns that register (R152). -/
theorem regRdReturns_of_present {r : Reg} (h : r.present) (s : State) :
    regRdReturns s r.address (s.regValue r) :=
  exec_regRd_of_ofAddr_some (ofAddr_address h) s

/-! Values that the map builds from several fields. -/

/-- Patterns put side by side, as numbers. -/
theorem toNat_append_eq {m n : Nat} (x : BitVec m) (y : BitVec n) :
    (x ++ y).toNat = x.toNat * 2 ^ n + y.toNat := by
  rw [BitVec.toNat_append, ← Nat.shiftLeft_add_eq_or_of_lt y.isLt, Nat.shiftLeft_eq]

/-- The STATUS word as a number (R34). -/
theorem Status.toWord_toNat (s : Status) :
    s.toWord.toNat = s.err.toNat + 2 * s.lasterr.toNat + 4 * s.envreq.toNat + 256 * s.ecode.toNat := by
  simp only [Status.toWord, toNat_append_eq, BitVec.toNat_ofBool, show (0 : Half).toNat = 0 from rfl,
    show (0 : BitVec 5).toNat = 0 from rfl]
  ring

/-- Both pair counts in one byte (R52). -/
theorem pairCounts_eq_ofNat (p q : BitVec 3) :
    p.setWidth 32 * 16 + q.setWidth 32 = BitVec.ofNat 32 (p.toNat * 16 + q.toNat) := by
  apply BitVec.eq_of_toNat_eq
  simp

/-- Settles O25: each address is that of a register of the block; STATUS and the pair counts are the two registers put
together from several fields. -/
theorem regRdReturnsEveryMappedRegister : Obligations.RegRdReturnsEveryMappedRegister := by
  intro s
  have hret : ∀ {r : Reg}, r.present → regRdReturns s r.address (s.regValue r) := fun h =>
    regRdReturns_of_present h s
  have hstatus : BitVec.ofNat 32 (s.status.err.toNat + 2 * s.status.lasterr.toNat + 4 * s.status.envreq.toNat
      + 256 * s.status.ecode.toNat) = s.regValue .status := by
    rw [← Status.toWord_toNat, BitVec.ofNat_toNat, BitVec.setWidth_eq]
    rfl
  have hpairs : BitVec.ofNat 32 (s.spec.pcnt.onset.toNat * 16 + s.spec.pcnt.release.toNat)
      = s.regValue .fsPairs := (pairCounts_eq_ofNat ..).symm
  rw [hstatus, hpairs]
  exact ⟨hret (r := .status) trivial, hret (r := .result) trivial, hret (r := .errinfo) trivial,
    fun i hi => ⟨hret (r := .oscShape i) hi, hret (r := .oscPhase i) hi⟩,
    hret (r := .fsPairs) trivial, hret (r := .fsUnity .start) trivial, hret (r := .fsUnity .stop) trivial,
    hret (r := .fsMigr) trivial,
    fun d e n => ⟨hret (r := .fsFreq d e n) trivial, hret (r := .fsRange d e n) trivial⟩,
    hret (r := .fltUnity16) trivial, hret (r := .fltNco .onset) trivial, hret (r := .fltNco .release) trivial,
    fun d k => hret (r := .fltC16 d k) trivial,
    fun k => ⟨hret (r := .fltXh k) trivial, hret (r := .fltYh k) trivial⟩,
    hret (r := .mixLen) trivial, hret (r := .mixOfs) trivial, hret (r := .mixCnt) trivial,
    hret (r := .mixIdx) trivial⟩

/-- Settles O26: the decoder of addresses answers none of the registers excluded. -/
theorem otherAddressesRaise : Obligations.OtherAddressesRaise := by
  refine ⟨fun a s h => ?_, fun a v s h => ?_⟩ <;> rw [BitVec.ofNat_toNat]
  · exact exec_regRd_of_ofAddr_none (ofAddr_eq_none h) s
  · exact exec_regWr_of_writeReg_none (State.writeReg_eq_none h)

/-- Settles O27: the two writable registers of a channel that exists. -/
theorem regWrStoresShapeOrPhase : Obligations.RegWrStoresShapeOrPhase := by
  intro s i v hi
  have hshape := ofAddr_address (r := .oscShape i) hi
  have hphase := ofAddr_address (r := .oscPhase i) hi
  constructor
  · exact exec_regWr_of_writeReg_some (by simp only [State.writeReg, Reg.address] at hshape ⊢; rw [hshape]; rfl)
  · exact exec_regWr_of_writeReg_some (by simp only [State.writeReg, Reg.address] at hphase ⊢; rw [hphase]; rfl)

/-- A bit of the STATUS word, by the field it falls in (R34). -/
theorem Status.toWord_getLsbD (s : Status) (k : Nat) :
    s.toWord.getLsbD k = if k = 0 then s.err else if k = 1 then s.lasterr else if k = 2 then s.envreq
      else if k < 8 then false else if k < 16 then s.ecode.getLsbD (k - 8) else false := by
  simp only [Status.toWord, BitVec.getLsbD_append, BitVec.getLsbD_ofBool]
  grind

/-- Settles O19. -/
theorem statusWordLayout : Obligations.StatusWordLayout := by
  intro s
  refine ⟨Status.toWord_getLsbD s 0, Status.toWord_getLsbD s 1, Status.toWord_getLsbD s 2, ?_, fun k hk => ?_⟩
  · rw [Status.toWord, BitVec.extractLsb'_append_eq_of_le (by decide), BitVec.extractLsb'_append_eq_of_le (by decide),
      BitVec.extractLsb'_append_eq_of_le (by decide), BitVec.extractLsb'_append_eq_of_le (by decide)]
    exact BitVec.extractLsb'_append_eq_right
  · rw [Status.toWord_getLsbD, if_neg (by omega), if_neg (by omega), if_neg (by omega)]
    rcases hk with ⟨-, hk⟩ | hk
    · exact if_pos (by omega)
    · rw [if_neg (by omega), if_neg (by omega)]

/-! Reset. -/

theorem pick16_replicate {α : Type} (x : α) (i : BitVec 4) : pick16 (Vector.replicate 16 x) i = x := by
  simp [pick16]

theorem pick8_replicate {α : Type} (x : α) (k : BitVec 3) : pick8 (Vector.replicate 8 x) k = x := by
  simp [pick8]

theorem pick4_replicate {α : Type} (x : α) (n : BitVec 2) : pick4 (Vector.replicate 4 x) n = x := by
  simp [pick4]

/-- Every code of the FilterSpec with every field 0 is 0. -/
theorem zero_codes (d : Dir) (e : End) (n : BitVec 2) :
    pick4 ((FilterSpec.zero.freq.get d).get e) n = 0 ∧ pick4 ((FilterSpec.zero.range.get d).get e) n = 0 := by
  cases d <;> cases e <;> exact ⟨pick4_replicate 0 n, pick4_replicate 0 n⟩

/-- Every register of the map is 0 after reset (R321). -/
theorem reset_regValue (r : Reg) : State.reset.regValue r = 0 := by
  cases r with
  | oscShape i => exact congrArg (BitVec.setWidth 32) (pick16_replicate (0 : Byte) i)
  | oscPhase i => exact pick16_replicate (0 : Word) i
  | fsUnity e => cases e <;> rfl
  | fsFreq d e n => exact congrArg (BitVec.setWidth 32) (zero_codes d e n).1
  | fsRange d e n => exact congrArg (BitVec.setWidth 32) (zero_codes d e n).2
  | fltNco d => cases d <;> rfl
  | fltC16 d k => cases d <;> exact pick8_replicate (0 : Word) k
  | fltXh k => exact pick8_replicate (0 : Word) k
  | fltYh k => exact pick8_replicate (0 : Word) k
  | _ => rfl

/-- Settles O10. -/
theorem resetStateValues : Obligations.ResetStateValues := by
  refine ⟨rfl, rfl, rfl, fun i => ⟨pick16_replicate 0 i, pick16_replicate 0 i⟩, rfl, rfl, rfl,
    fun d k => reset_regValue (.fltC16 d k), fun k => ⟨pick8_replicate 0 k, pick8_replicate 0 k⟩,
    rfl, rfl, rfl, rfl, fun p => rfl, rfl, rfl, fun a v h => ?_⟩
  obtain ⟨r, -, rfl⟩ := Option.map_eq_some_iff.1 h
  exact reset_regValue r

end Sys2Proof.Machine
end

section
/-! One step (R30, R31, R320): what the words in the assembly buffer and on the port make up decides between running a
command, waiting for more and taking a reset. -/

namespace Sys2Proof.Machine

open Laws (decode_length decode_ok)

/-! What the fetch answers. -/

/-- The beginning of a command with no more words behind it (R31, R51). -/
theorem fetch_partial {asm ws : List Word} (h : isPartial (asm ++ ws)) :
    fetch asm (ws.map PortEvent.word) = .waiting (asm ++ ws) := by
  cases asm with
  | nil =>
    cases ws with
    | nil => rfl
    | cons w ws =>
      have hlt : ws.length < cmdLength w - 1 := Nat.lt_sub_of_add_lt h
      simp only [fetch, List.map_cons, fetchMore, portFront_short ws hlt, frontWords_short ws hlt.le,
        List.cons_append, List.nil_append]
  | cons w asm =>
    have hlt : ws.length < cmdLength w - (w :: asm).length := by
      simp only [isPartial, List.cons_append, List.length_append] at h
      rw [List.length_cons]
      omega
    simp only [fetch, fetchMore, portFront_short ws hlt, frontWords_short ws hlt.le]

/-- A reset behind the beginning of a command is taken, and the words before it are dropped (R320). -/
theorem fetch_reset {asm ws : List Word} (rest : List PortEvent) (h : isPartial (asm ++ ws)) :
    fetch asm (ws.map PortEvent.word ++ .reset :: rest) = .reset rest := by
  cases asm with
  | nil =>
    cases ws with
    | nil => rfl
    | cons w ws =>
      have hlt : ws.length < cmdLength w - 1 := Nat.lt_sub_of_add_lt h
      simp only [fetch, List.map_cons, List.cons_append, fetchMore, portFront_reset ws rest hlt]
  | cons w asm =>
    have hlt : ws.length < cmdLength w - (w :: asm).length := by
      simp only [isPartial, List.cons_append, List.length_append] at h
      rw [List.length_cons]
      omega
    simp only [fetch, fetchMore, portFront_reset ws rest hlt]

/-! What a step does with it. -/

theorem step_of_waiting {s : State} {asm : List Word} (h : fetch s.asm s.port = .waiting asm) :
    step s = .next (s.await asm) := by
  simp only [step, h]

theorem step_of_reset {s : State} {rest : List PortEvent} (h : fetch s.asm s.port = .reset rest) :
    step s = .next (State.takeReset rest) := by
  simp only [step, h]

theorem step_of_command {s : State} {ws : List Word} {rest : List PortEvent}
    (h : fetch s.asm s.port = .command ws rest) : step s = runCommand ws (s.consume ws.length rest) := by
  simp only [step, h]

theorem runCommand_of_ok {ws : List Word} {i : Instr} (h : decode ws = .ok i) (s : State) :
    runCommand ws s = exec i s := by
  simp only [runCommand, h]

theorem runCommand_of_error {ws : List Word} {e : DecodeError} (h : decode ws = .error e) (s : State) :
    runCommand ws s = .next (s.raiseIllegal ws) := by
  simp only [runCommand, h]

/-- Settles O5. -/
theorem stepRunsDecodedCommand : Obligations.StepRunsDecodedCommand := by
  rintro s pre suf rest i hd hsuf rfl hport
  obtain ⟨h, ds, hws, hl⟩ := decode_length hd
  rw [step_of_command (hport ▸ fetch_command rest hws hl hsuf), runCommand_of_ok hd]
  rfl

/-- Settles O7. -/
theorem partialCommandWaits : Obligations.PartialCommandWaits := by
  intro s ws hp hport
  exact ⟨step_of_waiting (hport ▸ fetch_partial hp), rfl⟩

/-- Settles O8. -/
theorem resetInputDiscardsPartialCommand : Obligations.ResetInputDiscardsPartialCommand := by
  intro s ws rest hp hport
  exact step_of_reset (hport ▸ fetch_reset rest hp)

/-! Illegal headers (R117, R118). -/

/-- A header of no row spells no command, whatever data words follow it. -/
theorem decode_error_of_no_row {h : Word} (hno : ∀ o : Opc, h &&& o.mask ≠ o.pattern) (ds : List Word) :
    ∃ e, decode (h :: ds) = .error e := by
  cases hd : decode (h :: ds) with
  | error e => exact ⟨e, rfl⟩
  | ok i =>
    obtain ⟨o, -, hm, -⟩ := decode_ok hd
    exact absurd hm (hno o)

/-- A reserved opcode has length 1 (R114). -/
theorem cmdLength_of_reserved {h : Word} (hno : ∀ o : Opc, opcField h ≠ o.code) : cmdLength h = 1 := by
  cases ho : Opc.ofByte (opcField h) with
  | none => simp only [cmdLength, ho]
  | some o => exact absurd (Laws.Opc.code_of_ofByte ho).symm (hno o)

/-- Four record bytes go into a word, and a begun word is a whole one (R119). -/
theorem recordWords_eq_ceil (n : Nat) : (recordWords n : Int) = ⌈(n : ℚ) / 4⌉ := by
  rw [eq_comm, Int.ceil_eq_iff]
  have hlo : 4 * recordWords n < n + 4 := by
    unfold recordWords
    omega
  have hhi : n ≤ 4 * recordWords n := by
    unfold recordWords
    omega
  have hlo' : 4 * (recordWords n : ℚ) < n + 4 := by exact_mod_cast hlo
  have hhi' : (n : ℚ) ≤ 4 * recordWords n := by exact_mod_cast hhi
  push_cast
  constructor <;> linarith

/-- Settles O6: the length goes by the opcode, and the words of that length are fetched whole before the decoder
refuses them. -/
theorem illegalHeaderConsumesItsLengthAndRaises : Obligations.IllegalHeaderConsumesItsLengthAndRaises := by
  refine ⟨?_, fun h => cmdLength_of_reserved, fun h => ⟨?_, ?_, ?_, ?_⟩, fun h ds => decode_ok_iff_matches⟩
  · rintro s h ds pre suf rest hno hl hws hsuf rfl hport
    obtain ⟨e, hd⟩ := decode_error_of_no_row hno ds
    rw [step_of_command (hport ▸ fetch_command rest hws hl hsuf), hws, runCommand_of_error hd]
    rfl
  · intro hmem
    simp only [List.mem_cons, List.not_mem_nil, or_false] at hmem
    rcases hmem with ho | ho | ho | ho
    · exact cmdLength_of_opcField (o := .nop) ho
    · exact cmdLength_of_opcField (o := .clrerr) ho
    · exact cmdLength_of_opcField (o := .regRd) ho
    · exact cmdLength_of_opcField (o := .fltClr) ho
  · intro hmem
    simp only [List.mem_cons, List.not_mem_nil, or_false] at hmem
    rcases hmem with ho | ho | ho | ho | ho | ho | ho
    · exact cmdLength_of_opcField (o := .regWr) ho
    · exact cmdLength_of_opcField (o := .fltEval) ho
    · exact cmdLength_of_opcField (o := .fltStep) ho
    · exact cmdLength_of_opcField (o := .mixInit) ho
    · exact cmdLength_of_opcField (o := .mixAdd) ho
    · exact cmdLength_of_opcField (o := .mixRd) ho
    · exact cmdLength_of_opcField (o := .mixRdpcm) ho
  · intro hmem
    simp only [List.mem_cons, List.not_mem_nil, or_false] at hmem
    rcases hmem with ho | ho
    · exact cmdLength_of_opcField (o := .oscGen) ho
    · exact cmdLength_of_opcField (o := .mixTone) ho
  · intro ho
    rw [cmdLength_of_opcField (o := .fltLoad) ho, ← recordWords_eq_ceil, Opc.dataWords]
    omega

end Sys2Proof.Machine
end

section
/-! Commands whose whole effect is one shared update: NOP, CLRERR, OSC_GEN, FLT_STEP without coefficients, FLT_CLR and
MIX_TONE; and raising an error (R296). -/

namespace Sys2Proof.Machine

/-- Settles O17: the record is written while ERR is 0 and kept while it is 1. -/
theorem raiseRecordsTheFirstError : Obligations.RaiseRecordsTheFirstError := by
  refine ⟨fun s e v h => ?_, fun s e v h => ?_, rfl⟩
  · simp only [State.raise, Status.afterError, h, Bool.false_eq_true, if_false]
  · simp only [State.raise, Status.afterError, h, if_true]

/-- Settles O23. -/
theorem nopClearsLasterrOnly : Obligations.NopClearsLasterrOnly := fun _ => rfl

/-- Settles O24. -/
theorem clrerrClearsTheErrorRecord : Obligations.ClrerrClearsTheErrorRecord := fun _ => rfl

/-- Adding as integers and wrapping is the addition of 32-bit patterns (R12). -/
theorem wrap32_add (x y : Word) : wrap32 (s32 x + s32 y) = x + y := by
  rw [wrap32, BitVec.ofInt_add, BitVec.ofInt_toInt, BitVec.ofInt_toInt]

/-- Settles O28. -/
theorem oscGenSamplesThenAdvances : Obligations.OscGenSamplesThenAdvances := by
  intro ch amp inc s
  refine ⟨fun h => ?_, fun h => ?_⟩
  · have hexec : exec (.oscGen ch amp inc) s = .next (s.oscStep ch amp inc) :=
      congrArg _ (if_pos (channelExists_iff.2 h))
    rw [hexec, State.oscStep, wrap32_add]
    rfl
  · rw [BitVec.ofNat_toNat]
    exact congrArg _ (if_neg (fun hc => absurd (channelExists_iff.1 hc) (by omega)))

/-- A gain of 65536 is a gain of 1: the product is shifted back to the sample (R240). -/
theorem asr_mul_unity (v : Int) : asr (v * 65536) 16 = v := Int.mul_ediv_cancel v (by decide)

/-- Settles O52: with no taps the output is the sample times the gain. -/
theorem fltStepPassesThrough : Obligations.FltStepPassesThrough := by
  intro x s hnco hunity
  refine ⟨_, exec_fltStep_of_counts (by rw [hnco]; decide) (by rw [hnco]; decide) x, ?_⟩
  have hzero : (0 : BitVec 4).toNat = 0 := rfl
  have hgain : s32 (65536 : Word) = 65536 := by decide
  rw [State.completeWith_result, filterOutput, hnco, hunity, hzero, hgain, asr_mul_unity, tapSum, tapSum,
    List.take_zero, List.take_zero]
  simp [wrap32]

/-- Settles O53. -/
theorem fltClrZeroesTheHistories : Obligations.FltClrZeroesTheHistories := by
  intro s
  exact ⟨Vector.replicate 8 0, Vector.replicate 8 0, rfl, fun k hk => by simp⟩

/-- Settles O55. -/
theorem mixToneSetsTheTone : Obligations.MixToneSetsTheTone := by
  intro st n s
  exact ⟨fun h => if_neg (not_lt.2 h), fun h => if_pos h⟩

end Sys2Proof.Machine
end

section
/-! Who writes the registers outside the filter unit (R35, R48, R49, R81, R170, R260): as with the filter unit, the rule
of each command names the states it can answer, and the frame is read off them. -/

namespace Sys2Proof.Machine

/-- A command of row `o` keeps what no rule lets it write: the oscillator registers, the mixer registers and its buffer,
RESULT, and always what `step` alone writes. -/
structure RegisterFrame (o : Opc) (s t : State) : Prop where
  oscShape : o ≠ .regWr → t.oscShape = s.oscShape
  oscPhase : o ≠ .regWr → o ≠ .oscGen → t.oscPhase = s.oscPhase
  mixLen : o ≠ .mixInit → t.mixLen = s.mixLen
  mixOfs : o ≠ .mixInit → o ≠ .mixTone → t.mixOfs = s.mixOfs
  mixCnt : o ≠ .mixInit → o ≠ .mixTone → t.mixCnt = s.mixCnt
  mixIdx : o ≠ .mixInit → o ≠ .mixTone → o ≠ .mixAdd → t.mixIdx = s.mixIdx
  buf : o ≠ .mixInit → o ≠ .mixAdd → t.buf = s.buf
  result : o ∈ [Opc.nop, .clrerr, .regWr, .fltClr] → t.result = s.result
  cp : t.cp = s.cp
  asm : t.asm = s.asm
  port : t.port = s.port

/-- An error changes none of these registers, whatever command raises it (R296). -/
theorem RegisterFrame.raise (o : Opc) (s : State) (e : ErrCode) (info : Word) : RegisterFrame o s (s.raise e info) := by
  constructor <;> intros <;> rfl

/-- Leaving a value in RESULT changes no other of these registers (R35, R297). -/
theorem RegisterFrame.completeWith {o : Opc} (ho : o ∉ [Opc.nop, .clrerr, .regWr, .fltClr]) (s : State) (v : Word) :
    RegisterFrame o s (s.completeWith v) :=
  ⟨fun _ => rfl, fun _ _ => rfl, fun _ => rfl, fun _ _ => rfl, fun _ _ => rfl, fun _ _ _ => rfl, fun _ _ => rfl,
    fun h => absurd h ho, rfl, rfl, rfl⟩

/-- Command by command: what each state that its rule names leaves of these registers. -/
theorem exec_registerFrame {i : Instr} {s t : State} (h : exec i s = .next t) : RegisterFrame (opcOf i) s t := by
  cases i with
  | nop => rw [execNop_cases h]; constructor <;> intros <;> rfl
  | clrerr => rw [execClrerr_cases h]; constructor <;> intros <;> rfl
  | regRd addr =>
    rcases execRegRd_cases h with ⟨r, -, rfl⟩ | ⟨-, rfl⟩
    · exact .completeWith (o := .regRd) (by decide) ..
    · exact .raise ..
  | regWr addr value =>
    rcases execRegWr_cases h with ⟨ch, -, rfl⟩ | ⟨ch, -, rfl⟩ | ⟨-, rfl⟩
    · constructor <;> simp [opcOf]
    · constructor <;> simp [opcOf]
    · exact .raise ..
  | oscGen ch amp inc =>
    rcases execOscGen_cases h with ⟨-, rfl⟩ | ⟨-, rfl⟩
    · constructor <;> simp [opcOf]
    · exact .raise ..
  | fltLoad bytes =>
    rcases execFltLoad_cases h with ⟨fs, env, len, -, rfl⟩ | ⟨e, info, -, rfl⟩
    · constructor <;> simp [opcOf]
    · exact .raise ..
  | fltEval dir pos =>
    rcases execFltEval_cases h with ⟨-, rfl⟩ | ⟨-, -, rfl⟩
    · exact .raise ..
    · constructor <;> simp [opcOf]
  | fltStep x =>
    obtain ⟨-, -, rfl⟩ := execFltStep_cases h
    constructor <;> simp [opcOf]
  | fltClr => rw [execFltClr_cases h]; constructor <;> simp
  | mixInit ms =>
    rcases execMixInit_cases h with ⟨-, rfl⟩ | ⟨-, rfl⟩
    · exact .raise ..
    · constructor <;> simp [opcOf]
  | mixTone start len =>
    rcases execMixTone_cases h with ⟨-, rfl⟩ | ⟨-, rfl⟩
    · exact .raise ..
    · constructor <;> simp [opcOf]
  | mixAdd sample =>
    rcases execMixAdd_cases h with ⟨-, rfl⟩ | ⟨-, -, rfl⟩
    · exact .raise ..
    · constructor <;> simp [opcOf]
  | mixRd pos =>
    rcases execMixRd_cases h with ⟨-, rfl⟩ | ⟨-, rfl⟩
    · exact .raise ..
    · exact .completeWith (o := .mixRd) (by decide) ..
  | mixRdpcm pos =>
    rcases execMixRdpcm_cases h with ⟨-, rfl⟩ | ⟨-, rfl⟩
    · exact .raise ..
    · exact .completeWith (o := .mixRdpcm) (by decide) ..

/-- OSC_GEN advances one channel's phase and keeps the others (R179). -/
theorem oscGen_other_phase {ch j : BitVec 4} {amp inc : Word} {s t : State}
    (h : exec (.oscGen ch amp inc) s = .next t) (hj : j ≠ ch) : pick16 t.oscPhase j = pick16 s.oscPhase j := by
  rcases execOscGen_cases h with ⟨-, rfl⟩ | ⟨-, rfl⟩
  · exact pick16_put16_other _ hj _
  · rfl

/-- Settles O21. -/
theorem registerWriters : Obligations.RegisterWriters := by
  intro i s t h
  have hf := exec_registerFrame h
  refine ⟨fun hr => ⟨hf.oscShape hr, hf.oscPhase hr⟩, ?_, hf.mixLen, fun hi ht => ⟨hf.mixOfs hi ht, hf.mixCnt hi ht⟩,
    hf.mixIdx, hf.result, hf.cp, hf.asm, hf.port⟩
  rintro ch amp inc j rfl hj
  exact oscGen_other_phase h hj

/-- A buffer read depends on BUF and MIX_LEN alone (R84). -/
theorem bufRead_congr {s t : State} (hbuf : t.buf = s.buf) (hlen : t.mixLen = s.mixLen) (p : Nat) :
    t.bufRead p = s.bufRead p := by
  simp only [State.bufRead, hbuf, hlen]

/-- MIX_ADD writes one byte and keeps the others (R263). -/
theorem mixAdd_other_byte {x : Word} {s t : State} (h : exec (.mixAdd x) s = .next t) {p : Nat}
    (hp : p ≠ s.mixOfs.toNat + s.mixIdx.toNat) : t.bufRead p = s.bufRead p := by
  rcases execMixAdd_cases h with ⟨-, rfl⟩ | ⟨-, -, rfl⟩
  · rfl
  · simp only [State.bufRead, State.completeWith_mixLen, State.completeWith_buf, Memory.read_write_other hp]

/-- Settles O22. -/
theorem bufferBytesKept : Obligations.BufferBytesKept := by
  intro i s t h
  have hf := exec_registerFrame h
  refine ⟨fun hi ha p => bufRead_congr (hf.buf hi ha) (hf.mixLen hi) p, fun ha p hp => ?_⟩
  cases i with
  | mixAdd x => exact mixAdd_other_byte h hp
  | _ => cases ha

end Sys2Proof.Machine
end

section
/-! Invariants of every step: a law of the state that the shared updates keep needs only its proof for each command. -/

namespace Sys2Proof.Machine

/-- A law that the reset state has and that taking words, waiting and raising an error keep is kept by every step if
every command keeps it (R30, R31, R298, R320). -/
theorem step_keeps {P : State → Prop} (hreset : ∀ rest, P (State.takeReset rest))
    (hawait : ∀ s asm, P s → P (s.await asm)) (hconsume : ∀ s n rest, P s → P (s.consume n rest))
    (hraise : ∀ s e v, P s → P (s.raise e v)) (hexec : ∀ i s t, P s → exec i s = .next t → P t)
    {s t : State} (hs : P s) (h : step s = .next t) : P t := by
  rcases step_cases h with ⟨asm, -, rfl⟩ | ⟨rest, -, rfl⟩ | ⟨ws, rest, i, -, -, hi⟩ | ⟨ws, rest, e, -, -, rfl⟩
  · exact hawait s asm hs
  · exact hreset rest
  · exact hexec i _ t (hconsume s ws.length rest hs) hi
  · exact hraise _ _ _ (hconsume s ws.length rest hs)

/-! The mixer (R48, R49, R84). -/

/-- The mixer's laws speak of the mixer's registers alone. -/
theorem MixerLegal.congr {s t : State} (h : MixerLegal s) (hbuf : t.buf = s.buf) (hlen : t.mixLen = s.mixLen)
    (hofs : t.mixOfs = s.mixOfs) (hcnt : t.mixCnt = s.mixCnt) (hidx : t.mixIdx = s.mixIdx) : MixerLegal t := by
  obtain ⟨hwf, hin, hmax, htone, hindex⟩ := h
  constructor
  · rwa [hbuf]
  · rwa [hbuf, hlen]
  · rwa [hlen]
  · rwa [hofs, hcnt, hlen]
  · rwa [hidx, hcnt]

/-- No buffer and no tone, as after reset (R321). -/
theorem MixerLegal.reset : MixerLegal State.reset :=
  ⟨rfl, by decide, by decide, by decide, by decide⟩

/-- A buffer of zeros of at most BUF_MAX samples, and no tone (R261). -/
theorem MixerLegal.initBuffer (s : State) {n : Nat} (hn : n ≤ Config.bufMax) : MixerLegal (s.initBuffer n) := by
  have hlen : (BitVec.ofNat 32 n).toNat = n := by
    rw [BitVec.toNat_ofNat]
    exact Nat.mod_eq_of_lt (by rw [Config.bufMax] at hn; omega)
  refine ⟨rfl, fun c hc => absurd hc List.not_mem_nil, ?_, Nat.zero_le _, le_rfl⟩
  rwa [State.initBuffer_mixLen, hlen]

/-- A tone within the buffer, none of its samples merged yet (R262). -/
theorem MixerLegal.tone {s : State} (h : MixerLegal s) {o c : Nat} (hoc : o + c ≤ s.mixLen.toNat) :
    MixerLegal { s with mixOfs := BitVec.ofNat 32 o, mixCnt := BitVec.ofNat 32 c, mixIdx := 0 } := by
  have := s.mixLen.isLt
  refine ⟨h.canonical, h.inside, h.lenMax, ?_, Nat.zero_le _⟩
  simp only [BitVec.toNat_ofNat]
  rwa [Nat.mod_eq_of_lt (by omega), Nat.mod_eq_of_lt (by omega)]

/-- The next index of a tone with a sample left does not wrap (R49). -/
theorem mixIdx_succ_toNat {i c : Word} (h : i.toNat < c.toNat) : (i + 1).toNat = i.toNat + 1 := by
  have := c.isLt
  rw [BitVec.toNat_add, show (1 : Word).toNat = 1 from rfl]
  omega

/-- A byte written inside the buffer, and the index advanced inside the tone (R263). -/
theorem MixerLegal.merged {s : State} (h : MixerLegal s) (hi : s.mixIdx.toNat < s.mixCnt.toNat) {p : Nat}
    (hp : p < s.mixLen.toNat) (v : Byte) :
    MixerLegal { s with buf := Memory.write s.buf p v, mixIdx := s.mixIdx + 1 } := by
  refine ⟨Memory.write_wf h.canonical p v, fun c hc => ?_, h.lenMax, h.toneFits, ?_⟩
  · rcases Memory.mem_write hc with hold | hnew
    · exact h.inside c hold
    · exact hnew ▸ hp
  · exact (mixIdx_succ_toNat hi).trans_le hi

/-- The tone's next sample lies in the buffer (R49). -/
theorem MixerLegal.next_inside {s : State} (h : MixerLegal s) (hi : s.mixIdx.toNat < s.mixCnt.toNat) :
    s.mixOfs.toNat + s.mixIdx.toNat < s.mixLen.toNat := by
  have := h.toneFits
  omega

theorem exec_keeps_mixerLegal (i : Instr) (s t : State) (hs : MixerLegal s) (h : exec i s = .next t) :
    MixerLegal t := by
  have hf := exec_registerFrame h
  cases i with
  | mixInit ms =>
    rcases execMixInit_cases h with ⟨-, rfl⟩ | ⟨hn, rfl⟩
    · exact hs.congr rfl rfl rfl rfl rfl
    · exact (MixerLegal.initBuffer s hn).congr rfl rfl rfl rfl rfl
  | mixTone start len =>
    rcases execMixTone_cases h with ⟨-, rfl⟩ | ⟨hoc, rfl⟩
    · exact hs.congr rfl rfl rfl rfl rfl
    · exact (hs.tone hoc).congr rfl rfl rfl rfl rfl
  | mixAdd sample =>
    rcases execMixAdd_cases h with ⟨-, rfl⟩ | ⟨hi, hp, rfl⟩
    · exact hs.congr rfl rfl rfl rfl rfl
    · exact (hs.merged hi hp _).congr rfl rfl rfl rfl rfl
  | _ =>
    exact hs.congr (hf.buf nofun nofun) (hf.mixLen nofun) (hf.mixOfs nofun nofun) (hf.mixCnt nofun nofun)
      (hf.mixIdx nofun nofun nofun)

/-- Settles O12. -/
theorem stepKeepsMixerLegal : Obligations.StepKeepsMixerLegal := fun _ _ =>
  step_keeps (fun _ => MixerLegal.reset.congr rfl rfl rfl rfl rfl) (fun _ _ h => h.congr rfl rfl rfl rfl rfl)
    (fun _ _ _ h => h.congr rfl rfl rfl rfl rfl) (fun _ _ _ h => h.congr rfl rfl rfl rfl rfl) exec_keeps_mixerLegal

/-! The error record (R34, R36, R296). -/

/-- The record's laws speak of STATUS and ERRINFO alone. -/
theorem RecordLegal.congr {s t : State} (h : RecordLegal s) (hstatus : t.status = s.status)
    (hinfo : t.errinfo = s.errinfo) : RecordLegal t := by
  obtain ⟨hclear, hrecorded⟩ := h
  constructor
  · rwa [hstatus, hinfo]
  · rwa [hstatus]

theorem RecordLegal.reset : RecordLegal State.reset := ⟨fun _ => ⟨rfl, rfl, rfl⟩, nofun⟩

theorem ErrCode.code_mem (e : ErrCode) : e.code ∈ ([0x01, 0x02, 0x03, 0x10, 0x11] : List Byte) := by
  cases e <;> decide

/-- Raising an error records one of the codes or keeps the one that is there (R296). -/
theorem RecordLegal.raise {s : State} (h : RecordLegal s) (e : ErrCode) (v : Word) : RecordLegal (s.raise e v) := by
  refine ⟨nofun, fun _ => ?_⟩
  rw [State.raise_status, Status.afterError_ecode]
  split
  · next herr => exact h.recorded herr
  · exact e.code_mem

/-- A completion keeps the record and clears LASTERR (R297). -/
theorem RecordLegal.completed {s t : State} (h : RecordLegal s) (hc : CompletedFrom s t) : RecordLegal t := by
  obtain ⟨hlast, herr, hcode, hinfo⟩ := hc
  constructor
  · intro hzero
    obtain ⟨-, hc0, hi0⟩ := h.clear (herr ▸ hzero)
    exact ⟨hlast, hcode.trans hc0, hinfo.trans hi0⟩
  · intro hone
    rw [hcode]
    exact h.recorded (herr ▸ hone)

theorem exec_keeps_recordLegal (i : Instr) (s t : State) (hs : RecordLegal s) (h : exec i s = .next t) :
    RecordLegal t := by
  by_cases hi : i = .clrerr
  · subst hi
    obtain ⟨hlast, herr, hcode, hinfo⟩ := execClrerr_clears h
    exact ⟨fun _ => ⟨hlast, hcode, hinfo⟩, fun hone => absurd (herr.symm.trans hone) nofun⟩
  · rcases exec_completed_or_raised hi h with hc | ⟨e, v, rfl⟩
    · exact hs.completed hc
    · exact hs.raise e v

/-- Settles O14. -/
theorem stepKeepsErrorRecordLegal : Obligations.StepKeepsErrorRecordLegal := fun _ _ =>
  step_keeps (fun _ => RecordLegal.reset.congr rfl rfl) (fun _ _ h => h.congr rfl rfl)
    (fun _ _ _ h => h.congr rfl rfl) (fun _ e v h => h.raise e v) exec_keeps_recordLegal

/-! Framing and absent channels (R31, R37, R38). -/

/-- Words that are not yet as many as asked for are fewer than that. -/
theorem frontWords_length_of_short {n : Nat} {port : List PortEvent} (h : portFront n port = .short) :
    (frontWords n port).length < n := by
  induction port generalizing n with
  | nil =>
    cases n with
    | zero => cases h
    | succ n => exact Nat.succ_pos n
  | cons e port ih =>
    cases n with
    | zero => cases h
    | succ n =>
      cases e with
      | word w => exact Nat.succ_lt_succ (ih h)
      | reset => cases h

/-- What waits is the words that were there and fewer than were missing. -/
theorem fetchMore_waiting {asm a : List Word} {n : Nat} {port : List PortEvent}
    (h : fetchMore asm n port = .waiting a) : ∃ ws, a = asm ++ ws ∧ ws.length < n := by
  unfold fetchMore at h
  split at h
  · cases h
  · cases h
  · next hshort =>
    cases h
    exact ⟨_, rfl, frontWords_length_of_short hshort⟩

/-- What waits is only the beginning of a command (R31, R114). -/
theorem isPartial_of_waiting {asm a : List Word} {port : List PortEvent} (h : fetch asm port = .waiting a) :
    isPartial a := by
  unfold fetch at h
  split at h
  · next w asm =>
    obtain ⟨ws, rfl, hlt⟩ := fetchMore_waiting h
    rw [List.length_cons] at hlt
    simp only [List.cons_append, isPartial, List.length_append]
    omega
  · split at h
    · cases h
      trivial
    · cases h
    · next w rest =>
      obtain ⟨ws, rfl, hlt⟩ := fetchMore_waiting h
      simp only [List.cons_append, List.nil_append, isPartial]
      omega

/-- After a step the assembly buffer is empty or holds the beginning of a command (R31). -/
theorem isPartial_of_step {s t : State} (h : step s = .next t) : isPartial t.asm := by
  rcases step_cases h with ⟨asm, hf, rfl⟩ | ⟨rest, -, rfl⟩ | ⟨ws, rest, i, -, -, hi⟩ | ⟨ws, rest, e, -, -, rfl⟩
  · exact isPartial_of_waiting hf
  · trivial
  · rw [(exec_registerFrame hi).asm]
    trivial
  · trivial

/-- This law speaks of the oscillator registers alone. -/
theorem ChannelsLegal.congr {s t : State} (h : ChannelsLegal s) (hshape : t.oscShape = s.oscShape)
    (hphase : t.oscPhase = s.oscPhase) : ChannelsLegal t := by
  unfold ChannelsLegal at *
  rwa [hshape, hphase]

theorem ChannelsLegal.reset : ChannelsLegal State.reset := fun i _ =>
  ⟨pick16_replicate 0 i, pick16_replicate 0 i⟩

/-- A write to a channel that exists is to none of those that do not (R170). -/
theorem pick16_put16_of_absent {α : Type} (v : Vector α 16) {i j : BitVec 4} (x : α) (hi : i.toNat < Config.nOsc)
    (hj : Config.nOsc ≤ j.toNat) : pick16 (put16 v i x) j = pick16 v j :=
  pick16_put16_other v (fun hji => by rw [hji] at hj; omega) x

theorem exec_keeps_channelsLegal (i : Instr) (s t : State) (hs : ChannelsLegal s) (h : exec i s = .next t) :
    ChannelsLegal t := by
  have hf := exec_registerFrame h
  cases i with
  | regWr addr value =>
    rcases execRegWr_cases h with ⟨ch, hch, rfl⟩ | ⟨ch, hch, rfl⟩ | ⟨-, rfl⟩
    · intro j hj
      have hpresent := (ofAddr_eq_some_iff.1 hch).1
      exact ⟨(pick16_put16_of_absent _ _ hpresent hj).trans (hs j hj).1, (hs j hj).2⟩
    · intro j hj
      have hpresent := (ofAddr_eq_some_iff.1 hch).1
      exact ⟨(hs j hj).1, (pick16_put16_of_absent _ _ hpresent hj).trans (hs j hj).2⟩
    · exact hs.congr rfl rfl
  | oscGen ch amp inc =>
    rcases execOscGen_cases h with ⟨hch, rfl⟩ | ⟨-, rfl⟩
    · exact fun j hj => ⟨(hs j hj).1, (pick16_put16_of_absent _ _ hch hj).trans (hs j hj).2⟩
    · exact hs.congr rfl rfl
  | _ => exact hs.congr (hf.oscShape nofun) (hf.oscPhase nofun nofun)

theorem step_keeps_channelsLegal {s t : State} (hs : ChannelsLegal s) (h : step s = .next t) : ChannelsLegal t :=
  step_keeps (fun _ => ChannelsLegal.reset.congr rfl rfl) (fun _ _ h => h.congr rfl rfl)
    (fun _ _ _ h => h.congr rfl rfl) (fun _ _ _ h => h.congr rfl rfl) exec_keeps_channelsLegal hs h

/-- Settles O15. -/
theorem stepKeepsFramingAndChannels : Obligations.StepKeepsFramingAndChannels := fun _ _ _ hs h =>
  ⟨isPartial_of_step h, step_keeps_channelsLegal hs h⟩

end Sys2Proof.Machine
end

section
/-! The mixer (R260 to R269): durations as sample counts, the buffer's bytes as numbers, and each command where its
range checks pass. -/

namespace Sys2Proof.Machine

/-- Settles O60. -/
theorem bufferReadAfterWrite : Obligations.BufferReadAfterWrite := by
  intro s p v hwf
  refine ⟨fun hp => ⟨_, State.bufWrite_eq_some.2 ⟨hp, rfl⟩, Memory.write_wf hwf p v, fun q => ?_⟩,
    fun hp => ⟨if_neg (not_lt.2 hp), if_neg (not_lt.2 hp)⟩⟩
  by_cases hq : q = p
  · subst hq
    rw [if_pos rfl]
    exact State.bufRead_eq_some.2 ⟨hp, Memory.read_write_same hwf q v⟩
  · rw [if_neg hq]
    simp only [State.bufRead, Memory.read_write_other hq]

/-! Durations (R260). -/

/-- 22050 samples a second, in lowest terms. -/
theorem samples_eq (ms : Nat) : samples ms = ms * 441 / 20 := by
  unfold samples
  omega

/-- The longest duration whose samples fit the buffer (R261). -/
theorem samples_le_bufMax_iff (ms : Nat) : samples ms ≤ Config.bufMax ↔ ms ≤ 190217 := by
  rw [samples_eq, Config.bufMax]
  omega

/-- Rounding two durations down one by one gives no more samples than rounding a longer one (R269). -/
theorem samples_add_le {a b d : Nat} (h : a + b ≤ d) : samples a + samples b ≤ samples d := by
  simp only [samples_eq]
  omega

theorem exec_mixInit_of_fits {d : Word} (h : d.toNat ≤ 190217) (s : State) :
    exec (.mixInit d) s
      = .next ((s.initBuffer (samples d.toNat)).completeWith (BitVec.ofNat 32 (samples d.toNat))) :=
  if_neg (not_lt.2 ((samples_le_bufMax_iff _).2 h))

/-- Settles O54. -/
theorem mixInitAllocatesZeroes : Obligations.MixInitAllocatesZeroes := by
  intro d s
  refine ⟨fun h => ⟨[], ?_, rfl, fun _ => rfl⟩, fun h => ?_⟩
  · rw [exec_mixInit_of_fits h, samples_eq]
    rfl
  · exact if_pos (not_le.1 (mt (samples_le_bufMax_iff _).1 (not_le.2 h)))

theorem exec_mixTone_of_fits {st n : Word} {s : State} (h : samples st.toNat + samples n.toNat ≤ s.mixLen.toNat) :
    exec (.mixTone st n) s = .next ({ s with
      mixOfs := BitVec.ofNat 32 (samples st.toNat)
      mixCnt := BitVec.ofNat 32 (samples n.toNat)
      mixIdx := 0 }.completeWith (BitVec.ofNat 32 (samples n.toNat))) :=
  if_neg (not_lt.2 h)

/-- Settles O56: MIX_LEN is the sample count of the whole track. -/
theorem announcedTonesFit : Obligations.AnnouncedTonesFit := by
  intro d st n s t s' hsum hd hinit hlen
  have hmax := (samples_le_bufMax_iff _).2 hd
  rw [exec_mixInit_of_fits hd, Host.Outcome.next.injEq] at hinit
  have hmixLen : s'.mixLen.toNat = samples d.toNat := by
    rw [hlen, ← hinit, State.completeWith_mixLen, State.initBuffer_mixLen, BitVec.toNat_ofNat]
    exact Nat.mod_eq_of_lt (by rw [Config.bufMax] at hmax; omega)
  have hfit : samples st.toNat + samples n.toNat ≤ s'.mixLen.toNat := by
    rw [hmixLen]
    exact samples_add_le hsum
  have hword := s'.mixLen.isLt
  have hofs : (BitVec.ofNat 32 (samples st.toNat)).toNat = samples st.toNat := by
    rw [BitVec.toNat_ofNat, Nat.mod_eq_of_lt (by omega)]
  have hcnt : (BitVec.ofNat 32 (samples n.toNat)).toNat = samples n.toNat := by
    rw [BitVec.toNat_ofNat, Nat.mod_eq_of_lt (by omega)]
  refine ⟨_, exec_mixTone_of_fits hfit, rfl, hofs, hcnt, ?_⟩
  rw [State.completeWith_mixOfs, State.completeWith_mixCnt, State.completeWith_mixLen, hofs, hcnt]
  exact hfit

/-! MIX_ADD (R263 to R265). -/

/-- The shift of a sample by 8 places is division by 256, rounded down (R13, R263). -/
theorem asr_eight_eq_floor (v : Int) : asr v 8 = ⌊(v : ℚ) / 256⌋ :=
  (Rat.floor_intCast_div_natCast v 256).symm

/-- The stored sample is the clamped sum: a byte and 24 bits do not leave 32 (R264, R265). -/
theorem mixSample_toInt (old : Byte) (x : Word) :
    (mixSample old x).toInt = max (-128) (min 127 (old.toInt + ⌊(x.toInt : ℚ) / 256⌋)) := by
  have hold := old.le_toInt
  have hold' := old.toInt_lt
  have hx := x.le_toInt
  have hx' := x.toInt_lt
  have hasr : asr x.toInt 8 = x.toInt / 256 := rfl
  have hfits : -2147483648 ≤ old.toInt + asr x.toInt 8 ∧ old.toInt + asr x.toInt 8 ≤ 2147483647 := by
    rw [hasr]
    omega
  rw [mixSample, sat8_toInt, wrap32_toInt hfits.1 hfits.2, asr_eight_eq_floor]

/-- The byte that MIX_ADD stores reads back as the clamped sum (R265). -/
theorem low8_mixSample_toInt (old : Byte) (x : Word) :
    (low8 (s32 (mixSample old x))).toInt = (mixSample old x).toInt :=
  low8_sat8_toInt _

/-- MIX_ADD with a sample of the tone left inside the buffer (R263). -/
theorem exec_mixAdd_of_room {s : State} (hi : s.mixIdx.toNat < s.mixCnt.toNat)
    (hp : s.mixOfs.toNat + s.mixIdx.toNat < s.mixLen.toNat) (x : Word) :
    exec (.mixAdd x) s = .next ({ s with
      buf := Memory.write s.buf (s.mixOfs.toNat + s.mixIdx.toNat)
        (low8 (s32 (mixSample (s.sample (s.mixOfs.toNat + s.mixIdx.toNat)) x)))
      mixIdx := s.mixIdx + 1 }.completeWith (mixSample (s.sample (s.mixOfs.toNat + s.mixIdx.toNat)) x)) := by
  simp only [exec, execMixAdd, if_neg (not_le.2 hi), State.bufRead_eq_some.2 ⟨hp, rfl⟩,
    State.bufWrite_eq_some.2 ⟨hp, rfl⟩]
  rfl

/-- Settles O57: the tone's law keeps the index inside the buffer. -/
theorem mixAddMergesWithSaturation : Obligations.MixAddMergesWithSaturation := by
  intro x s hs
  refine ⟨fun hi => ?_, fun hi => if_pos hi⟩
  have hp := hs.next_inside hi
  have hidx : BitVec.ofNat 32 (s.mixIdx.toNat + 1) = s.mixIdx + 1 := by
    rw [← mixIdx_succ_toNat hi, BitVec.ofNat_toNat, BitVec.setWidth_eq]
  refine ⟨Memory.write s.buf (s.mixOfs.toNat + s.mixIdx.toNat)
      (low8 (s32 (mixSample (s.sample (s.mixOfs.toNat + s.mixIdx.toNat)) x))),
    ?_, Memory.write_wf hs.canonical _ _, ?_, fun p hne => Memory.read_write_other hne _ _⟩
  · rw [exec_mixAdd_of_room hi hp, ← mixSample_toInt, BitVec.ofInt_toInt, hidx]
    rfl
  · rw [Memory.read_write_same hs.canonical, low8_mixSample_toInt, mixSample_toInt]

/-! MIX_RD and MIX_RDPCM (R266, R268). -/

theorem exec_mixRd_of_inside {p : Word} {s : State} (hp : p.toNat < s.mixLen.toNat) :
    exec (.mixRd p) s = .next (s.completeWith (wrap32 (s8 (s.sample p.toNat)))) := by
  simp only [exec, execMixRd, if_neg (not_le.2 hp), State.bufRead_eq_some.2 ⟨hp, rfl⟩]
  rfl

theorem exec_mixRdpcm_of_inside {p : Word} {s : State} (hp : p.toNat < s.mixLen.toNat) :
    exec (.mixRdpcm p) s = .next (s.completeWith ((low8 (s8 (s.sample p.toNat) - 127)).setWidth 32)) := by
  simp only [exec, execMixRdpcm, if_neg (not_le.2 hp), State.bufRead_eq_some.2 ⟨hp, rfl⟩]
  rfl

/-- The low 8 bits of an integer as a 32-bit pattern are its remainder modulo 256 (R12). -/
theorem low8_setWidth (v : Int) : (low8 v).setWidth 32 = BitVec.ofNat 32 (v % 256).toNat := by
  rw [← BitVec.ofNat_toNat, low8, BitVec.toNat_ofInt]
  rfl

/-- The container's byte is the sample less 127, as 8-bit patterns (R268). -/
theorem low8_sub_127 (v : Byte) : low8 (s8 v - 127) = v - 127 := by
  rw [low8, Int.sub_eq_add_neg, BitVec.ofInt_add, BitVec.ofInt_toInt, BitVec.sub_eq_add_neg]
  rfl

/-- Settles O59: subtracting 127 is undone by adding it. -/
theorem mixReadsReturnOneSample : Obligations.MixReadsReturnOneSample := by
  refine ⟨fun p s => ⟨fun hp => ⟨exec_mixRd_of_inside hp, ?_⟩, fun hp => ⟨if_pos hp, if_pos hp⟩⟩, ?_⟩
  · rw [exec_mixRdpcm_of_inside hp, low8_setWidth]
    rfl
  · simp only [low8_sub_127]
    exact (Equiv.subRight (127 : Byte)).bijective

end Sys2Proof.Machine
end

section
/-! The parse of a filter record (R123, R124, R201 to R207). A read takes the bytes of its field and nothing behind
them, and where they are cut short it answers the offset of the field; both facts pass from the single reads to the
whole record. -/

namespace Sys2Proof.Machine

/-- A read at offset `o` takes exactly the bytes `bs`: whatever follows them stands in its answer `v` only, and with
fewer of them it raises E_FMT_TRUNC with the offset of the field that could not be read (R207). -/
structure Reads {β : Type} (read : Cursor → Parse β) (o : Nat) (bs : List Byte) (v : List Byte → β) : Prop where
  whole : ∀ rest, read ⟨o, bs ++ rest⟩ = .ok (v rest)
  cut : ∀ k < bs.length, read ⟨o, bs.take k⟩ = .error (.fmtTrunc, BitVec.ofNat 32 (fieldOffset (o + k)))

/-- No bytes are taken where nothing is read. -/
theorem Reads.done {β : Type} (v : Cursor → β) (o : Nat) : Reads (fun c => .ok (v c)) o [] fun rest => v ⟨o, rest⟩ :=
  ⟨fun _ => rfl, fun _ hk => absurd hk (Nat.not_lt_zero _)⟩

/-- One read after another: the second begins where the first ended. -/
theorem Reads.bind {α β : Type} {f : Cursor → Parse (α × Cursor)} {g : α × Cursor → Parse β} {o o' : Nat}
    {bs bs' : List Byte} {a : α} {w : List Byte → β} (hf : Reads f o bs fun rest => (a, ⟨o', rest⟩))
    (ho : o' = o + bs.length) (hg : Reads (fun c => g (a, c)) o' bs' w) :
    Reads (fun c => f c >>= g) o (bs ++ bs') w := by
  subst ho
  refine ⟨fun rest => ?_, fun k hk => ?_⟩
  · simp only [List.append_assoc, hf.whole, ok_bind, hg.whole]
  · rcases lt_or_ge k bs.length with hlt | hge
    · simp only [List.take_append_of_le_length hlt.le, hf.cut k hlt]
      rfl
    · have hk' : k - bs.length < bs'.length := by
        rw [List.length_append] at hk
        omega
      have hcut := hg.cut _ hk'
      rw [show o + bs.length + (k - bs.length) = o + k by omega] at hcut
      simp only [List.take_append, List.take_of_length_le hge, hf.whole, ok_bind, hcut]

/-! The single reads. -/

theorem reads_rd8 {o : Nat} (ho : fieldOffset o = o) (b : Byte) : Reads rd8 o [b] fun rest => (b, ⟨o + 1, rest⟩) := by
  refine ⟨fun rest => rfl, fun k hk => ?_⟩
  obtain rfl : k = 0 := by
    rw [List.length_singleton] at hk
    omega
  rw [Nat.add_zero, ho]
  rfl

theorem reads_rd16 {o : Nat} (ho : fieldOffset o = o) (ho' : fieldOffset (o + 1) = o) (v : Half) :
    Reads rd16 o (halfBytes v) fun rest => (v, ⟨o + 2, rest⟩) := by
  refine ⟨rd16_halfBytes o v, fun k hk => ?_⟩
  have hk' : k < 2 := hk
  interval_cases k
  · rw [Nat.add_zero, ho]
    rfl
  · rw [ho']
    rfl

/-- The fields of two bytes behind the mask byte stand at even offsets (R123). -/
theorem fieldOffset_of_even {o : Nat} (hlo : 6 ≤ o) (he : o % 2 = 0) : fieldOffset o = o ∧ fieldOffset (o + 1) = o := by
  have hdef : ∀ n, 6 ≤ n → fieldOffset n = n - n % 2 := fun n hn => by
    rw [fieldOffset, if_neg (by omega), if_neg (by omega), if_neg (by omega), if_neg (by omega)]
  rw [hdef o hlo, hdef (o + 1) (by omega)]
  omega

theorem reads_rdPair {o : Nat} (hlo : 6 ≤ o) (he : o % 2 = 0) (p : Half × Half) :
    Reads rdPair o (pairBytes p.1 p.2) fun rest => (p, ⟨o + 4, rest⟩) := by
  obtain ⟨h0, h1⟩ := fieldOffset_of_even hlo he
  obtain ⟨h2, h3⟩ := fieldOffset_of_even (o := o + 2) (by omega) (by omega)
  rw [pairBytes, ← List.append_nil (halfBytes p.2)]
  refine (reads_rd16 h0 h1 p.1).bind rfl ?_
  refine (reads_rd16 h2 h3 p.2).bind rfl ?_
  exact .done (fun c => (p, c)) (o + 4)

/-- Two codes are four bytes. -/
theorem pairBytes_length (f r : Half) : (pairBytes f r).length = 4 := rfl

theorem length_flatMap_pairBytes {α : Type} (l : List α) (f r : α → Half) :
    (l.flatMap fun x => pairBytes (f x) (r x)).length = 4 * l.length := by
  induction l with
  | nil => rfl
  | cons x l ih =>
    rw [List.flatMap_cons, List.length_append, pairBytes_length, ih, List.length_cons]
    omega

/-- The start codes of a list of pairs (R204). -/
theorem reads_rdStarts {o : Nat} (hlo : 6 ≤ o) (he : o % 2 = 0) (ps : List (Half × Half)) :
    Reads (rdStarts ps.length) o (ps.flatMap fun p => pairBytes p.1 p.2)
      fun rest => (ps, ⟨o + 4 * ps.length, rest⟩) := by
  induction ps generalizing o with
  | nil => exact .done (fun c => ([], c)) o
  | cons p ps ih =>
    have hlen : o + 4 * (p :: ps).length = o + 4 + 4 * ps.length := by
      rw [List.length_cons]
      omega
    rw [hlen, List.flatMap_cons, ← List.append_nil (ps.flatMap _)]
    refine (reads_rdPair hlo he p).bind rfl ?_
    refine (ih (o := o + 4) (by omega) (by omega)).bind ?_ ?_
    · rw [length_flatMap_pairBytes]
    · exact .done (fun c => (p :: ps, c)) _

end Sys2Proof.Machine
end

section
/-! The record of a FilterSpec (R121, R123): its codes as bytes, and the FilterSpec that they give back. -/

namespace Sys2Proof.Machine

/-- The frequency and the range code of one end of pair `n`. -/
def codesAt (fs : FilterSpec) (d : Dir) (e : End) (n : BitVec 2) : Half × Half :=
  (pick4 ((fs.freq.get d).get e) n, pick4 ((fs.range.get d).get e) n)

/-- The codes of the active pairs of one end, in pair order. -/
def codePairs (fs : FilterSpec) (d : Dir) (e : End) : List (Half × Half) := (activePairs fs d).map (codesAt fs d e)

theorem activePairs_length (fs : FilterSpec) (d : Dir) : (activePairs fs d).length = (fs.pcnt.get d).toNat := by
  rw [activePairs, List.length_map, List.length_range]

theorem codePairs_length (fs : FilterSpec) (d : Dir) (e : End) :
    (codePairs fs d e).length = (fs.pcnt.get d).toNat := by
  rw [codePairs, List.length_map, activePairs_length]

/-- The codes of every active pair, as the record writes the start codes (R123). -/
theorem codeBytes_all (fs : FilterSpec) (d : Dir) (e : End) :
    codeBytes fs d e (fun _ => true) = (codePairs fs d e).flatMap fun p => pairBytes p.1 p.2 := by
  rw [codeBytes, List.filter_true, codePairs, List.flatMap_map]
  rfl

theorem codeBytes_length (fs : FilterSpec) (d : Dir) (e : End) (sel : BitVec 2 → Bool) :
    (codeBytes fs d e sel).length = 4 * ((activePairs fs d).filter sel).length :=
  length_flatMap_pairBytes _ _ _

/-- A pair that does not migrate has its start codes as end codes (R42, R43). -/
theorem SpecLegal.codesAt_stop {fs : FilterSpec} (h : SpecLegal fs) {d : Dir} {n : BitVec 2}
    (hm : migrates fs d n = false) : codesAt fs d .stop n = codesAt fs d .start n :=
  Prod.ext (h.unmigrated d n hm).1 (h.unmigrated d n hm).2

/-- The end codes of a list of pairs whose migration bits begin at `bit`: those of the pairs that migrate are read, the
others copied (R205). -/
theorem reads_rdEnds {fs : FilterSpec} (h : SpecLegal fs) (d : Dir) (ns : List (BitVec 2)) {bit o : Nat} (hlo : 6 ≤ o)
    (he : o % 2 = 0) (hbits : ∀ k (hk : k < ns.length), fs.migr.getLsbD (bit + k) = migrates fs d ns[k]) :
    Reads (rdEnds fs.migr bit (ns.map (codesAt fs d .start))) o
      ((ns.filter (migrates fs d)).flatMap fun n => pairBytes (codesAt fs d .stop n).1 (codesAt fs d .stop n).2)
      fun rest => (ns.map (codesAt fs d .stop), ⟨o + 4 * (ns.filter (migrates fs d)).length, rest⟩) := by
  induction ns generalizing bit o with
  | nil => exact .done (fun c => ([], c)) o
  | cons n ns ih =>
    have hbit : fs.migr.getLsbD bit = migrates fs d n := hbits 0 (Nat.succ_pos _)
    have hrest : ∀ k (hk : k < ns.length), fs.migr.getLsbD (bit + 1 + k) = migrates fs d ns[k] := fun k hk => by
      rw [Nat.add_right_comm, Nat.add_assoc]
      exact hbits (k + 1) (Nat.succ_lt_succ hk)
    have hdone : ∀ o' : Nat, Reads (fun c => (Except.ok ((n :: ns).map (codesAt fs d .stop), c) : Parse _)) o' []
        fun rest => ((n :: ns).map (codesAt fs d .stop), ⟨o', rest⟩) := fun o' => .done _ o'
    rw [List.map_cons]
    cases hm : migrates fs d n with
    | true =>
      have hlen : o + 4 * ((n :: ns).filter (migrates fs d)).length
          = o + 4 + 4 * (ns.filter (migrates fs d)).length := by
        rw [List.filter_cons_of_pos hm, List.length_cons]
        omega
      rw [hlen, List.filter_cons_of_pos hm, List.flatMap_cons, ← List.append_nil (List.flatMap _ _)]
      refine Reads.bind (a := codesAt fs d .stop n) (o' := o + 4) ?_ rfl ?_
      · simp only [hbit, hm]
        exact reads_rdPair hlo he _
      · refine (ih (o := o + 4) (by omega) (by omega) hrest).bind ?_ (hdone _)
        rw [length_flatMap_pairBytes]
    | false =>
      rw [List.filter_cons_of_neg (by simp [hm]), ← List.append_nil (List.flatMap _ _), ← List.nil_append (_ ++ [])]
      refine Reads.bind (a := codesAt fs d .stop n) (o' := o) ?_ rfl ?_
      · simp only [hbit, hm]
        rw [h.codesAt_stop hm]
        exact .done (fun c => (codesAt fs d .start n, c)) o
      · refine (ih hlo he hrest).bind ?_ (hdone _)
        rw [length_flatMap_pairBytes]

/-- Pair number `k` of the active ones is pair `k`, whose migration bit is bit `4 d + k` (R41). -/
theorem migr_activePairs {fs : FilterSpec} (h : SpecLegal fs) (d : Dir) (k : Nat) (hk : k < (activePairs fs d).length) :
    fs.migr.getLsbD (4 * dirNumber d + k) = migrates fs d (activePairs fs d)[k] := by
  have hlen := activePairs_length fs d
  have hle := h.pairs d
  have hpair : ((activePairs fs d)[k]).toNat = k := by
    simp only [activePairs, List.getElem_map, List.getElem_range, BitVec.toNat_ofNat]
    omega
  rw [migrates, hpair]

/-- The end codes of a direction (R205). -/
theorem reads_endCodes {fs : FilterSpec} (h : SpecLegal fs) (d : Dir) {o : Nat} (hlo : 6 ≤ o) (he : o % 2 = 0) :
    Reads (rdEnds fs.migr (4 * dirNumber d) (codePairs fs d .start)) o (codeBytes fs d .stop (migrates fs d))
      fun rest => (codePairs fs d .stop, ⟨o + 4 * ((activePairs fs d).filter (migrates fs d)).length, rest⟩) :=
  reads_rdEnds h d (activePairs fs d) hlo he (migr_activePairs h d)

/-- The start codes of a direction (R204). -/
theorem reads_startCodes (fs : FilterSpec) (d : Dir) {o : Nat} (hlo : 6 ≤ o) (he : o % 2 = 0) :
    Reads (rdStarts (fs.pcnt.get d).toNat) o (codeBytes fs d .start fun _ => true)
      fun rest => (codePairs fs d .start, ⟨o + 4 * (fs.pcnt.get d).toNat, rest⟩) := by
  rw [codeBytes_all, ← codePairs_length fs d .start]
  exact reads_rdStarts hlo he _

/-! The FilterSpec that the codes of a record give. -/

theorem pick4_codeBank (codes : List Half) (n : BitVec 2) :
    pick4 (codeBank codes) n = (codes[n.toNat]?).getD 0 := by
  simp [pick4, codeBank]

/-- Banks of four are equal when their entries are. -/
theorem bank4_ext {α : Type} {v w : Vector α 4} (h : ∀ n : BitVec 2, pick4 v n = pick4 w n) : v = w := by
  apply Vector.ext
  intro i hi
  have := h (BitVec.ofNat 2 i)
  simpa only [pick4, BitVec.toNat_ofNat, Nat.mod_eq_of_lt (show i < 2 ^ 2 from hi)] using this

/-- Entry `n` of the active codes is that of pair `n`, if there is one. -/
theorem codePairs_getElem? {fs : FilterSpec} (d : Dir) (e : End) (n : BitVec 2) :
    (codePairs fs d e)[n.toNat]? = if n.toNat < (fs.pcnt.get d).toNat then some (codesAt fs d e n) else none := by
  split
  · next hlt => simp [codePairs, activePairs, hlt]
  · next hge => exact List.getElem?_eq_none (by rw [codePairs_length]; omega)

/-- The codes of the active pairs fill a direction's frequency bank, since those of the others are 0 (R42). -/
theorem codeBank_freq {fs : FilterSpec} (h : SpecLegal fs) (d : Dir) (e : End) :
    codeBank ((codePairs fs d e).map Prod.fst) = (fs.freq.get d).get e := by
  refine bank4_ext fun n => ?_
  rw [pick4_codeBank, List.getElem?_map, codePairs_getElem?]
  split
  · rfl
  · next hge => exact (h.inactive d e n (not_lt.1 hge)).1.symm

/-- The codes of the active pairs fill a direction's range bank, since those of the others are 0 (R43). -/
theorem codeBank_range {fs : FilterSpec} (h : SpecLegal fs) (d : Dir) (e : End) :
    codeBank ((codePairs fs d e).map Prod.snd) = (fs.range.get d).get e := by
  refine bank4_ext fun n => ?_
  rw [pick4_codeBank, List.getElem?_map, codePairs_getElem?]
  split
  · rfl
  · next hge => exact (h.inactive d e n (not_lt.1 hge)).2.symm

/-- A FilterSpec is the one that its own fields give (R206). -/
theorem specOf_codePairs {fs : FilterSpec} (h : SpecLegal fs) {p0 p1 : BitVec 4}
    (h0 : p0.toNat = fs.pcnt.onset.toNat) (h1 : p1.toNat = fs.pcnt.release.toNat) :
    specOf p0 p1 ⟨fs.unity.start, fs.unity.stop⟩ fs.migr ⟨codePairs fs .onset .start, codePairs fs .release .start⟩
      ⟨codePairs fs .onset .stop, codePairs fs .release .stop⟩ = fs := by
  have hp0 : p0.setWidth 3 = fs.pcnt.onset := by
    rw [← BitVec.ofNat_toNat, h0, BitVec.ofNat_toNat, BitVec.setWidth_eq]
  have hp1 : p1.setWidth 3 = fs.pcnt.release := by
    rw [← BitVec.ofNat_toNat, h1, BitVec.ofNat_toNat, BitVec.setWidth_eq]
  simp only [specOf, codeBank_freq h, codeBank_range h, hp0, hp1]
  rfl

/-! The whole record. -/

/-- The record behind its count byte (R123). -/
def fieldBytes (fs : FilterSpec) : List Byte :=
  halfBytes fs.unity.start ++ (halfBytes fs.unity.stop ++ ([fs.migr] ++
    (codeBytes fs .onset .start (fun _ => true) ++ (codeBytes fs .release .start (fun _ => true) ++
      (codeBytes fs .onset .stop (migrates fs .onset) ++ codeBytes fs .release .stop (migrates fs .release))))))

theorem recordBytes_eq_cons (fs : FilterSpec) : recordBytes fs = countByte fs :: fieldBytes fs := by
  simp only [recordBytes, fieldBytes, List.append_assoc, List.cons_append, List.nil_append]

theorem filter_true_length (fs : FilterSpec) (d : Dir) :
    ((activePairs fs d).filter fun _ => true).length = (fs.pcnt.get d).toNat := by
  rw [List.filter_true, activePairs_length]

theorem fieldBytes_length (fs : FilterSpec) : (fieldBytes fs).length + 1 = recordLength fs := by
  have hhalf : ∀ v : Half, (halfBytes v).length = 2 := fun _ => rfl
  simp only [fieldBytes, List.length_append, codeBytes_length, hhalf, List.length_singleton, filter_true_length,
    recordLength, migratingPairs, PerDir.get]
  omega

/-- The fields after the count byte are those of the FilterSpec they were written from (R123 to R125). -/
theorem reads_parseFields {fs : FilterSpec} (h : SpecLegal fs) {p0 p1 : BitVec 4}
    (h0 : p0.toNat = fs.pcnt.onset.toNat) (h1 : p1.toNat = fs.pcnt.release.toNat) :
    Reads (parseFields p0 p1) 1 (fieldBytes fs) fun _ =>
      (fs, envelopeFollows ⟨fs.unity.start, fs.unity.stop⟩ fs.migr, recordLength fs) := by
  have hlen : recordLength fs = 6 + 4 * fs.pcnt.onset.toNat + 4 * fs.pcnt.release.toNat
      + 4 * ((activePairs fs .onset).filter (migrates fs .onset)).length
      + 4 * ((activePairs fs .release).filter (migrates fs .release)).length := by
    rw [recordLength, migratingPairs]
    ring
  have hstart : ∀ d, (codeBytes fs d .start fun _ => true).length = 4 * (fs.pcnt.get d).toNat := fun d => by
    rw [codeBytes_length, filter_true_length]
  rw [hlen, fieldBytes, ← List.append_nil (codeBytes fs .release .stop _)]
  refine (reads_rd16 (by decide) (by decide) fs.unity.start).bind rfl ?_
  refine (reads_rd16 (by decide) (by decide) fs.unity.stop).bind rfl ?_
  refine (reads_rd8 (by decide) fs.migr).bind rfl ?_
  rw [h0, h1]
  refine (reads_startCodes fs .onset (by omega) (by omega)).bind (by rw [hstart]) ?_
  refine (reads_startCodes fs .release (by omega) (by omega)).bind (by rw [hstart]) ?_
  refine (reads_endCodes h .onset (by omega) (by omega)).bind (by rw [codeBytes_length]) ?_
  refine (reads_endCodes h .release (by omega) (by omega)).bind (by rw [codeBytes_length]) ?_
  simp only [specOf_codePairs h h0 h1]
  exact .done (fun c => (fs, envelopeFollows ⟨fs.unity.start, fs.unity.stop⟩ fs.migr, c.offset)) _

/-- Both pair counts are read back from the count byte (R121). -/
theorem countByte_nibbles {fs : FilterSpec} (h : SpecLegal fs) :
    ((countByte fs).extractLsb' 4 4).toNat = fs.pcnt.onset.toNat ∧
      ((countByte fs).extractLsb' 0 4).toNat = fs.pcnt.release.toNat := by
  have hp0 : fs.pcnt.onset.toNat ≤ 4 := h.pairs .onset
  have hp1 : fs.pcnt.release.toNat ≤ 4 := h.pairs .release
  rw [highNibble_toNat, lowNibble_toNat, countByte, BitVec.toNat_ofNat]
  omega

/-- Behind a count byte that names a pair and none above 4 the fields are read (R201). -/
theorem parseRecord_countByte {fs : FilterSpec} (h : SpecLegal fs)
    (hpos : 0 < fs.pcnt.onset.toNat + fs.pcnt.release.toNat) (bs : List Byte) :
    parseRecord (countByte fs :: bs)
      = parseFields ((countByte fs).extractLsb' 4 4) ((countByte fs).extractLsb' 0 4) ⟨1, bs⟩ := by
  obtain ⟨h0, h1⟩ := countByte_nibbles h
  have hp0 : fs.pcnt.onset.toNat ≤ 4 := h.pairs .onset
  have hp1 : fs.pcnt.release.toNat ≤ 4 := h.pairs .release
  have hne : countByte fs ≠ 0 := fun hz => by
    rw [hz] at h0 h1
    have : ((0 : Byte).extractLsb' 4 4).toNat = 0 := rfl
    have : ((0 : Byte).extractLsb' 0 4).toNat = 0 := rfl
    omega
  simp only [parseRecord, rd8_cons, ok_bind]
  rw [if_neg (by omega), if_neg hne]

/-- Whether an envelope block follows, as a proposition (R125, R205). -/
theorem envelopeFollows_eq (unity : PerEnd Half) (migr : Byte) :
    envelopeFollows unity migr = decide (migr ≠ 0 ∨ unity.start ≠ unity.stop) := by
  rw [envelopeFollows, Bool.decide_or]

/-- Settles O36: the count byte is read and passes its check, and each field is read back from its bytes. -/
theorem fltLoadParsesEveryRecord : Obligations.FltLoadParsesEveryRecord := by
  intro fs extra s h hpos
  obtain ⟨h0, h1⟩ := countByte_nibbles h
  have hparse := (reads_parseFields h h0 h1).whole extra
  rw [← parseRecord_countByte h hpos, ← List.cons_append, ← recordBytes_eq_cons] at hparse
  refine ⟨?_, ?_⟩
  · rw [recordBytes_eq_cons, List.length_cons, fieldBytes_length]
  · rw [exec_fltLoad_of_parseRecord_ok hparse, envelopeFollows_eq]
    rfl

/-- Settles O39: nothing is left of the count byte, or one of the fields behind it is cut. -/
theorem fltLoadTruncatedRaises : Obligations.FltLoadTruncatedRaises := by
  intro fs n s h hpos hn
  refine exec_fltLoad_of_parseRecord_error ?_ s
  rw [recordBytes_eq_cons]
  cases n with
  | zero => rfl
  | succ k =>
    obtain ⟨h0, h1⟩ := countByte_nibbles h
    have hlen := fieldBytes_length fs
    rw [List.take_succ_cons, parseRecord_countByte h hpos, (reads_parseFields h h0 h1).cut k (by omega), Nat.add_comm]

end Sys2Proof.Machine
end

section
/-! What any record that parses gives: a legal FilterSpec (R39, R42, R43). -/

namespace Sys2Proof.Machine

/-- The codes of one direction that a parse gives are as many as its pair count says, and a pair whose migration bit
is 0 has its start codes as end codes (R204, R205). -/
structure CodesParsed (migr : Byte) (bit : Nat) (count : Nat) (starts ends : List (Half × Half)) : Prop where
  starts_length : starts.length = count
  ends_length : ends.length = count
  copied : ∀ k, migr.getLsbD (bit + k) = false → ends[k]? = starts[k]?

theorem codesParsed_of_reads {migr : Byte} {bit n : Nat} {starts ends : List (Half × Half)} {c c' c'' c''' : Cursor}
    (hs : rdStarts n c = .ok (starts, c')) (he : rdEnds migr bit starts c'' = .ok (ends, c''')) :
    CodesParsed migr bit n starts ends := by
  obtain ⟨hlen, hcopied⟩ := rdEnds_spec he
  exact ⟨rdStarts_length hs, hlen.trans (rdStarts_length hs), hcopied⟩

/-- Entries beyond the codes of a list are 0 (R206). -/
theorem pick4_codeBank_of_short {l : List (Half × Half)} {g : Half × Half → Half} {n : BitVec 2}
    (h : l.length ≤ n.toNat) : pick4 (codeBank (l.map g)) n = 0 := by
  rw [pick4_codeBank, List.getElem?_eq_none (by rwa [List.length_map])]
  rfl

/-- Lists that agree at a place give banks that do. -/
theorem pick4_codeBank_congr {l l' : List (Half × Half)} {g : Half × Half → Half} {n : BitVec 2}
    (h : l[n.toNat]? = l'[n.toNat]?) : pick4 (codeBank (l.map g)) n = pick4 (codeBank (l'.map g)) n := by
  rw [pick4_codeBank, pick4_codeBank, List.getElem?_map, List.getElem?_map, h]

/-- Codes as a parse gives them make a legal FilterSpec (R39, R42, R43). -/
theorem specLegal_specOf {p0 p1 : BitVec 4} (h0 : p0.toNat ≤ 4) (h1 : p1.toNat ≤ 4) (unity : PerEnd Half) {migr : Byte}
    {s0 s1 e0 e1 : List (Half × Half)} (hc0 : CodesParsed migr 0 p0.toNat s0 e0)
    (hc1 : CodesParsed migr 4 p1.toNat s1 e1) : SpecLegal (specOf p0 p1 unity migr ⟨s0, s1⟩ ⟨e0, e1⟩) := by
  have hcnt : ∀ p : BitVec 4, p.toNat ≤ 4 → (p.setWidth 3).toNat = p.toNat := fun p hp => by
    rw [BitVec.toNat_setWidth]
    omega
  constructor
  · intro d
    cases d with
    | onset => exact (hcnt p0 h0).trans_le h0
    | release => exact (hcnt p1 h1).trans_le h1
  · intro d e n hn
    cases d with
    | onset =>
      have hn' : p0.toNat ≤ n.toNat := (hcnt p0 h0).symm.trans_le hn
      cases e with
      | start => exact ⟨pick4_codeBank_of_short (hc0.starts_length.trans_le hn'), pick4_codeBank_of_short (hc0.starts_length.trans_le hn')⟩
      | stop => exact ⟨pick4_codeBank_of_short (hc0.ends_length.trans_le hn'), pick4_codeBank_of_short (hc0.ends_length.trans_le hn')⟩
    | release =>
      have hn' : p1.toNat ≤ n.toNat := (hcnt p1 h1).symm.trans_le hn
      cases e with
      | start => exact ⟨pick4_codeBank_of_short (hc1.starts_length.trans_le hn'), pick4_codeBank_of_short (hc1.starts_length.trans_le hn')⟩
      | stop => exact ⟨pick4_codeBank_of_short (hc1.ends_length.trans_le hn'), pick4_codeBank_of_short (hc1.ends_length.trans_le hn')⟩
  · intro d n hm
    cases d with
    | onset => exact ⟨pick4_codeBank_congr (hc0.copied _ hm), pick4_codeBank_congr (hc0.copied _ hm)⟩
    | release => exact ⟨pick4_codeBank_congr (hc1.copied _ hm), pick4_codeBank_congr (hc1.copied _ hm)⟩

theorem specLegal_of_parseFields {p0 p1 : BitVec 4} (h0 : p0.toNat ≤ 4) (h1 : p1.toNat ≤ 4) {c : Cursor}
    {fs : FilterSpec} {env : Bool} {len : Nat} (h : parseFields p0 p1 c = .ok (fs, env, len)) : SpecLegal fs := by
  simp only [parseFields] at h
  obtain ⟨⟨u0, c1⟩, -, h⟩ := of_bind_ok h
  obtain ⟨⟨u1, c2⟩, -, h⟩ := of_bind_ok h
  obtain ⟨⟨migr, c3⟩, -, h⟩ := of_bind_ok h
  obtain ⟨⟨s0, c4⟩, hs0, h⟩ := of_bind_ok h
  obtain ⟨⟨s1, c5⟩, hs1, h⟩ := of_bind_ok h
  obtain ⟨⟨e0, c6⟩, he0, h⟩ := of_bind_ok h
  obtain ⟨⟨e1, c7⟩, he1, h⟩ := of_bind_ok h
  cases h
  exact specLegal_specOf h0 h1 _ (codesParsed_of_reads hs0 he0) (codesParsed_of_reads hs1 he1)

/-- The FilterSpec with every field 0 is legal (R203). -/
theorem SpecLegal.zero : SpecLegal FilterSpec.zero := by
  refine ⟨fun d => ?_, fun d e n _ => zero_codes d e n, fun d n _ => ?_⟩
  · cases d <;> decide
  · obtain ⟨hf, hr⟩ := zero_codes d .stop n
    obtain ⟨hf', hr'⟩ := zero_codes d .start n
    exact ⟨hf.trans hf'.symm, hr.trans hr'.symm⟩

/-- A record that parses gives a legal FilterSpec (R39, R42, R43). -/
theorem specLegal_of_parseRecord {bytes : List Byte} {fs : FilterSpec} {env : Bool} {len : Nat}
    (h : parseRecord bytes = .ok (fs, env, len)) : SpecLegal fs := by
  simp only [parseRecord] at h
  obtain ⟨⟨cnt, c⟩, -, h⟩ := of_bind_ok h
  simp only at h
  split at h
  · cases h
  · next hpairs =>
    split at h
    · cases h
      exact .zero
    · exact specLegal_of_parseFields (by omega) (by omega) h

end Sys2Proof.Machine
end

section
/-! The in-place expansion (R229): the descending loop reads no entry that it has written, so every new coefficient is
made of old ones. In exact arithmetic those are the coefficients of the product. -/

namespace Sys2Proof.Machine

/-! What a pass leaves in each place, in any arithmetic. -/

section Pass

variable {α : Type} (r : Arith α)

/-- What the loop puts in place `k`, from the entries it reads (R229). -/
def loopTerm (a b : α) (c : List α) (k : Nat) : α :=
  r.add (c.getD k r.zero) (r.add (r.mul (c.getD (k - 1) r.zero) a) (r.mul (c.getD (k - 2) r.zero) b))

theorem getD_set_same {c : List α} {k : Nat} (h : k < c.length) (x d : α) : (c.set k x).getD k d = x := by
  rw [List.getD_eq_getElem?_getD, List.getElem?_set_self h, Option.getD_some]

theorem getD_set_other {k j : Nat} (h : k ≠ j) (c : List α) (x d : α) : (c.set k x).getD j d = c.getD j d := by
  rw [List.getD_eq_getElem?_getD, List.getElem?_set_ne h, ← List.getD_eq_getElem?_getD]

theorem backPropagate_same (a b : α) {c : List α} {k : Nat} (h : k < c.length) :
    (backPropagate r a b c k).getD k r.zero = loopTerm r a b c k :=
  getD_set_same h _ _

theorem backPropagate_other (a b : α) (c : List α) {k j : Nat} (h : k ≠ j) :
    (backPropagate r a b c k).getD j r.zero = c.getD j r.zero :=
  getD_set_other h _ _ _

theorem backPropagate_length (a b : α) (c : List α) (k : Nat) : (backPropagate r a b c k).length = c.length :=
  List.length_set

/-- A loop that runs downwards leaves what it puts in each place it visits, made of the entries from before it. -/
theorem loop_getD (a b : α) {ks : List Nat} (hdown : ks.Pairwise (· > ·)) {c : List α} (hpos : ∀ k ∈ ks, 2 ≤ k)
    (hlen : ∀ k ∈ ks, k < c.length) (j : Nat) :
    (ks.foldl (backPropagate r a b) c).getD j r.zero
      = if j ∈ ks then loopTerm r a b c j else c.getD j r.zero := by
  induction ks generalizing c with
  | nil => rfl
  | cons k ks ih =>
    obtain ⟨hlt, hrest⟩ := List.pairwise_cons.1 hdown
    have hbelow : ∀ i, i < k → (backPropagate r a b c k).getD i r.zero = c.getD i r.zero := fun i hi =>
      backPropagate_other r a b c (by omega)
    rw [List.foldl_cons, ih hrest (fun i hi => hpos i (List.mem_cons_of_mem _ hi))
      (fun i hi => (hlen i (List.mem_cons_of_mem _ hi)).trans_eq (backPropagate_length r a b c k).symm)]
    by_cases hj : j ∈ ks
    · have hjk := hlt j hj
      rw [if_pos hj, if_pos (List.mem_cons_of_mem _ hj), loopTerm, hbelow j hjk, hbelow (j - 1) (by omega),
        hbelow (j - 2) (by omega), loopTerm]
    · rw [if_neg hj]
      by_cases hjk : j = k
      · rw [hjk, if_pos List.mem_cons_self, backPropagate_same r a b (hlen k List.mem_cons_self)]
      · rw [if_neg (by simp [hjk, hj]), backPropagate_other r a b c (Ne.symm hjk)]

theorem loop_length (a b : α) (ks : List Nat) (c : List α) :
    (ks.foldl (backPropagate r a b) c).length = c.length := by
  induction ks generalizing c with
  | nil => rfl
  | cons k ks ih => rw [List.foldl_cons, ih, backPropagate_length]

/-- The coefficients with the two new high terms, before the loop (R229). -/
def withHighTerms (a b : α) (c : List α) : List α :=
  c ++ [r.add (r.mul (c.getD (c.length - 1) r.zero) a) (r.mul (c.getD (c.length - 2) r.zero) b),
    r.mul (c.getD (c.length - 1) r.zero) b]

/-- The coefficients after the loop (R229). -/
def afterLoop (a b : α) (c : List α) : List α :=
  (((List.range c.length).filter (2 ≤ ·)).reverse).foldl (backPropagate r a b) (withHighTerms r a b c)

theorem withHighTerms_length (a b : α) (c : List α) : (withHighTerms r a b c).length = c.length + 2 := by
  simp [withHighTerms]

theorem withHighTerms_getD (a b : α) {c : List α} {k : Nat} (h : k < c.length) :
    (withHighTerms r a b c).getD k r.zero = c.getD k r.zero :=
  List.getD_append _ _ _ _ h

theorem afterLoop_length (a b : α) (c : List α) : (afterLoop r a b c).length = c.length + 2 := by
  rw [afterLoop, loop_length, withHighTerms_length]

theorem afterLoop_getD (a b : α) (c : List α) (k : Nat) :
    (afterLoop r a b c).getD k r.zero
      = if 2 ≤ k ∧ k < c.length then loopTerm r a b c k else (withHighTerms r a b c).getD k r.zero := by
  have hmem : ∀ k, k ∈ ((List.range c.length).filter (2 ≤ ·)).reverse ↔ 2 ≤ k ∧ k < c.length := fun k => by
    simp [and_comm]
  have hdown : ((List.range c.length).filter (2 ≤ ·)).reverse.Pairwise (· > ·) :=
    List.pairwise_reverse.2 (List.pairwise_lt_range.filter _)
  rw [afterLoop, loop_getD r a b hdown (fun k hk => ((hmem k).1 hk).1)
    (fun k hk => by rw [withHighTerms_length]; exact ((hmem k).1 hk).2.trans (by omega))]
  by_cases hk : 2 ≤ k ∧ k < c.length
  · rw [if_pos ((hmem k).2 hk), if_pos hk, loopTerm, withHighTerms_getD r a b hk.2,
      withHighTerms_getD r a b (by omega), withHighTerms_getD r a b (by omega), loopTerm]
  · rw [if_neg (mt (hmem k).1 hk), if_neg hk]

theorem expandPass_eq (c : List α) (q : α × α) :
    expandPass r c q = ((afterLoop r q.1 q.2 c).set 1 (r.add ((afterLoop r q.1 q.2 c).getD 1 r.zero)
      (r.add (r.mul ((afterLoop r q.1 q.2 c).getD 0 r.zero) q.1) q.2))).set 0
        (r.add (((afterLoop r q.1 q.2 c).set 1 (r.add ((afterLoop r q.1 q.2 c).getD 1 r.zero)
          (r.add (r.mul ((afterLoop r q.1 q.2 c).getD 0 r.zero) q.1) q.2))).getD 0 r.zero) q.1) := rfl

theorem expandPass_length (c : List α) (q : α × α) : (expandPass r c q).length = c.length + 2 := by
  rw [expandPass_eq, List.length_set, List.length_set, afterLoop_length]

variable {c : List α} (q : α × α)

/-- The lowest coefficient of a pass. -/
theorem expandPass_zero (hc : 2 ≤ c.length) :
    (expandPass r c q).getD 0 r.zero = r.add (c.getD 0 r.zero) q.1 := by
  rw [expandPass_eq, getD_set_same (by rw [List.length_set, afterLoop_length]; omega),
    getD_set_other (by decide), afterLoop_getD, if_neg (by omega), withHighTerms_getD r _ _ (by omega)]

/-- The second coefficient of a pass. -/
theorem expandPass_one (hc : 2 ≤ c.length) :
    (expandPass r c q).getD 1 r.zero
      = r.add (c.getD 1 r.zero) (r.add (r.mul (c.getD 0 r.zero) q.1) q.2) := by
  rw [expandPass_eq, getD_set_other (by decide), getD_set_same (by rw [afterLoop_length]; omega),
    afterLoop_getD, if_neg (by omega), withHighTerms_getD r _ _ (by omega), afterLoop_getD, if_neg (by omega),
    withHighTerms_getD r _ _ (by omega)]

/-- The coefficients of a pass that the loop makes. -/
theorem expandPass_loop {k : Nat} (hk : 2 ≤ k) (hkc : k < c.length) :
    (expandPass r c q).getD k r.zero = loopTerm r q.1 q.2 c k := by
  rw [expandPass_eq, getD_set_other (by omega), getD_set_other (by omega), afterLoop_getD, if_pos ⟨hk, hkc⟩]

/-- The first new high coefficient of a pass. -/
theorem expandPass_high (hc : 2 ≤ c.length) :
    (expandPass r c q).getD c.length r.zero
      = r.add (r.mul (c.getD (c.length - 1) r.zero) q.1) (r.mul (c.getD (c.length - 2) r.zero) q.2) := by
  rw [expandPass_eq, getD_set_other (by omega), getD_set_other (by omega), afterLoop_getD, if_neg (by omega),
    withHighTerms, List.getD_append_right _ _ _ _ le_rfl, Nat.sub_self]
  rfl

/-- The second new high coefficient of a pass. -/
theorem expandPass_highest (hc : 2 ≤ c.length) :
    (expandPass r c q).getD (c.length + 1) r.zero = r.mul (c.getD (c.length - 1) r.zero) q.2 := by
  rw [expandPass_eq, getD_set_other (by omega), getD_set_other (by omega), afterLoop_getD, if_neg (by omega),
    withHighTerms, List.getD_append_right _ _ _ _ (Nat.le_add_right _ 1), Nat.add_sub_cancel_left]
  rfl

theorem foldl_expandPass_length (qs : List (α × α)) (c : List α) :
    (qs.foldl (expandPass r) c).length = c.length + 2 * qs.length := by
  induction qs generalizing c with
  | nil => rfl
  | cons q qs ih =>
    rw [List.foldl_cons, ih, expandPass_length, List.length_cons]
    omega

/-- Two coefficients for each pair (R229). -/
theorem expand_length (qs : List (α × α)) : (expand r qs).length = 2 * qs.length := by
  cases qs with
  | nil => rfl
  | cons q qs =>
    rw [expand, foldl_expandPass_length, List.length_cons, List.length_cons, List.length_cons, List.length_nil]
    omega

end Pass

/-! Exact arithmetic. -/

/-- The polynomial of coefficients, coefficient by coefficient: 1, then the entries (R229). -/
theorem cascade_coeff (c : List ℚ) (n : Nat) :
    (cascade c).coeff n = if n = 0 then 1 else c.getD (n - 1) 0 := by
  have hsum : ((List.range c.length).map fun k => Polynomial.C (c.getD k 0) * Polynomial.X ^ (k + 1)).sum
      = ∑ k ∈ Finset.range c.length, Polynomial.C (c.getD k 0) * Polynomial.X ^ (k + 1) := rfl
  rw [cascade, hsum, Polynomial.coeff_add, Polynomial.finsetSum_coeff, Polynomial.coeff_one]
  simp only [Polynomial.coeff_C_mul_X_pow]
  cases n with
  | zero => simp
  | succ n =>
    simp only [Nat.add_right_cancel_iff, Finset.sum_ite_eq, Finset.mem_range, Nat.add_sub_cancel,
      Nat.succ_ne_zero, if_false, zero_add]
    split
    · rfl
    · next hn => exact (List.getD_eq_default _ _ (not_lt.1 hn)).symm

/-- A pass in exact arithmetic: entries beyond the last count as 0, and the entry before the first as 1 (R229). -/
theorem expandPass_exact {c : List ℚ} (q : ℚ × ℚ) (hc : 2 ≤ c.length) (k : Nat) :
    (expandPass exactArith c q).getD (k + 2) 0
      = c.getD (k + 2) 0 + c.getD (k + 1) 0 * q.1 + c.getD k 0 * q.2 := by
  have hout : ∀ j, c.length ≤ j → c.getD j 0 = 0 := fun j hj => List.getD_eq_default _ _ hj
  rcases lt_trichotomy (k + 2) c.length with hlt | heq | hgt
  · exact (expandPass_loop exactArith q (by omega) hlt).trans (add_assoc _ _ _).symm
  · have hhigh := expandPass_high exactArith q hc
    rw [← heq] at hhigh
    rw [hout (k + 2) heq.ge, zero_add]
    exact hhigh
  · rcases Nat.eq_or_lt_of_le hgt with heq | hgt
    · have hlast : c.length = k + 1 := by omega
      have hhighest := expandPass_highest exactArith q hc
      rw [hlast] at hhighest
      rw [hout (k + 2) (by omega), hout (k + 1) (by omega), zero_mul, zero_add, zero_add]
      exact hhighest
    · rw [hout (k + 2) (by omega), hout (k + 1) (by omega), hout k (by omega),
        List.getD_eq_default _ _ (by rw [expandPass_length]; omega)]
      ring

/-- One pass multiplies the polynomial by the pair's quadratic factor (R229). -/
theorem cascade_expandPass {c : List ℚ} (q : ℚ × ℚ) (hc : 2 ≤ c.length) :
    cascade (expandPass exactArith c q)
      = cascade c * (1 + Polynomial.C q.1 * Polynomial.X + Polynomial.C q.2 * Polynomial.X ^ 2) := by
  have hzero : (expandPass exactArith c q).getD 0 0 = c.getD 0 0 + q.1 := expandPass_zero exactArith q hc
  have hone : (expandPass exactArith c q).getD 1 0 = c.getD 1 0 + (c.getD 0 0 * q.1 + q.2) :=
    expandPass_one exactArith q hc
  rw [mul_add, mul_add, mul_one, ← mul_assoc, ← mul_assoc]
  ext n
  rw [Polynomial.coeff_add, Polynomial.coeff_add, Polynomial.coeff_mul_X_pow']
  rcases n with _ | _ | _ | n
  · simp [cascade_coeff]
  · simp [cascade_coeff, hzero, -List.getD_eq_getElem?_getD]
  · simp [cascade_coeff, hone, -List.getD_eq_getElem?_getD]
    ring
  · simp [cascade_coeff, expandPass_exact q hc, -List.getD_eq_getElem?_getD]

theorem cascade_pair (q : ℚ × ℚ) :
    cascade [q.1, q.2] = 1 + Polynomial.C q.1 * Polynomial.X + Polynomial.C q.2 * Polynomial.X ^ 2 := by
  simp [cascade, List.range_succ]
  ring

theorem cascade_foldl (qs : List (ℚ × ℚ)) {c : List ℚ} (hc : 2 ≤ c.length) :
    cascade (qs.foldl (expandPass exactArith) c) = cascade c * (qs.map fun q =>
      1 + Polynomial.C q.1 * Polynomial.X + Polynomial.C q.2 * Polynomial.X ^ 2).prod := by
  induction qs generalizing c with
  | nil => exact (mul_one _).symm
  | cons q qs ih =>
    rw [List.foldl_cons, ih (by rw [expandPass_length]; omega), cascade_expandPass q hc, List.map_cons,
      List.prod_cons, mul_assoc]

/-- Settles O48: the first pair's factor, and one more for each pass. -/
theorem expansionMultipliesTheQuadratics : Obligations.ExpansionMultipliesTheQuadratics := by
  intro qs
  cases qs with
  | nil => simp [expand, cascade]
  | cons q qs => rw [expand, cascade_foldl qs le_rfl, cascade_pair, List.map_cons, List.prod_cons]

end Sys2Proof.Machine
end

section
/-! Bounds and exact cases of the floating arithmetic (R14): a sum whose exact value is an integer is that integer
converted, and values bounded by small integers stay values of the format through additions and multiplications. -/

namespace Sys2Proof.Machine

/-! Exact cases. -/

theorem representable_zero (f : FpFmt) : representable f 0 := by exact_mod_cast representable_nat f (Nat.zero_le _)

/-- A small integer is exact in both formats, with either sign. -/
theorem representable_abs_int (f : FpFmt) {v : Int} (h : v.natAbs ≤ 2 ^ 24) : representable f |(v : ℚ)| := by
  have := representable_nat f h
  rwa [Nat.cast_natAbs, Int.cast_abs] at this

/-- An exact zero stays a zero. -/
theorem Rounds.eq_zero {f : FpFmt} {x : Fp} (h : Rounds f 0 x) : fpVal x = 0 :=
  h.exact_of_representable (by rw [abs_zero]; exact representable_zero f)

/-- A product with an exact small integer as its value is that integer. -/
theorem fpVal_mul_eq_int {f : FpFmt} {a b : Fp} {v : Int} (hv : v.natAbs ≤ 2 ^ 24) (h : fpVal a * fpVal b = v) :
    fpVal (fpMul f a b) = v := by
  have hr := fpMul_rounds f a b
  rw [h] at hr
  exact hr.exact_of_representable (representable_abs_int f hv)

/-- A dyadic value that is an integer is rounded as that integer is converted (R14). -/
theorem roundDyadic_eq_flInt (f : FpFmt) {m e v : Int} (h : (m : ℚ) * (2 : ℚ) ^ e = v) :
    roundDyadic f (decide (v < 0)) m.natAbs e = flInt f v := by
  refine roundTo_congr f _ (by positivity) Nat.one_pos ?_
  have habs := dyadic_quotient m.natAbs e
  have hpos : (0 : ℚ) < (2 : ℚ) ^ e := by positivity
  rw [Nat.cast_natAbs, Int.cast_abs, ← abs_of_pos hpos, ← abs_mul, h,
    div_eq_iff (by positivity)] at habs
  rw [mul_one]
  have hcast : ((v.natAbs : ℕ) : ℚ) = |(v : ℚ)| := by rw [Nat.cast_natAbs, Int.cast_abs]
  rw [← hcast] at habs
  exact_mod_cast habs

/-- A sum whose exact value is an integer is that integer converted, where the sign of a zero is plus (R14). -/
theorem fpAdd_eq_flInt (f : FpFmt) {a b : Fp} {v : Int} (h : fpVal a + fpVal b = v) (ha : a.neg = false) :
    fpAdd f a b = flInt f v := by
  have hsum : ((signedAt a (min a.exp b.exp) + signedAt b (min a.exp b.exp) : Int) : ℚ)
      * (2 : ℚ) ^ (min a.exp b.exp) = v := by
    rw [← h, fpVal_signedAt a (min_le_left _ _), fpVal_signedAt b (min_le_right _ _)]
    push_cast
    ring
  simp only [fpAdd]
  generalize signedAt a (min a.exp b.exp) + signedAt b (min a.exp b.exp) = m at *
  have hpow : (0 : ℚ) < (2 : ℚ) ^ min a.exp b.exp := by positivity
  have hzero : m = 0 ↔ v = 0 := by
    constructor
    · rintro rfl
      rw [Int.cast_zero, zero_mul] at hsum
      exact_mod_cast hsum.symm
    · rintro rfl
      rcases mul_eq_zero.1 hsum with hm | hp
      · exact_mod_cast hm
      · exact absurd hp hpow.ne'
  have hneg : m < 0 ↔ v < 0 := by
    have : (m : ℚ) < 0 ↔ (v : ℚ) < 0 := by
      rw [← hsum]
      exact ⟨fun h => mul_neg_of_neg_of_pos h hpow, fun h => neg_of_mul_neg_left h hpow.le⟩
    exact_mod_cast this
  have hsign : (if m = 0 then a.neg && b.neg else decide (m < 0)) = decide (v < 0) := by
    rw [ha, Bool.false_and]
    by_cases hm : m = 0
    · rw [if_pos hm, hzero.1 hm]
      rfl
    · rw [if_neg hm, decide_eq_decide]
      exact hneg
  rw [hsign]
  exact roundDyadic_eq_flInt f hsum

/-! Interpolation (R224). -/

theorem flInt_neg (f : FpFmt) (v : Int) : (flInt f v).neg = decide (v < 0) := roundTo_neg ..

theorem fpVal_flInt_nat (f : FpFmt) {n : Nat} (h : n < 65536) : fpVal (flInt f n) = n := by
  rw [fpVal_flInt f (by omega)]
  rfl

/-- The difference of two codes is exact. -/
theorem fpVal_flInt_sub (f : FpFmt) {s e : Nat} (hs : s < 65536) (he : e < 65536) :
    fpVal (flInt f ((e : Int) - s)) = e - s := by
  rw [fpVal_flInt f (by omega)]
  push_cast
  rfl

/-- Where the added product is an integer, the interpolated value is an integer converted. -/
theorem interp_eq_flInt (f : FpFmt) {s e : Nat} {t : Fp} {v : Int} (hs : s < 65536)
    (h : fpVal (fpMul f (flInt f ((e : Int) - s)) t) = v) : interp f s e t = flInt f (s + v) := by
  refine fpAdd_eq_flInt f ?_ ?_
  · rw [fpVal_flInt_nat f hs, h]
    push_cast
    rfl
  · rw [flInt_neg]
    exact decide_eq_false (by omega)

/-- Equal codes need no position (R224, R235). -/
theorem interp_self (f : FpFmt) {s : Nat} (hs : s < 65536) (t : Fp) : interp f s s t = flInt f s := by
  have hprod : fpVal (fpMul f (flInt f ((s : Int) - s)) t) = (0 : Int) := by
    refine fpVal_mul_eq_int (by decide) ?_
    rw [sub_self, fpVal_flInt f (by decide), Int.cast_zero, zero_mul]
  rw [interp_eq_flInt f hs hprod, add_zero]

/-- Settles O43: at the ends the product is 0 and the whole difference. -/
theorem interpolationMeetsItsEnds : Obligations.InterpolationMeetsItsEnds := by
  intro f s e p hs he _
  refine ⟨interp_self f hs _, ?_, ?_⟩
  · have hprod : fpVal (fpMul f (flInt f ((e : Int) - s)) (position f 0)) = (0 : Int) := by
      refine fpVal_mul_eq_int (by decide) ?_
      rw [fpVal_position f (Nat.zero_le _), Nat.cast_zero, zero_div, mul_zero, Int.cast_zero]
    rw [interp_eq_flInt f hs hprod, add_zero]
  · have hprod : fpVal (fpMul f (flInt f ((e : Int) - s)) (position f 65536)) = ((e - s : Int) : ℚ) := by
      refine fpVal_mul_eq_int (by omega) ?_
      rw [fpVal_flInt_sub f hs he, fpVal_position f le_rfl]
      push_cast
      ring
    rw [interp_eq_flInt f hs hprod, add_sub_cancel, fpVal_flInt_nat f he]

/-- The position lies in 0 to 1 (R223). -/
theorem position_mem {f : FpFmt} {p : Nat} (hp : p ≤ 65536) :
    0 ≤ fpVal (position f p) ∧ fpVal (position f p) ≤ 1 := by
  rw [fpVal_position f hp]
  have : (p : ℚ) ≤ 65536 := by exact_mod_cast hp
  exact ⟨by positivity, by rw [div_le_one (by norm_num)]; exact this⟩

/-- The interpolated value of two codes is not negative: what is added is not below minus the start code, whichever
way it is rounded (R224). -/
theorem interp_nonneg {f : FpFmt} {s e : Nat} {t : Fp} (hs : s < 65536) (he : e < 65536) (h0 : 0 ≤ fpVal t)
    (h1 : fpVal t ≤ 1) : 0 ≤ fpVal (interp f s e t) := by
  have hsum := fpAdd_rounds f (flInt f s) (fpMul f (flInt f ((e : Int) - s)) t)
  refine hsum.nonneg ?_
  rw [fpVal_flInt_nat f hs]
  have hprod := fpMul_rounds f (flInt f ((e : Int) - s)) t
  rw [fpVal_flInt_sub f hs he] at hprod
  rcases le_total s e with hse | hse
  · have hse' : (s : ℚ) ≤ e := by exact_mod_cast hse
    have := hprod.nonneg (mul_nonneg (by linarith) h0)
    positivity
  · have hse' : (e : ℚ) ≤ s := by exact_mod_cast hse
    have hbound : |((e : ℚ) - s) * fpVal t| ≤ s := by
      rw [abs_mul, abs_of_nonneg h0, abs_of_nonpos (by linarith)]
      have : 0 ≤ (e : ℚ) := by positivity
      nlinarith
    have := neg_le_of_abs_le (hprod.abs_le (representable_nat f (by omega)) hbound)
    linarith

/-! Values of the format with a bound. -/

/-- A quotient of at most 2^24 is rounded to a value of the format. -/
theorem inFormat_roundTo {f : FpFmt} {neg : Bool} {num den : Nat} (hd : 0 < den)
    (h : (num : ℚ) / den ≤ (2 : ℚ) ^ (24 : Int)) : inFormat f (roundTo f neg num den) = true := by
  have hmin : minQuantum f ≤ 0 := by cases f <;> decide
  have hmax : 25 ≤ maxQuantum f := by cases f <;> decide
  have hprec : 2 ^ (precision f - 1) < 2 ^ precision f := by cases f <;> decide
  rcases Nat.eq_zero_or_pos num with rfl | hn
  · simp only [roundTo, if_true, inFormat, Bool.and_eq_true, decide_eq_true_eq]
    exact ⟨⟨by positivity, le_rfl⟩, by omega⟩
  obtain ⟨hlog, hlog'⟩ := floorLog2_bounds hn hd
  have hfloor : floorLog2 num den ≤ 24 := (zpow_le_zpow_iff_right₀ (by norm_num : (1 : ℚ) < 2)).1 (hlog.trans h)
  have hqlo : minQuantum f ≤ quantum f num den := le_max_right _ _
  have hqhi : quantum f num den ≤ 24 := max_le (by omega) (by omega)
  have hm : roundHalfEven (num * 2 ^ (-(quantum f num den)).toNat) (den * 2 ^ (quantum f num den).toNat)
      ≤ 2 ^ precision f := by
    have hpos : 0 < den * 2 ^ (quantum f num den).toNat := by positivity
    refine roundHalfEven_le hpos ?_
    have hquot := scaled_quotient num den (quantum f num den)
    have hle : (num : ℚ) / den / (2 : ℚ) ^ quantum f num den ≤ ((2 ^ precision f : Nat) : ℚ) := by
      rw [div_le_iff₀ (by positivity), pow_precision]
      have hexp : floorLog2 num den + 1 ≤ quantum f num den + 1 + (precision f - 1 : Nat) := by
        have := le_max_left (floorLog2 num den - (precision f - 1 : Nat)) (minQuantum f)
        rw [quantum]
        omega
      exact hlog'.le.trans (zpow_le_zpow_right₀ (by norm_num) hexp)
    rw [← hquot, div_le_iff₀ (by exact_mod_cast hpos)] at hle
    exact_mod_cast hle
  simp only [roundTo, if_neg hn.ne']
  split
  · simp only [inFormat, Bool.and_eq_true, decide_eq_true_eq]
    exact ⟨⟨hprec, by omega⟩, by omega⟩
  · next hne =>
    simp only [inFormat, Bool.and_eq_true, decide_eq_true_eq]
    exact ⟨⟨lt_of_le_of_ne hm hne, hqlo⟩, by omega⟩

/-- A finite value of the format with a magnitude of at most an integer. -/
structure Within (f : FpFmt) (b : Nat) (x : Fp) : Prop where
  finite : inFormat f x = true
  abs_le : |fpVal x| ≤ b

theorem Within.mono {f : FpFmt} {b b' : Nat} {x : Fp} (h : Within f b x) (hb : b ≤ b') : Within f b' x :=
  ⟨h.finite, h.abs_le.trans (by exact_mod_cast hb)⟩

theorem two_zpow_24 : (2 : ℚ) ^ (24 : Int) = 16777216 := by norm_num

/-- A sum of bounded values, rounded (R14). -/
theorem Within.add {f : FpFmt} {b c : Nat} {x y : Fp} (hx : Within f b x) (hy : Within f c y) (hbc : b + c ≤ 2 ^ 24) :
    Within f (b + c) (fpAdd f x y) := by
  have hsum : |fpVal x + fpVal y| ≤ ((b + c : Nat) : ℚ) := by
    push_cast
    exact (abs_add_le _ _).trans (add_le_add hx.abs_le hy.abs_le)
  refine ⟨?_, (fpAdd_rounds f x y).abs_le (representable_nat f hbc) hsum⟩
  have hexact : fpVal x + fpVal y
      = ((signedAt x (min x.exp y.exp) + signedAt y (min x.exp y.exp) : Int) : ℚ)
        * (2 : ℚ) ^ (min x.exp y.exp) := by
    rw [fpVal_signedAt x (min_le_left _ _), fpVal_signedAt y (min_le_right _ _)]
    push_cast
    ring
  refine inFormat_roundTo (by positivity) ?_
  rw [dyadic_quotient, Nat.cast_natAbs, Int.cast_abs, ← abs_of_pos (show (0 : ℚ) < 2 ^ min x.exp y.exp by positivity),
    ← abs_mul, ← hexact, two_zpow_24]
  exact hsum.trans (by exact_mod_cast hbc)

/-- A product of bounded values, rounded (R14). -/
theorem Within.mul {f : FpFmt} {b c : Nat} {x y : Fp} (hx : Within f b x) (hy : Within f c y) (hbc : b * c ≤ 2 ^ 24) :
    Within f (b * c) (fpMul f x y) := by
  have hprod : |fpVal x * fpVal y| ≤ ((b * c : Nat) : ℚ) := by
    rw [abs_mul]
    push_cast
    exact mul_le_mul hx.abs_le hy.abs_le (abs_nonneg _) (by positivity)
  refine ⟨?_, (fpMul_rounds f x y).abs_le (representable_nat f hbc) hprod⟩
  refine inFormat_roundTo (by positivity) ?_
  have hexact : |fpVal x * fpVal y| = ((x.mant * y.mant : Nat) : ℚ) * (2 : ℚ) ^ (x.exp + y.exp) := by
    rw [abs_mul, abs_fpVal, abs_fpVal, fpMag, fpMag, zpow_add₀ (by norm_num)]
    push_cast
    ring
  rw [dyadic_quotient, ← hexact, two_zpow_24]
  exact hprod.trans (by exact_mod_cast hbc)

/-- A small integer, converted. -/
theorem Within.flInt (f : FpFmt) {v : Int} (h : v.natAbs ≤ 2 ^ 24) : Within f v.natAbs (flInt f v) := by
  refine ⟨inFormat_roundTo Nat.one_pos ?_, ?_⟩
  · rw [Nat.cast_one, div_one, two_zpow_24]
    exact_mod_cast h
  · rw [fpVal_flInt f h, Nat.cast_natAbs, Int.cast_abs]

/-! Truncation (R14). -/

theorem abs_truncF_le (x : Fp) {b : Int} (h : |fpVal x| ≤ b) : |truncF x| ≤ b := by
  have hfloor : |truncF x| = ⌊fpMag x⌋ := by
    have hpos : (0 : Int) ≤ ⌊fpMag x⌋ := Int.floor_nonneg.2 (fpMag_nonneg x)
    rw [truncF_eq]
    split
    · rw [abs_neg, abs_of_nonneg hpos]
    · exact abs_of_nonneg hpos
  rw [hfloor]
  rw [abs_fpVal] at h
  exact_mod_cast (Int.floor_le _).trans h

/-- A value that is not negative is rounded down. -/
theorem truncF_of_nonneg {x : Fp} (h : 0 ≤ fpVal x) : truncF x = ⌊fpVal x⌋ := by
  have hmag : fpVal x = fpMag x := by rw [← abs_fpVal, abs_of_nonneg h]
  rw [truncF_eq, hmag]
  split
  · next hneg =>
    have hzero : fpMag x = 0 := by
      have : fpVal x = -fpMag x := if_pos hneg
      linarith
    rw [hzero]
    rfl
  · rfl

end Sys2Proof.Machine
end

section
/-! The three functions of the configuration (R222): the checks of FLT_EVAL as statements about values, the finite
values of a format as the values at its places, and with them the block's own functions. -/

namespace Sys2Proof.Machine

/-! The checks (R222). -/

theorem fpVal_of_neg {x : Fp} (h : x.neg = true) : fpVal x = -fpMag x := if_pos h

theorem fpVal_of_not_neg {x : Fp} (h : x.neg = false) : fpVal x = fpMag x := if_neg (by rw [h]; decide)

/-- A minus sign or a zero is a value of at most 0. -/
theorem neg_or_isZero_iff (x : Fp) : (x.neg || isZero x) = true ↔ fpVal x ≤ 0 := by
  have hmag := fpMag_nonneg x
  rw [Bool.or_eq_true, isZero_iff]
  cases h : x.neg with
  | true =>
    rw [fpVal_of_neg h]
    exact ⟨fun _ => by linarith, fun _ => .inl rfl⟩
  | false =>
    rw [fpVal_of_not_neg h]
    exact ⟨fun hz => (hz.resolve_left nofun).le, fun hle => .inr (le_antisymm hle hmag)⟩

/-- The bounds of a value from 0 up are those of its magnitude. -/
theorem isNonneg_and_magLe_iff (x : Fp) (k : Nat) :
    (isNonneg x = true ∧ magLe x k = true) ↔ 0 ≤ fpVal x ∧ fpVal x ≤ k := by
  rw [isNonneg_iff, magLe_iff, ← abs_fpVal]
  exact and_congr_right fun h => by rw [abs_of_nonneg h]

/-- A check that is asked for only where a condition holds. -/
theorem check_iff (b c : Bool) : (!b || c) = true ↔ (b = true → c = true) := by
  cases b <;> simp

theorem pow10Lawful_iff (l : FpLib) (e : Fp) :
    pow10Lawful l e = true ↔ inFormat l.fmt (l.pow10 e) = true ∧ (fpVal e = 0 → fpVal (l.pow10 e) = 1) ∧
      (fpVal e ≤ 0 → 0 ≤ fpVal (l.pow10 e) ∧ fpVal (l.pow10 e) ≤ 1) := by
  have hrange := isNonneg_and_magLe_iff (l.pow10 e) 1
  rw [Nat.cast_one] at hrange
  rw [pow10Lawful, Bool.and_eq_true, Bool.and_eq_true, check_iff, check_iff, isZero_iff, isOne_iff,
    neg_or_isZero_iff, Bool.and_eq_true, hrange, and_assoc]

/-- Bounds from 1 up need no check of the sign of their own. -/
theorem one_le_and_le_256_iff (x : Fp) :
    (isNonneg x && magGe x 1 && magLe x 256) = true ↔ 1 ≤ fpVal x ∧ fpVal x ≤ 256 := by
  rw [Bool.and_eq_true, Bool.and_eq_true, isNonneg_iff, magGe_iff, magLe_iff, ← abs_fpVal, Nat.cast_one,
    Nat.cast_ofNat]
  constructor
  · rintro ⟨⟨h0, h1⟩, h256⟩
    rw [abs_of_nonneg h0] at h1 h256
    exact ⟨h1, h256⟩
  · rintro ⟨h1, h256⟩
    have h0 : 0 ≤ fpVal x := zero_le_one.trans h1
    rw [abs_of_nonneg h0]
    exact ⟨⟨h0, h1⟩, h256⟩

theorem pow2Lawful_iff (l : FpLib) (e : Fp) :
    pow2Lawful l e = true ↔ inFormat l.fmt (l.pow2 e) = true ∧
      (fpVal e = 0 → e.neg = false → fpVal (l.pow2 e) = 1) ∧
      (0 ≤ fpVal e → fpVal e ≤ 8 → 1 ≤ fpVal (l.pow2 e) ∧ fpVal (l.pow2 e) ≤ 256) := by
  have harg := isNonneg_and_magLe_iff e 8
  rw [Nat.cast_ofNat] at harg
  have hzero : (e.neg || !isZero e || isOne (l.pow2 e)) = (!(isZero e && !e.neg) || isOne (l.pow2 e)) := by
    cases e.neg <;> simp
  rw [pow2Lawful, hzero, Bool.and_eq_true, Bool.and_eq_true, check_iff, check_iff, Bool.and_eq_true, Bool.and_eq_true,
    isZero_iff, Bool.not_eq_true', isOne_iff, harg, one_le_and_le_256_iff, and_imp, and_imp, and_assoc]

theorem cosLawful_iff (l : FpLib) (x : Fp) :
    cosLawful l x = true ↔ inFormat l.fmt (l.cos x) = true ∧ -1 ≤ fpVal (l.cos x) ∧ fpVal (l.cos x) ≤ 1 := by
  rw [cosLawful, Bool.and_eq_true, magLe_iff, ← abs_fpVal, abs_le, Nat.cast_one]

/-! Places (R14). -/

/-- The pattern of a normal value, from its binade and its remaining bits (R14). -/
theorem patternQuanta_normal {f : FpFmt} {m : Nat} (hlo : 2 ^ (precision f - 1) ≤ m)
    (hhi : m < 2 * 2 ^ (precision f - 1)) (d : Nat) :
    patternQuanta f ((d + 1) * 2 ^ (precision f - 1) + (m - 2 ^ (precision f - 1))) = m * 2 ^ d := by
  have hw0 : 0 < 2 ^ (precision f - 1) := by positivity
  rw [patternQuanta]
  generalize 2 ^ (precision f - 1) = w at *
  have hrest : m - w < w := by omega
  have hge : w ≤ (d + 1) * w := Nat.le_mul_of_pos_left w (Nat.succ_pos d)
  have hdiv : ((d + 1) * w + (m - w)) / w = d + 1 := by
    rw [Nat.mul_comm, Nat.mul_add_div hw0, Nat.div_eq_of_lt hrest, add_zero]
  have hmod : ((d + 1) * w + (m - w)) % w = m - w := by
    rw [Nat.mul_comm, Nat.mul_add_mod, Nat.mod_eq_of_lt hrest]
  rw [if_neg (by omega), hdiv, hmod, Nat.add_sub_cancel, Nat.add_sub_cancel' hlo]

/-- A significand shifted up by `d` places has a pattern: it is shifted up to its whole width if there is room, and is
its own pattern if there is none (R14). -/
theorem exists_pattern (f : FpFmt) (d : Nat) {m : Nat} (hm : m < 2 * 2 ^ (precision f - 1)) :
    ∃ n, patternQuanta f n = m * 2 ^ d ∧ n < (d + 2) * 2 ^ (precision f - 1) := by
  have hsucc : ∀ k, (k + 1) * 2 ^ (precision f - 1) = k * 2 ^ (precision f - 1) + 2 ^ (precision f - 1) := fun k =>
    Nat.succ_mul k _
  rcases lt_or_ge m (2 ^ (precision f - 1)) with hlt | hge
  · induction d generalizing m with
    | zero => exact ⟨m, by rw [patternQuanta, if_pos hlt, pow_zero, mul_one], by omega⟩
    | succ d ih =>
      rcases lt_or_ge (2 * m) (2 ^ (precision f - 1)) with hlt' | hge'
      · obtain ⟨n, hn, hbound⟩ := ih (m := 2 * m) (by omega) hlt'
        refine ⟨n, ?_, hbound.trans_le (Nat.mul_le_mul_right _ (by omega))⟩
        rw [hn, pow_succ]
        ring
      · refine ⟨(d + 1) * 2 ^ (precision f - 1) + (2 * m - 2 ^ (precision f - 1)), ?_, ?_⟩
        · rw [patternQuanta_normal hge' (by omega), pow_succ]
          ring
        · rw [hsucc (d + 2), hsucc (d + 1)]
          omega
  · exact ⟨_, patternQuanta_normal hge hm d, by rw [hsucc (d + 1)]; omega⟩

/-- Every finite value of a format has the magnitude of one of its patterns (R14). -/
theorem exists_pattern_of_inFormat {f : FpFmt} {v : Fp} (h : inFormat f v = true) :
    ∃ n ≤ f.patternMax, fpMag (ofPattern f n) = fpMag v := by
  simp only [inFormat, Bool.and_eq_true, decide_eq_true_eq] at h
  obtain ⟨⟨hmant, hlo⟩, hhi⟩ := h
  have hprec : 2 ^ precision f = 2 * 2 ^ (precision f - 1) := by cases f <;> simp [precision]
  have hmax : f.patternMax + 1 = ((maxQuantum f - minQuantum f).toNat + 2) * 2 ^ (precision f - 1) := by
    cases f <;> decide +kernel
  obtain ⟨n, hn, hbound⟩ := exists_pattern f (v.exp - minQuantum f).toNat (hprec ▸ hmant)
  refine ⟨n, ?_, ?_⟩
  · have hle : (v.exp - minQuantum f).toNat ≤ (maxQuantum f - minQuantum f).toNat := by omega
    have := Nat.mul_le_mul_right (2 ^ (precision f - 1)) (Nat.add_le_add_right hle 2)
    omega
  · rw [fpMag_ofPattern, hn, fpMag]
    push_cast
    rw [mul_assoc, ← zpow_natCast, ← zpow_add₀ (by norm_num)]
    congr 2
    omega

/-- The place of a pattern with a sign (R14). -/
def placeOf (n : Nat) (neg : Bool) : Int := if neg then -n - 1 else n

theorem ofPlace_placeOf (f : FpFmt) (n : Nat) (neg : Bool) :
    fpVal (ofPlace f (placeOf n neg)) = (if neg then -fpMag (ofPattern f n) else fpMag (ofPattern f n)) ∧
      (ofPlace f (placeOf n neg)).neg = neg := by
  cases neg with
  | true =>
    simp only [placeOf, if_true, ofPlace_negSucc, fpVal_neg, fpVal_ofPattern]
    exact ⟨trivial, by simp [fpNeg]⟩
  | false =>
    simp only [placeOf, Bool.false_eq_true, if_false, ofPlace_natCast, fpVal_ofPattern, ofPattern_neg, and_self]

/-- Every finite value of a format is at a place, with its sign (R14). -/
theorem exists_place {f : FpFmt} {v : Fp} (h : inFormat f v = true) :
    ∃ n ≤ f.patternMax, fpMag (ofPattern f n) = fpMag v ∧
      fpVal (ofPlace f (placeOf n v.neg)) = fpVal v ∧ (ofPlace f (placeOf n v.neg)).neg = v.neg := by
  obtain ⟨n, hn, hmag⟩ := exists_pattern_of_inFormat h
  obtain ⟨hval, hneg⟩ := ofPlace_placeOf f n v.neg
  exact ⟨n, hn, hmag, by rw [hval, hmag, fpVal], hneg⟩

/-! The block's own functions (R222). -/

theorem patternOne_le_pattern256_and_le_patternMax (f : FpFmt) : f.patternOne ≤ f.pattern256 ∧ f.pattern256 ≤ f.patternMax := by
  cases f <;> decide

/-- A place from -1 to that of 1 is a value of 0 to 1. -/
theorem fpVal_ofPlace_unit {f : FpFmt} {i : Int} (hlo : -1 ≤ i) (hhi : i ≤ f.patternOne) :
    0 ≤ fpVal (ofPlace f i) ∧ fpVal (ofPlace f i) ≤ 1 := by
  rcases eq_or_lt_of_le hlo with rfl | hpos
  · have hzero : fpMag (ofPattern f 0) = 0 := by
      rw [fpMag_ofPattern, patternQuanta, if_pos (by positivity), Nat.cast_zero, zero_mul]
    have hplace : fpVal (ofPlace f (-1)) = 0 := by
      rw [show (-1 : Int) = -((0 : Nat) : Int) - 1 from rfl, ofPlace_negSucc, fpVal_neg, fpVal_ofPattern, hzero,
        neg_zero]
    rw [hplace]
    exact ⟨le_rfl, zero_le_one⟩
  · obtain ⟨n, rfl⟩ := Int.eq_ofNat_of_zero_le (show 0 ≤ i by omega)
    rw [ofPlace_natCast, fpVal_ofPattern, ← fpMag_patternOne f]
    exact ⟨fpMag_nonneg _, fpMag_ofPattern_le_iff.2 (by omega)⟩

/-- A place from that of 1 to that of 256 is a value of 1 to 256. -/
theorem fpVal_ofPlace_octaves {f : FpFmt} {n : Nat} (hlo : f.patternOne ≤ n) (hhi : n ≤ f.pattern256) :
    1 ≤ fpVal (ofPlace f n) ∧ fpVal (ofPlace f n) ≤ 256 := by
  rw [ofPlace_natCast, fpVal_ofPattern, ← fpMag_patternOne f, ← fpMag_pattern256 f]
  exact ⟨fpMag_ofPattern_le_iff.2 hlo, fpMag_ofPattern_le_iff.2 hhi⟩

/-- A place as far as that of 1 on either side is a value of -1 to 1. -/
theorem fpVal_ofPlace_signed {f : FpFmt} {i : Int} (hlo : -(f.patternOne + 1 : Int) ≤ i) (hhi : i ≤ f.patternOne) :
    -1 ≤ fpVal (ofPlace f i) ∧ fpVal (ofPlace f i) ≤ 1 := by
  rcases le_or_gt 0 i with hpos | hneg
  · obtain ⟨h0, h1⟩ := fpVal_ofPlace_unit (by omega) hhi
    exact ⟨by linarith, h1⟩
  · obtain ⟨n, hn⟩ := Int.eq_ofNat_of_zero_le (show 0 ≤ -i - 1 by omega)
    obtain rfl : i = -n - 1 := by omega
    have hle : fpMag (ofPattern f n) ≤ 1 := by
      rw [← fpMag_patternOne f]
      exact fpMag_ofPattern_le_iff.2 (by omega)
    have := fpMag_nonneg (ofPattern f n)
    rw [ofPlace_negSucc, fpVal_neg, fpVal_ofPattern]
    constructor <;> linarith

theorem fpVal_flInt_one (f : FpFmt) : fpVal (flInt f 1) = 1 := by
  rw [fpVal_flInt f (by decide), Int.cast_one]

theorem blockPow10_lawful (e : Fp) : pow10Lawful blockLib e = true := by
  obtain ⟨hone, hmax⟩ := patternOne_le_pattern256_and_le_patternMax Config.fpFmt
  rw [pow10Lawful_iff]
  simp only [blockLib, blockPow10]
  by_cases hz : isZero e = true
  · rw [if_pos hz, fpVal_flInt_one]
    exact ⟨inFormat_one _, fun _ => rfl, fun _ => ⟨zero_le_one, le_rfl⟩⟩
  have hne : fpVal e ≠ 0 := mt (isZero_iff e).2 hz
  rw [if_neg hz]
  cases hneg : e.neg with
  | true =>
    have hlt := (Config.pow10Low Config.fpFmt e).isLt
    rw [if_pos rfl]
    exact ⟨inFormat_ofPlace (by omega) (by omega), fun h => absurd h hne,
      fun _ => fpVal_ofPlace_unit (by omega) (by omega)⟩
  | false =>
    have hlt := (Config.pow10High Config.fpFmt e).isLt
    rw [if_neg nofun]
    refine ⟨inFormat_ofPlace (by omega) (by omega), fun h => absurd h hne, fun hle => absurd hle ?_⟩
    have := fpMag_nonneg e
    rw [← fpVal_of_not_neg hneg] at this
    exact not_le.2 (lt_of_le_of_ne this hne.symm)

theorem blockPow2_lawful (e : Fp) : pow2Lawful blockLib e = true := by
  obtain ⟨hone, hmax⟩ := patternOne_le_pattern256_and_le_patternMax Config.fpFmt
  rw [pow2Lawful_iff]
  simp only [blockLib, blockPow2]
  by_cases hz : (isZero e && !e.neg) = true
  · rw [if_pos hz, fpVal_flInt_one]
    exact ⟨inFormat_one _, fun _ _ => rfl, fun _ _ => ⟨le_rfl, by norm_num⟩⟩
  have hnot : fpVal e = 0 → e.neg = false → False := fun h0 hneg =>
    hz (by rw [(isZero_iff e).2 h0, hneg]; rfl)
  rw [if_neg hz]
  have hdomain := isNonneg_and_magLe_iff e 8
  rw [Nat.cast_ofNat, ← Bool.and_eq_true] at hdomain
  by_cases hd : (isNonneg e && magLe e 8) = true
  · have hlt := (Config.pow2Mid Config.fpFmt e).isLt
    rw [if_pos hd, ← Nat.cast_add]
    exact ⟨inFormat_ofPlace (by omega) (by omega), fun h0 hneg => (hnot h0 hneg).elim,
      fun _ _ => fpVal_ofPlace_octaves (by omega) (by omega)⟩
  · have hlt := (Config.pow2Out Config.fpFmt e).isLt
    rw [if_neg hd]
    exact ⟨inFormat_ofPlace (by omega) (by omega), fun h0 hneg => (hnot h0 hneg).elim,
      fun h0 h8 => absurd (hdomain.2 ⟨h0, h8⟩) hd⟩

theorem blockCos_lawful (e : Fp) : cosLawful blockLib e = true := by
  obtain ⟨hone, hmax⟩ := patternOne_le_pattern256_and_le_patternMax Config.fpFmt
  have hlt := (Config.cosAll Config.fpFmt e).isLt
  rw [cosLawful_iff]
  simp only [blockLib, blockCos]
  exact ⟨inFormat_ofPlace (by omega) (by omega), fpVal_ofPlace_signed (by omega) (by omega)⟩

/-! None is shut out. -/

/-- Every value of 0 to 1, and -0, is at a place of the block's `pow10F` (R222). -/
theorem exists_unit_place {f : FpFmt} {v : Fp} (h : inFormat f v = true) (h0 : 0 ≤ fpVal v) (h1 : fpVal v ≤ 1) :
    ∃ i : Fin (f.patternOne + 2), fpVal (ofPlace f (i.val - 1)) = fpVal v ∧ (ofPlace f (i.val - 1)).neg = v.neg := by
  obtain ⟨n, -, hmag, hplace⟩ := exists_place h
  have hv : fpVal v = fpMag v := by rw [← abs_fpVal, abs_of_nonneg h0]
  cases hneg : v.neg with
  | false =>
    have hle : n ≤ f.patternOne := by
      rw [← fpMag_ofPattern_le_iff (f := f), hmag, ← hv, fpMag_patternOne]
      exact h1
    rw [hneg] at hplace
    refine ⟨⟨n + 1, by omega⟩, ?_⟩
    rw [Nat.cast_add, Nat.cast_one, add_sub_cancel_right]
    exact hplace
  | true =>
    have hzero : fpMag v = 0 := by
      have := fpVal_of_neg hneg
      linarith
    have hn : n = 0 := by
      have : fpMag (ofPattern f n) ≤ fpMag (ofPattern f 0) := by rw [hmag, hzero]; exact fpMag_nonneg _
      exact Nat.le_zero.1 (fpMag_ofPattern_le_iff.1 this)
    rw [hneg, hn] at hplace
    exact ⟨⟨0, by omega⟩, hplace⟩

/-- Every value of 1 to 256 is at a place of the block's `pow2F` (R222). -/
theorem exists_octave_place {f : FpFmt} {v : Fp} (h : inFormat f v = true) (h1 : 1 ≤ fpVal v) (h256 : fpVal v ≤ 256) :
    ∃ i : Fin (f.pattern256 - f.patternOne + 1), fpVal (ofPlace f (f.patternOne + i.val)) = fpVal v := by
  obtain ⟨n, -, hmag⟩ := exists_pattern_of_inFormat h
  have hv : fpVal v = fpMag v := by rw [← abs_fpVal, abs_of_nonneg (by linarith)]
  have hlo : f.patternOne ≤ n := by
    rw [← fpMag_ofPattern_le_iff (f := f), hmag, ← hv, fpMag_patternOne]
    exact h1
  have hhi : n ≤ f.pattern256 := by
    rw [← fpMag_ofPattern_le_iff (f := f), hmag, ← hv, fpMag_pattern256]
    exact h256
  refine ⟨⟨n - f.patternOne, by omega⟩, ?_⟩
  rw [← Nat.cast_add, Nat.add_sub_cancel' hlo, ofPlace_natCast, fpVal_ofPattern, hmag, hv]

/-- A place as far as pattern `b` on either side of zero, counted from the lowest. -/
theorem exists_signed_place {f : FpFmt} {v : Fp} {n b : Nat} (hn : n ≤ b)
    (hplace : fpVal (ofPlace f (placeOf n v.neg)) = fpVal v ∧ (ofPlace f (placeOf n v.neg)).neg = v.neg) :
    ∃ i : Fin (2 * b + 2), fpVal (ofPlace f (i.val - (b + 1))) = fpVal v ∧
      (ofPlace f (i.val - (b + 1))).neg = v.neg := by
  have hbounds : -(b : Int) - 1 ≤ placeOf n v.neg ∧ placeOf n v.neg ≤ b := by
    rw [placeOf]
    split <;> omega
  refine ⟨⟨(placeOf n v.neg + (b + 1)).toNat, by omega⟩, ?_⟩
  rw [Int.toNat_of_nonneg (by omega), add_sub_cancel_right]
  exact hplace

/-- Settles O44. -/
theorem configurationFunctionsAreLawful : Obligations.ConfigurationFunctionsAreLawful := by
  refine ⟨fun l e => ⟨pow10Lawful_iff l e, pow2Lawful_iff l e, cosLawful_iff l e⟩,
    fun e => ⟨blockPow10_lawful e, blockPow2_lawful e, blockCos_lawful e⟩,
    fun f v h => ⟨exists_unit_place h, exists_octave_place h, fun hlo hhi => ?_, ?_⟩,
    fun l db x g th => ⟨rfl, rfl, rfl⟩⟩
  · obtain ⟨n, -, hmag, hplace⟩ := exists_place h
    refine exists_signed_place ?_ hplace
    rw [← fpMag_ofPattern_le_iff (f := f), hmag, fpMag_patternOne, ← abs_fpVal]
    exact abs_le.2 ⟨hlo, hhi⟩
  · obtain ⟨n, hn, -, hplace⟩ := exists_place h
    exact exists_signed_place hn hplace

end Sys2Proof.Machine
end

section
/-! The unity gain (R225, R233): with functions that obey R222 an attenuation is a factor of 0 to 1, and in fixed point
one of 0 to 65536. -/

namespace Sys2Proof.Machine

/-! Attenuations (R225, R226). -/

/-- The constants of the spec that scale an attenuation are not negative. -/
theorem fpVal_roundTo_nonneg (f : FpFmt) (num den : Nat) : 0 ≤ fpVal (roundTo f false num den) := by
  rw [fpVal_of_not_neg (roundTo_neg ..)]
  exact fpMag_nonneg _

/-- An attenuation that is not negative asks `pow10F` for an exponent of at most 0, and one of 0 for 0. -/
theorem attenuationExp_sign (f : FpFmt) {db : Fp} :
    (0 ≤ fpVal db → fpVal (attenuationExp f db) ≤ 0) ∧ (fpVal db = 0 → fpVal (attenuationExp f db) = 0) := by
  have hmant : (flInt f 20).mant ≠ 0 := by cases f <;> decide +kernel
  have hdiv := fpDiv_rounds f db hmant
  rw [fpVal_flInt f (by decide)] at hdiv
  rw [attenuationExp, fpVal_neg]
  constructor
  · intro h
    exact neg_nonpos.2 (hdiv.nonneg (div_nonneg h (by norm_num)))
  · intro h
    rw [h, zero_div] at hdiv
    rw [hdiv.eq_zero, neg_zero]

/-- An attenuation that is not negative is a factor of 0 to 1 (R222, R225). -/
theorem attenuation_mem {l : FpLib} {db : Fp} (hl : pow10Lawful l (attenuationExp l.fmt db) = true)
    (h : 0 ≤ fpVal db) :
    inFormat l.fmt (attenuation l db) = true ∧ 0 ≤ fpVal (attenuation l db) ∧ fpVal (attenuation l db) ≤ 1 := by
  obtain ⟨hfin, -, hrange⟩ := (pow10Lawful_iff l _).1 hl
  exact ⟨hfin, hrange ((attenuationExp_sign l.fmt).1 h)⟩

/-- No attenuation is a factor of 1 (R222, R225). -/
theorem attenuation_of_zero {l : FpLib} {db : Fp} (hl : pow10Lawful l (attenuationExp l.fmt db) = true)
    (h : fpVal db = 0) : fpVal (attenuation l db) = 1 := by
  obtain ⟨-, hone, -⟩ := (pow10Lawful_iff l _).1 hl
  exact hone ((attenuationExp_sign l.fmt).2 h)

/-- A scaled interpolated value is not negative. -/
theorem scaled_interp_nonneg (f : FpFmt) (s e : Half) {p num den : Nat} (hp : p ≤ 65536) :
    0 ≤ fpVal (fpMul f (interp f s.toNat e.toNat (position f p)) (roundTo f false num den)) := by
  obtain ⟨h0, h1⟩ := position_mem (f := f) hp
  exact (fpMul_rounds f _ _).nonneg (mul_nonneg (interp_nonneg s.isLt e.isLt h0 h1) (fpVal_roundTo_nonneg ..))

/-- A scaled interpolated value of 0 is 0. -/
theorem scaled_interp_zero {f : FpFmt} {x k : Fp} (h : fpVal x = 0) : fpVal (fpMul f x k) = 0 := by
  have hr := fpMul_rounds f x k
  rw [h, zero_mul] at hr
  exact hr.eq_zero

/-- The unity gain is a value of 0 to 1 (R225, R233). -/
theorem unityGain_mem {l : FpLib} {fs : FilterSpec} {p : Nat} (hp : p ≤ 65536)
    (hl : unityLawful l fs (position l.fmt p) = true) :
    inFormat l.fmt (unityGain l fs (position l.fmt p)) = true ∧ 0 ≤ fpVal (unityGain l fs (position l.fmt p)) ∧
      fpVal (unityGain l fs (position l.fmt p)) ≤ 1 :=
  attenuation_mem hl (scaled_interp_nonneg l.fmt _ _ hp)

/-! Fixed point (R225, R231). -/

/-- A value that is an integer is truncated to it. -/
theorem truncF_of_int {x : Fp} {v : Int} (h : fpVal x = v) : truncF x = v := by
  rw [truncF_eq]
  cases hneg : x.neg with
  | true =>
    rw [fpVal_of_neg hneg] at h
    have hmag : fpMag x = ((-v : Int) : ℚ) := by
      push_cast
      linarith
    rw [if_pos rfl, hmag, Int.floor_intCast, neg_neg]
  | false =>
    rw [fpVal_of_not_neg hneg] at h
    rw [if_neg nofun, h, Int.floor_intCast]

/-- Where the scaled value is a small integer, the fixed-point value is that integer (R231). -/
theorem fixed16_of_int {f : FpFmt} {x : Fp} {v : Int} (hv : v.natAbs ≤ 2 ^ 24) (h : fpVal x * 65536 = v) :
    fixed16 f x = wrap32 v := by
  have hscale : fpVal (flInt f 65536) = 65536 := by
    rw [fpVal_flInt f (by decide)]
    rfl
  rw [fixed16, truncF_of_int (fpVal_mul_eq_int hv (by rw [hscale, h]))]

theorem fixed16_of_zero {f : FpFmt} {x : Fp} (h : fpVal x = 0) : fixed16 f x = 0 := by
  rw [fixed16_of_int (v := 0) (by decide) (by rw [h, zero_mul, Int.cast_zero])]
  rfl

theorem fixed16_of_one {f : FpFmt} {x : Fp} (h : fpVal x = 1) : fixed16 f x = 65536 := by
  rw [fixed16_of_int (v := 65536) (by decide) (by rw [h, one_mul]; rfl)]
  rfl

/-- A value of 0 to 1 becomes one of 0 to 65536 (R44). -/
theorem fixed16_toNat_le {f : FpFmt} {x : Fp} (h0 : 0 ≤ fpVal x) (h1 : fpVal x ≤ 1) :
    (fixed16 f x).toNat ≤ 65536 := by
  have hr := fpMul_rounds f x (flInt f 65536)
  rw [fpVal_flInt f (v := 65536) (by decide)] at hr
  push_cast at hr
  have hlo : 0 ≤ fpVal (fpMul f x (flInt f 65536)) := hr.nonneg (by positivity)
  have hhi : fpVal (fpMul f x (flInt f 65536)) ≤ 65536 :=
    hr.le_of_le (by exact_mod_cast representable_nat f (n := 65536) (by decide)) (by norm_num) (by linarith)
  have hfloor : 0 ≤ ⌊fpVal (fpMul f x (flInt f 65536))⌋ := Int.floor_nonneg.2 hlo
  have hfloor' : ⌊fpVal (fpMul f x (flInt f 65536))⌋ ≤ 65536 := by exact_mod_cast (Int.floor_le _).trans hhi
  rw [fixed16, truncF_of_nonneg hlo, wrap32, BitVec.toNat_ofInt]
  omega

/-- Settles O45: the unity gain is an attenuation, and none is exactly 65536 in fixed point. -/
theorem unityGainLiesInUnitRange : Obligations.UnityGainLiesInUnitRange := by
  intro l fs p hp hl
  obtain ⟨-, h0, h1⟩ := unityGain_mem hp hl
  exact ⟨fixed16_toNat_le h0 h1, fun hzero => fixed16_of_one (attenuation_of_zero hl (scaled_interp_zero hzero))⟩

end Sys2Proof.Machine
end

section
/-! The factors of a pair (R226 to R228): the radius lies in 0 to 1, which bounds both factors. -/

namespace Sys2Proof.Machine

theorem pairLawful_iff {l : FpLib} {fs : FilterSpec} {d : Dir} {t : Fp} {n : BitVec 2} :
    pairLawful l fs d t n = true ↔
      pow10Lawful l (attenuationExp l.fmt
        (rangeDb l.fmt (pick4 (fs.range.get d).start n) (pick4 (fs.range.get d).stop n) t)) = true ∧
      pow2Lawful l (pairOctave l.fmt (pick4 (fs.freq.get d).start n) (pick4 (fs.freq.get d).stop n) t) = true ∧
      cosLawful l (pairPhase l (pick4 (fs.freq.get d).start n) (pick4 (fs.freq.get d).stop n) t) = true := by
  rw [pairLawful, Bool.and_eq_true, Bool.and_eq_true, and_assoc]

theorem Within.neg {f : FpFmt} {b : Nat} {x : Fp} (h : Within f b x) : Within f b (fpNeg x) := by
  refine ⟨(inFormat_fpNeg f x).trans h.finite, ?_⟩
  rw [fpVal_neg, abs_neg]
  exact h.abs_le

theorem within_one {f : FpFmt} {x : Fp} (hfin : inFormat f x = true) (h0 : 0 ≤ fpVal x) (h1 : fpVal x ≤ 1) :
    Within f 1 x :=
  ⟨hfin, by rw [abs_of_nonneg h0, Nat.cast_one]; exact h1⟩

/-- The radius of a pair lies in 0 to 1, rounding included (R226). -/
theorem pairGain_mem {l : FpLib} {r0 r1 : Half} {p : Nat} (hp : p ≤ 65536)
    (hl : pow10Lawful l (attenuationExp l.fmt (rangeDb l.fmt r0 r1 (position l.fmt p))) = true) :
    inFormat l.fmt (pairGain l r0 r1 (position l.fmt p)) = true ∧
      0 ≤ fpVal (pairGain l r0 r1 (position l.fmt p)) ∧ fpVal (pairGain l r0 r1 (position l.fmt p)) ≤ 1 := by
  obtain ⟨hfin, h0, h1⟩ := attenuation_mem hl (scaled_interp_nonneg l.fmt r0 r1 hp)
  have hr := fpSub_rounds l.fmt (flInt l.fmt 1) (attenuation l (rangeDb l.fmt r0 r1 (position l.fmt p)))
  rw [fpVal_flInt_one] at hr
  have hwithin := (Within.flInt l.fmt (v := 1) (by decide)).add (within_one hfin h0 h1).neg (by decide)
  exact ⟨hwithin.finite, hr.nonneg (by linarith),
    hr.le_of_le (by exact_mod_cast representable_nat l.fmt (n := 1) (by decide)) zero_le_one (by linarith)⟩

theorem quadratic_fst (l : FpLib) (g th : Fp) :
    (quadratic l g th).1 = fpMul l.fmt (fpMul l.fmt (flInt l.fmt (-2)) g) (l.cos th) := by
  rw [quadratic]

theorem quadratic_snd (l : FpLib) (g th : Fp) : (quadratic l g th).2 = fpMul l.fmt g g := by
  rw [quadratic]

/-- A radius of at most 1 and a cosine of at most 1 give factors of at most 2 and 1 (R228). -/
theorem quadratic_within {l : FpLib} {g th : Fp} (hg : Within l.fmt 1 g) (hcos : cosLawful l th = true) :
    Within l.fmt 2 (quadratic l g th).1 ∧ Within l.fmt 1 (quadratic l g th).2 := by
  obtain ⟨hfin, hlo, hhi⟩ := (cosLawful_iff l th).1 hcos
  have hc : Within l.fmt 1 (l.cos th) := ⟨hfin, by rw [Nat.cast_one]; exact abs_le.2 ⟨hlo, hhi⟩⟩
  have htwo : Within l.fmt 2 (flInt l.fmt (-2)) := (Within.flInt l.fmt (v := -2) (by decide)).mono (by decide)
  rw [quadratic_fst, quadratic_snd]
  exact ⟨(htwo.mul hg (by decide)).mul hc (by decide), hg.mul hg (by decide)⟩

/-- A radius of 0 gives factors of 0 (R228). -/
theorem quadratic_of_zero {l : FpLib} {g : Fp} (th : Fp) (hg : fpVal g = 0) :
    fpVal (quadratic l g th).1 = 0 ∧ fpVal (quadratic l g th).2 = 0 := by
  have hprod : fpVal (fpMul l.fmt (flInt l.fmt (-2)) g) = 0 := by
    have hr := fpMul_rounds l.fmt (flInt l.fmt (-2)) g
    rw [hg, mul_zero] at hr
    exact hr.eq_zero
  rw [quadratic_fst, quadratic_snd]
  exact ⟨scaled_interp_zero hprod, scaled_interp_zero hg⟩

/-- The factors of a pair are values of the format within their bounds (R226 to R228). -/
theorem pairQuadratic_within {l : FpLib} {fs : FilterSpec} {d : Dir} {n : BitVec 2} {p : Nat} (hp : p ≤ 65536)
    (hl : pairLawful l fs d (position l.fmt p) n = true) :
    Within l.fmt 2 (pairQuadratic l fs d (position l.fmt p) n).1 ∧
      Within l.fmt 1 (pairQuadratic l fs d (position l.fmt p) n).2 := by
  obtain ⟨hpow, -, hcos⟩ := pairLawful_iff.1 hl
  obtain ⟨hfin, h0, h1⟩ := pairGain_mem hp hpow
  exact quadratic_within (within_one hfin h0 h1) hcos

/-- Settles O46. -/
theorem pairFactorsAreBounded : Obligations.PairFactorsAreBounded := by
  intro l fs d n p hp hl
  obtain ⟨hpow, -, -⟩ := pairLawful_iff.1 hl
  obtain ⟨-, h0, h1⟩ := pairGain_mem hp hpow
  obtain ⟨ha, hb⟩ := pairQuadratic_within hp hl
  have hsquare : 0 ≤ fpVal (pairQuadratic l fs d (position l.fmt p) n).2 := by
    rw [pairQuadratic, quadratic_snd]
    exact (fpMul_rounds l.fmt _ _).nonneg (mul_self_nonneg _)
  have hb1 := hb.abs_le
  rw [Nat.cast_one] at hb1
  exact ⟨h0, h1, ha.abs_le, hsquare, (le_abs_self _).trans hb1⟩

end Sys2Proof.Machine
end

section
/-! The coefficients (R229 to R231, R310): the bounds of the factors carry through the expansion of at most four pairs. -/

namespace Sys2Proof.Machine

/-- One pass makes the coefficients at most four times as large: each is made of one old one, twice another and a
third (R229). -/
theorem expandPass_within {f : FpFmt} {c : List Fp} {b : Nat} {q : Fp × Fp} (hlen : 2 ≤ c.length) (hb : 1 ≤ b)
    (hmax : 4 * b ≤ 2 ^ 24) (hc : ∀ x ∈ c, Within f b x) (hq : Within f 2 q.1 ∧ Within f 1 q.2) :
    ∀ x ∈ expandPass (fpArith f) c q, Within f (4 * b) x := by
  obtain ⟨ha, hb'⟩ := hq
  have hget : ∀ k, Within f b (c.getD k (fpArith f).zero) := fun k => by
    rcases lt_or_ge k c.length with hk | hk
    · rw [List.getD_eq_getElem _ _ hk]
      exact hc _ (List.getElem_mem hk)
    · rw [List.getD_eq_default _ _ hk]
      exact (Within.flInt f (v := 0) (by decide)).mono (Nat.zero_le _)
  have hpair : ∀ j k, Within f (b * 2 + b * 1) ((fpArith f).add ((fpArith f).mul (c.getD j (fpArith f).zero) q.1)
      ((fpArith f).mul (c.getD k (fpArith f).zero) q.2)) := fun j k =>
    ((hget j).mul ha (by omega)).add ((hget k).mul hb' (by omega)) (by omega)
  intro x hx
  obtain ⟨k, hk, rfl⟩ := List.getElem_of_mem hx
  rw [← List.getD_eq_getElem _ (fpArith f).zero hk]
  rw [expandPass_length] at hk
  rcases (by omega : k = 0 ∨ k = 1 ∨ (2 ≤ k ∧ k < c.length) ∨ k = c.length ∨ k = c.length + 1) with
    rfl | rfl | ⟨hk2, hkc⟩ | rfl | rfl
  · rw [expandPass_zero _ q hlen]
    exact ((hget 0).add ha (by omega)).mono (by omega)
  · rw [expandPass_one _ q hlen]
    exact ((hget 1).add (((hget 0).mul ha (by omega)).add hb' (by omega)) (by omega)).mono (by omega)
  · rw [expandPass_loop _ q hk2 hkc]
    exact ((hget k).add (hpair _ _) (by omega)).mono (by omega)
  · rw [expandPass_high _ q hlen]
    exact (hpair _ _).mono (by omega)
  · rw [expandPass_highest _ q hlen]
    exact ((hget _).mul hb' (by omega)).mono (by omega)

theorem foldl_expandPass_within {f : FpFmt} {qs : List (Fp × Fp)} {c : List Fp} {b : Nat} (hlen : 2 ≤ c.length)
    (hb : 1 ≤ b) (hmax : 4 ^ qs.length * b ≤ 2 ^ 24) (hc : ∀ x ∈ c, Within f b x)
    (hqs : ∀ q ∈ qs, Within f 2 q.1 ∧ Within f 1 q.2) :
    ∀ x ∈ qs.foldl (expandPass (fpArith f)) c, Within f (4 ^ qs.length * b) x := by
  induction qs generalizing c b with
  | nil => simpa using hc
  | cons q qs ih =>
    obtain ⟨hq, hrest⟩ := List.forall_mem_cons.1 hqs
    have hpow : 4 ^ (q :: qs).length * b = 4 ^ qs.length * (4 * b) := by
      rw [List.length_cons, pow_succ]
      ring
    rw [hpow] at hmax ⊢
    have hfour : 4 * b ≤ 2 ^ 24 := (Nat.le_mul_of_pos_left _ (by positivity)).trans hmax
    exact ih (by rw [expandPass_length]; omega) (by omega) hmax (expandPass_within hlen hb hfour hc hq) hrest

/-- The expansion of at most four pairs has coefficients of at most 128 (R229). -/
theorem expand_within {f : FpFmt} {qs : List (Fp × Fp)} (hlen : qs.length ≤ 4)
    (hqs : ∀ q ∈ qs, Within f 2 q.1 ∧ Within f 1 q.2) : ∀ x ∈ expand (fpArith f) qs, Within f 128 x := by
  cases qs with
  | nil => exact fun x hx => absurd hx List.not_mem_nil
  | cons q qs =>
    obtain ⟨⟨ha, hb⟩, hrest⟩ := List.forall_mem_cons.1 hqs
    have hpow : 4 ^ qs.length * 2 ≤ 128 := by
      have : 4 ^ qs.length ≤ 4 ^ 3 := Nat.pow_le_pow_right (by decide) (by rw [List.length_cons] at hlen; omega)
      omega
    have hfirst : ∀ x ∈ [q.1, q.2], Within f 2 x := by
      intro x hx
      rcases List.mem_pair.1 hx with rfl | rfl
      · exact ha
      · exact hb.mono (by decide)
    exact fun x hx =>
      (foldl_expandPass_within le_rfl (by decide) (hpow.trans (by decide)) hfirst hrest x hx).mono hpow

/-- The check of a direction's pairs, pair by pair (R310). -/
theorem all_pairLawful_iff {l : FpLib} {fs : FilterSpec} {d : Dir} {t : Fp} {count : Nat} :
    ((List.range count).all fun n => pairLawful l fs d t (BitVec.ofNat 2 n)) = true ↔
      ∀ n : BitVec 2, n.toNat < count → pairLawful l fs d t n = true := by
  rw [List.all_eq_true]
  refine ⟨fun h n hn => ?_, fun h k hk => ?_⟩
  · have := h n.toNat (List.mem_range.2 hn)
    rwa [BitVec.ofNat_toNat, BitVec.setWidth_eq] at this
  · refine h _ ((?_ : _ ≤ k).trans_lt (List.mem_range.1 hk))
    rw [BitVec.toNat_ofNat]
    exact Nat.mod_le _ _

theorem evalLawful_iff {l : FpLib} {fs : FilterSpec} {d : Dir} {t : Fp} :
    evalLawful l fs d t = true ↔
      (d = .onset → unityLawful l fs t = true) ∧
      ∀ n : BitVec 2, n.toNat < (fs.pcnt.get d).toNat → pairLawful l fs d t n = true := by
  rw [← all_pairLawful_iff]
  cases d with
  | onset => exact (Bool.and_eq_true _ _).to_iff.trans (and_congr_left' ⟨fun h _ => h, fun h => h rfl⟩)
  | release => exact ⟨fun h => ⟨nofun, h⟩, fun h => h.2⟩

theorem rawCoeffs_length (l : FpLib) (fs : FilterSpec) (d : Dir) (t : Fp) :
    (rawCoeffs l fs d t).length = 2 * (fs.pcnt.get d).toNat := by
  rw [rawCoeffs, expand_length, List.length_map, List.length_range]

theorem coeffs_length (l : FpLib) (fs : FilterSpec) (d : Dir) (t : Fp) :
    (coeffs l fs d t).length = 2 * (fs.pcnt.get d).toNat := by
  cases d with
  | onset => exact (List.length_map _).trans (rawCoeffs_length ..)
  | release => exact rawCoeffs_length ..

theorem rawCoeffs_within {l : FpLib} {fs : FilterSpec} {d : Dir} {p : Nat} (hp : p ≤ 65536)
    (hcnt : (fs.pcnt.get d).toNat ≤ 4)
    (hl : ∀ n : BitVec 2, n.toNat < (fs.pcnt.get d).toNat → pairLawful l fs d (position l.fmt p) n = true) :
    ∀ c ∈ rawCoeffs l fs d (position l.fmt p), Within l.fmt 128 c := by
  refine expand_within (by rwa [List.length_map, List.length_range]) fun q hq => ?_
  obtain ⟨k, hk, rfl⟩ := List.mem_map.1 hq
  have hk := List.mem_range.1 hk
  refine pairQuadratic_within hp (hl _ ?_)
  rw [BitVec.toNat_ofNat]
  exact (Nat.mod_le _ _).trans_lt hk

/-- Every coefficient is a value of the format of at most 128: the unity gain makes none larger (R230, R233). -/
theorem coeffs_within {l : FpLib} {fs : FilterSpec} {d : Dir} {p : Nat} (hp : p ≤ 65536)
    (hcnt : (fs.pcnt.get d).toNat ≤ 4) (hl : evalLawful l fs d (position l.fmt p) = true) :
    ∀ c ∈ coeffs l fs d (position l.fmt p), Within l.fmt 128 c := by
  obtain ⟨hunity, hpairs⟩ := evalLawful_iff.1 hl
  have hraw := rawCoeffs_within hp hcnt hpairs
  cases d with
  | release => exact hraw
  | onset =>
    obtain ⟨hfin, h0, h1⟩ := unityGain_mem hp (hunity rfl)
    intro c hc
    obtain ⟨x, hx, rfl⟩ := List.mem_map.1 hc
    exact (hraw x hx).mul (within_one hfin h0 h1) (by decide)

/-- Scaled by 2^16 a coefficient of at most 128 is within 32 bits (R231, R233). -/
theorem fixed16_toInt_of_within {f : FpFmt} {c : Fp} (h : Within f 128 c) :
    (fixed16 f c).toInt = truncF (fpMul f c (flInt f 65536)) := by
  have hscaled := (h.mul (Within.flInt f (v := 65536) (by decide)) (by decide)).abs_le
  have htrunc := abs_le.1 (abs_truncF_le (b := 8388608) _ (hscaled.trans (by norm_num)))
  exact wrap32_toInt (by omega) (by omega)

/-- The block's own functions obey R222 wherever FLT_EVAL asks for them (R310). -/
theorem evalLawful_blockLib (fs : FilterSpec) (d : Dir) (t : Fp) : evalLawful blockLib fs d t = true :=
  evalLawful_iff.2 ⟨fun _ => blockPow10_lawful _, fun _ _ =>
    pairLawful_iff.2 ⟨blockPow10_lawful _, blockPow2_lawful _, blockCos_lawful _⟩⟩

/-- FLT_EVAL at a position and with a pair count that are in range, and with lawful functions (R232). -/
theorem fltEvalWith_of_lawful {l : FpLib} {d : Dir} {p : Word} {s : State} (hp : p.toNat ≤ 65536)
    (hcnt : (s.spec.pcnt.get d).toNat ≤ 4) (hl : evalLawful l s.spec d (position l.fmt p.toNat) = true) :
    fltEvalWith l d p s
      = .next ((s.evalBank l d p.toNat).completeWith (BitVec.ofNat 32 (2 * (s.spec.pcnt.get d).toNat))) := by
  rw [fltEvalWith, if_neg (not_lt.2 hp), if_neg (not_lt.2 hcnt), if_pos hl]

theorem fltEvalWith_of_unlawful {l : FpLib} {d : Dir} {p : Word} {s : State} (hp : p.toNat ≤ 65536)
    (hcnt : (s.spec.pcnt.get d).toNat ≤ 4) (hl : evalLawful l s.spec d (position l.fmt p.toNat) = false) :
    fltEvalWith l d p s = .refused .unlawfulFunctions := by
  rw [fltEvalWith, if_neg (not_lt.2 hp), if_neg (not_lt.2 hcnt), if_neg (by rw [hl]; decide)]

/-- Settles O47. -/
theorem coefficientsNeverOverflow : Obligations.CoefficientsNeverOverflow := by
  refine ⟨fun l fs d p hp hcnt hl => ⟨coeffs_length .., fun c hc => ?_⟩,
    fun l d p s hp hcnt => ⟨fltEvalWith_of_unlawful hp hcnt, fun hl => ⟨_, fltEvalWith_of_lawful hp hcnt hl⟩⟩,
    fun l fs d t => evalLawful_iff, evalLawful_blockLib, fun _ _ _ => rfl⟩
  have hwithin := coeffs_within hp hcnt hl c hc
  exact ⟨hwithin.finite, fixed16_toInt_of_within hwithin⟩

end Sys2Proof.Machine
end

section
/-! Codes that do not change and codes of 0 (R232, R235). -/

namespace Sys2Proof.Machine

/-- With equal codes at both ends a pair's factors do not depend on the position (R235). -/
theorem pairQuadratic_static {fs : FilterSpec} {d : Dir} {n : BitVec 2}
    (hf : pick4 (fs.freq.get d).start n = pick4 (fs.freq.get d).stop n)
    (hr : pick4 (fs.range.get d).start n = pick4 (fs.range.get d).stop n) (l : FpLib) (t u : Fp) :
    pairQuadratic l fs d t n = pairQuadratic l fs d u n := by
  have hinterp : ∀ (c : Half) (v : Fp), interp l.fmt c.toNat c.toNat v = flInt l.fmt c.toNat := fun c v =>
    interp_self l.fmt c.isLt v
  simp only [pairQuadratic, pairGain, rangeDb, pairPhase, pairOctave, ← hf, ← hr, hinterp]

/-- Settles O49. -/
theorem staticPairsIgnoreThePosition : Obligations.StaticPairsIgnoreThePosition := by
  intro l fs p q _ _ hf hr
  have hraw : rawCoeffs l fs .release (position l.fmt p) = rawCoeffs l fs .release (position l.fmt q) :=
    congrArg (expand (fpArith l.fmt)) (List.map_congr_left fun n _ =>
      pairQuadratic_static (d := .release) (hf _) (hr _) l _ _)
  exact congrArg (List.map (fixed16 l.fmt)) hraw

/-- Range codes of 0 are no attenuation, which leaves a radius of 0 (R226). -/
theorem pairGain_of_zero {l : FpLib} {t : Fp} (hl : pow10Lawful l (attenuationExp l.fmt (rangeDb l.fmt 0 0 t)) = true) :
    fpVal (pairGain l 0 0 t) = 0 := by
  have hinterp : fpVal (interp l.fmt (0 : Half).toNat (0 : Half).toNat t) = 0 := by
    rw [interp_self l.fmt (0 : Half).isLt]
    exact fpVal_flInt_nat l.fmt (by decide)
  have hr := fpSub_rounds l.fmt (flInt l.fmt 1) (attenuation l (rangeDb l.fmt 0 0 t))
  rw [fpVal_flInt_one, attenuation_of_zero hl (scaled_interp_zero hinterp), sub_self] at hr
  exact hr.eq_zero

/-- The coefficients of a direction with one pair are its factors, or multiples of them (R229, R230). -/
theorem coeffs_of_one_pair {l : FpLib} {fs : FilterSpec} {d : Dir} {t : Fp} (hcnt : (fs.pcnt.get d).toNat = 1)
    (ha : fpVal (pairQuadratic l fs d t 0).1 = 0) (hb : fpVal (pairQuadratic l fs d t 0).2 = 0) :
    ∃ c0 c1, coeffs l fs d t = [c0, c1] ∧ fpVal c0 = 0 ∧ fpVal c1 = 0 := by
  have hraw : rawCoeffs l fs d t = [(pairQuadratic l fs d t 0).1, (pairQuadratic l fs d t 0).2] := by
    rw [rawCoeffs, hcnt]
    rfl
  cases d with
  | release => exact ⟨_, _, hraw, ha, hb⟩
  | onset =>
    refine ⟨fpMul l.fmt (pairQuadratic l fs .onset t 0).1 (unityGain l fs t),
      fpMul l.fmt (pairQuadratic l fs .onset t 0).2 (unityGain l fs t), ?_, scaled_interp_zero ha,
      scaled_interp_zero hb⟩
    rw [coeffs, hraw]
    rfl

/-- Settles O50. -/
theorem zeroRangeGivesZeroCoefficients : Obligations.ZeroRangeGivesZeroCoefficients := by
  intro l fs d p hp
  have hpair : ∀ n : BitVec 2, pairLawful l fs d (position l.fmt p) n = true →
      pick4 (fs.range.get d).start n = 0 → pick4 (fs.range.get d).stop n = 0 →
      fpVal (pairGain l (pick4 (fs.range.get d).start n) (pick4 (fs.range.get d).stop n) (position l.fmt p)) = 0 := by
    intro n hl h0 h1
    have hpow := (pairLawful_iff.1 hl).1
    rw [h0, h1] at hpow ⊢
    exact pairGain_of_zero hpow
  refine ⟨fun n hl h0 h1 => ⟨hpair n hl h0 h1, quadratic_of_zero _ (hpair n hl h0 h1)⟩, fun hcnt hl h0 h1 => ?_⟩
  have hlawful := (evalLawful_iff.1 hl).2 0 (by rw [hcnt]; decide)
  obtain ⟨ha, hb⟩ := quadratic_of_zero (l := l)
    (pairPhase l (pick4 (fs.freq.get d).start 0) (pick4 (fs.freq.get d).stop 0) (position l.fmt p))
    (hpair 0 hlawful h0 h1)
  obtain ⟨c0, c1, hcoeffs, hc0, hc1⟩ := coeffs_of_one_pair hcnt ha hb
  rw [fixedCoeffs, hcoeffs, List.map_cons, List.map_cons, List.map_nil, fixed16_of_zero hc0, fixed16_of_zero hc1]

end Sys2Proof.Machine
end

section
/-! FLT_EVAL of the block (R232, R234): what stands in the coefficient bank. -/

namespace Sys2Proof.Machine

/-- FLT_EVAL of the block at a position and with a pair count that are in range. -/
theorem exec_fltEval_of_range {d : Dir} {p : Word} {s : State} (hp : p.toNat ≤ 65536)
    (hcnt : (s.spec.pcnt.get d).toNat ≤ 4) :
    exec (.fltEval d p) s
      = .next ((s.evalBank blockLib d p.toNat).completeWith (BitVec.ofNat 32 (2 * (s.spec.pcnt.get d).toNat))) :=
  fltEvalWith_of_lawful hp hcnt (evalLawful_blockLib ..)

/-- The entries after the new coefficients are kept (R234). -/
theorem overwritten_kept (v : Vector Word 8) (l : FpLib) (fs : FilterSpec) (d : Dir) (p : Nat) {k : Nat} (hk : k < 8)
    (hcnt : 2 * (fs.pcnt.get d).toNat ≤ k) : (overwriteFront v (fixedCoeffs l fs d p))[k] = v[k] := by
  have hnone : (fixedCoeffs l fs d p)[k]? = none :=
    List.getElem?_eq_none (by rwa [fixedCoeffs, List.length_map, coeffs_length])
  rw [overwriteFront_getElem, hnone, Option.getD_none]

/-- A new coefficient stands at its place (R234). -/
theorem overwritten_new (v : Vector Word 8) {l : FpLib} {fs : FilterSpec} {d : Dir} {p k : Nat} (hk : k < 8) {c : Fp}
    (hc : (coeffs l fs d (position l.fmt p))[k]? = some c) :
    (overwriteFront v (fixedCoeffs l fs d p))[k] = fixed16 l.fmt c := by
  rw [overwriteFront_getElem, fixedCoeffs, List.getElem?_map, hc, Option.map_some, Option.getD_some]

/-- Settles O40. -/
theorem fltEvalReleaseResult : Obligations.FltEvalReleaseResult := by
  intro s p hp hcnt
  refine ⟨overwriteFront s.c16.release (fixedCoeffs blockLib s.spec .release p.toNat), ?_, rawCoeffs_length ..,
    fun k hk => ⟨fun c hc => overwritten_new (d := .release) _ hk hc, fun hge => overwritten_kept _ _ _ .release _ hk hge⟩⟩
  rw [exec_fltEval_of_range (d := .release) hp hcnt, State.completeWith, State.evalBank]
  rfl

/-- Settles O41. -/
theorem fltEvalOnsetResult : Obligations.FltEvalOnsetResult := by
  intro s p hp hcnt
  refine ⟨overwriteFront s.c16.onset (fixedCoeffs blockLib s.spec .onset p.toNat), ?_,
    fun k hk => ⟨fun c hc => overwritten_new (d := .onset) _ hk ?_, fun hge => overwritten_kept _ _ _ .onset _ hk hge⟩⟩
  · rw [exec_fltEval_of_range (d := .onset) hp hcnt, State.completeWith, State.evalBank, fixedUnity, fixed16]
    rfl
  · exact List.getElem?_map.trans (congrArg (Option.map _) hc)

end Sys2Proof.Machine
end

section
/-! The filter's laws under every step, and with them all the laws of a reachable state: a legal state never stops, and
zero words bring the framing back (R44, R45, R323, R330). -/

namespace Sys2Proof.Machine

/-! The FilterSpec and the coefficient bank (R39, R42 to R45). -/

/-- The laws of the filter's registers together. -/
def FilterLegal (s : State) : Prop := SpecLegal s.spec ∧ BankLegal s

/-- The filter's laws speak of the FilterSpec and the bank alone. -/
theorem FilterLegal.congr {s t : State} (h : FilterLegal s) (hspec : t.spec = s.spec) (hunity : t.unity16 = s.unity16)
    (hnco : t.nco = s.nco) : FilterLegal t := by
  obtain ⟨hs, hu, hc⟩ := h
  refine ⟨hspec ▸ hs, ?_, ?_⟩
  · rwa [hunity]
  · rwa [hnco]

theorem FilterLegal.reset : FilterLegal State.reset :=
  ⟨.zero, by decide, fun d => by cases d <;> decide⟩

/-- Twice a pair count of at most 4 is one of the coefficient counts (R45). -/
theorem twice_count_mem {n : Nat} (h : n ≤ 4) : (BitVec.ofNat 4 (2 * n)).toNat ∈ [0, 2, 4, 6, 8] := by
  interval_cases n <;> decide

/-- FLT_EVAL writes a count for its direction and a unity gain of at most 65536 (R44, R45, R233). -/
theorem BankLegal.evalBank {s : State} (h : BankLegal s) {d : Dir} {p : Nat} (hp : p ≤ 65536)
    (hcnt : (s.spec.pcnt.get d).toNat ≤ 4) : BankLegal (s.evalBank blockLib d p) := by
  constructor
  · cases d with
    | release => exact h.unity
    | onset => exact (unityGainLiesInUnitRange blockLib s.spec p hp (blockPow10_lawful _)).1
  · intro d'
    rw [State.evalBank_nco]
    by_cases hd : d' = d
    · rw [hd, PerDir.get_put_same]
      exact twice_count_mem hcnt
    · rw [PerDir.get_put_other _ hd]
      exact h.counts d'

theorem exec_keeps_filterLegal (i : Instr) (s t : State) (hs : FilterLegal s) (h : exec i s = .next t) :
    FilterLegal t := by
  obtain ⟨hspec, hbank, -⟩ := exec_filterFrame h
  cases i with
  | fltLoad bytes =>
    rcases execFltLoad_cases h with ⟨fs, env, len, hparse, rfl⟩ | ⟨e, info, -, rfl⟩
    · exact ⟨specLegal_of_parseRecord hparse, hs.2.unity, hs.2.counts⟩
    · exact hs.congr rfl rfl rfl
  | fltEval d p =>
    rcases execFltEval_cases h with ⟨-, rfl⟩ | ⟨hp, hcnt, rfl⟩
    · exact hs.congr rfl rfl rfl
    · have hb := hs.2.evalBank hp hcnt
      exact ⟨hs.1, hb.unity, hb.counts⟩
  | _ => exact hs.congr (hspec nofun).1 (hbank nofun).1 (hbank nofun).2.1

theorem step_keeps_filterLegal {s t : State} (hs : FilterLegal s) (h : step s = .next t) : FilterLegal t :=
  step_keeps (fun _ => FilterLegal.reset.congr rfl rfl rfl) (fun _ _ h => h.congr rfl rfl rfl)
    (fun _ _ _ h => h.congr rfl rfl rfl) (fun _ _ _ h => h.congr rfl rfl rfl) exec_keeps_filterLegal hs h

/-- Settles O13. -/
theorem stepKeepsFilterLegal : Obligations.StepKeepsFilterLegal := fun _ _ hspec hbank h =>
  step_keeps_filterLegal ⟨hspec, hbank⟩ h

/-! All laws together. -/

/-- Settles O11. -/
theorem resetStateIsLegal : Obligations.ResetStateIsLegal :=
  ⟨.reset, FilterLegal.reset.1, FilterLegal.reset.2, .reset, trivial, .reset⟩

theorem step_keeps_legal {s t : State} (hs : Legal s) (h : step s = .next t) : Legal t := by
  obtain ⟨hspec, hbank⟩ := stepKeepsFilterLegal s t hs.spec hs.bank h
  obtain ⟨hframing, hchannels⟩ := stepKeepsFramingAndChannels s t hs.framing hs.channels h
  exact ⟨stepKeepsMixerLegal s t hs.mixer h, hspec, hbank, stepKeepsErrorRecordLegal s t hs.record h, hframing,
    hchannels⟩

/-- A coefficient count is at most 8 (R45). -/
theorem BankLegal.count_le {s : State} (h : BankLegal s) (d : Dir) : (s.nco.get d).toNat ≤ 8 := by
  have := h.counts d
  simp only [List.mem_cons, List.not_mem_nil, or_false] at this
  omega

/-- No command meets a fault in a state that keeps the laws: they rule out what each fault asks for (R39, R45, R84,
R323). -/
theorem exec_completes {s : State} (hmixer : MixerLegal s) (hspec : SpecLegal s.spec) (hbank : BankLegal s)
    (i : Instr) : completes i s := by
  cases i with
  | nop => exact ⟨_, rfl⟩
  | clrerr => exact ⟨_, rfl⟩
  | regRd addr => exact ⟨_, rfl⟩
  | regWr addr value => exact ⟨_, rfl⟩
  | oscGen ch amp inc => exact ⟨_, rfl⟩
  | fltLoad bytes =>
    cases hp : parseRecord bytes with
    | ok v => exact ⟨_, exec_fltLoad_of_parseRecord_ok hp s⟩
    | error e => exact ⟨_, exec_fltLoad_of_parseRecord_error hp s⟩
  | fltEval d p =>
    rcases lt_or_ge 65536 p.toNat with hp | hp
    · exact ⟨_, exec_fltEval_position_above d hp s⟩
    · exact ⟨_, exec_fltEval_of_range hp (hspec.pairs d)⟩
  | fltStep x => exact ⟨_, exec_fltStep_of_counts (hbank.count_le .onset) (hbank.count_le .release) x⟩
  | fltClr => exact ⟨_, rfl⟩
  | mixInit ms =>
    rcases le_or_gt ms.toNat 190217 with h | h
    · exact ⟨_, exec_mixInit_of_fits h s⟩
    · exact ⟨_, (mixInitAllocatesZeroes ms s).2 h⟩
  | mixTone start len =>
    rcases le_or_gt (samples start.toNat + samples len.toNat) s.mixLen.toNat with h | h
    · exact ⟨_, exec_mixTone_of_fits h⟩
    · exact ⟨_, (mixToneSetsTheTone start len s).2 h⟩
  | mixAdd sample =>
    rcases lt_or_ge s.mixIdx.toNat s.mixCnt.toNat with h | h
    · exact ⟨_, exec_mixAdd_of_room h (hmixer.next_inside h) sample⟩
    · exact ⟨_, (mixAddMergesWithSaturation sample s hmixer).2 h⟩
  | mixRd pos =>
    rcases lt_or_ge pos.toNat s.mixLen.toNat with h | h
    · exact ⟨_, exec_mixRd_of_inside h⟩
    · exact ⟨_, ((mixReadsReturnOneSample.1 pos s).2 h).1⟩
  | mixRdpcm pos =>
    rcases lt_or_ge pos.toNat s.mixLen.toNat with h | h
    · exact ⟨_, exec_mixRdpcm_of_inside h⟩
    · exact ⟨_, ((mixReadsReturnOneSample.1 pos s).2 h).2⟩

/-- A whole command completes from a legal state, whether or not its words decode (R117, R118, R323). -/
theorem runCommand_completes {s : State} (hmixer : MixerLegal s) (hspec : SpecLegal s.spec) (hbank : BankLegal s)
    (ws : List Word) : ∃ t, runCommand ws s = .next t := by
  cases hd : decode ws with
  | ok i =>
    obtain ⟨t, ht⟩ := exec_completes hmixer hspec hbank i
    exact ⟨t, (runCommand_of_ok hd s).trans ht⟩
  | error e => exact ⟨_, runCommand_of_error hd s⟩

/-- Every step from a legal state answers a next state (R323). -/
theorem step_progress {s : State} (hs : Legal s) : ∃ t, step s = .next t := by
  cases hf : fetch s.asm s.port with
  | waiting asm => exact ⟨_, step_of_waiting hf⟩
  | reset rest => exact ⟨_, step_of_reset hf⟩
  | command ws rest =>
    obtain ⟨t, ht⟩ := runCommand_completes (s := s.consume ws.length rest)
      (hs.mixer.congr rfl rfl rfl rfl rfl) hs.spec ⟨hs.bank.unity, hs.bank.counts⟩ ws
    exact ⟨t, (step_of_command hf).trans ht⟩

/-- Settles O16: progress, and the laws one by one. -/
theorem legalStatesNeverStop : Obligations.LegalStatesNeverStop := by
  intro s hs
  obtain ⟨t, ht⟩ := step_progress hs
  exact ⟨t, ht, step_keeps_legal hs ht⟩

/-! Zero words (R330). -/

/-- A step that answers a next state is the first of a run. -/
theorem run_of_step_next (M : Host.Core) {s t : M.State} (h : M.step s = .next t) (n : Nat) :
    M.run (n + 1) s = M.run n t := by
  rw [Host.Core.run, h]

theorem run_succ {s t : State} (h : step s = .next t) (n : Nat) :
    Host.Core.run Sys2Proof.core (n + 1) s = Host.Core.run Sys2Proof.core n t :=
  run_of_step_next Sys2Proof.core h n

/-- What a step of a whole command leaves: nothing of it in the assembly buffer, and the words behind it pending. -/
theorem asm_and_port_of_command {s t : State} {ws : List Word} {rest : List PortEvent}
    (hf : fetch s.asm s.port = .command ws rest) (h : step s = .next t) : t.asm = [] ∧ t.port = rest := by
  rw [step_of_command hf] at h
  cases hd : decode ws with
  | ok i =>
    rw [runCommand_of_ok hd] at h
    have hframe := exec_registerFrame h
    exact ⟨hframe.asm, hframe.port⟩
  | error e =>
    rw [runCommand_of_error hd] at h
    cases h
    exact ⟨rfl, rfl⟩

/-- Zero words, as many as are asked for, and the ones behind them. -/
theorem fetchMore_zeros (asm : List Word) {k n : Nat} (hk : k ≤ n) :
    fetchMore asm k (List.replicate n (.word 0))
      = .command (asm ++ List.replicate k 0) (List.replicate (n - k) (.word 0)) := by
  have hsplit : List.replicate n (PortEvent.word 0)
      = (List.replicate k (0 : Word)).map PortEvent.word ++ List.replicate (n - k) (.word 0) := by
    rw [List.map_replicate, ← List.replicate_add, Nat.add_sub_cancel' hk]
  have := fetchMore_command asm (List.replicate k 0) (List.replicate (n - k) (.word 0))
  rwa [List.length_replicate, ← hsplit] at this

/-- The word 0 is a whole command (R150). -/
theorem fetch_zero (n : Nat) :
    fetch [] (List.replicate (n + 1) (.word 0)) = .command [0] (List.replicate n (.word 0)) :=
  fetchMore_zeros [0] (Nat.zero_le n)

/-- Between commands each step takes one zero word, and the rest of the steps wait (R150, R309). -/
theorem run_zeros {m n : Nat} (hnm : n ≤ m) {s : State} (hs : Legal s) (hasm : s.asm = [])
    (hport : s.port = List.replicate n (.word 0)) :
    ∃ t, Host.Core.run Sys2Proof.core m s = .next t ∧ t.asm = [] ∧ t.port = [] ∧ Legal t := by
  induction m generalizing n s with
  | zero =>
    obtain rfl : n = 0 := Nat.le_zero.1 hnm
    exact ⟨s, rfl, hasm, hport, hs⟩
  | succ m ih =>
    obtain ⟨t, ht, hlegal⟩ := legalStatesNeverStop s hs
    rw [run_succ ht m]
    cases n with
    | zero =>
      have hwait : step s = .next (s.await []) := step_of_waiting (by rw [hasm, hport]; rfl)
      cases hwait.symm.trans ht
      exact ih (Nat.zero_le m) hlegal rfl rfl
    | succ n =>
      have hf : fetch s.asm s.port = .command [0] (List.replicate n (.word 0)) := by
        rw [hasm, hport]
        exact fetch_zero n
      obtain ⟨hasm', hport'⟩ := asm_and_port_of_command hf ht
      exact ih (Nat.le_of_succ_le_succ hnm) hlegal hasm' hport'

/-- No command is longer than 16385 words (R114, R119). -/
theorem cmdLength_le (h : Word) : cmdLength h ≤ 16385 := by
  have himm := (immField h).isLt
  unfold cmdLength
  split
  · next o _ =>
    cases o <;> simp only [Opc.dataWords, recordWords] <;> omega
  · omega

/-- Settles O9: the first step ends the command that was begun, if one was, and the others take the zeros left. -/
theorem zeroWordsRestoreFraming : Obligations.ZeroWordsRestoreFraming := by
  intro s hs hport
  cases hasm : s.asm with
  | nil => exact run_zeros le_rfl hs hasm hport
  | cons h ds =>
    have hpartial : ds.length + 1 < cmdLength h := by
      have := hs.framing
      rwa [hasm] at this
    have hmax := cmdLength_le h
    obtain ⟨t, ht, hlegal⟩ := legalStatesNeverStop s hs
    have hf : fetch s.asm s.port
        = .command (h :: ds ++ List.replicate (cmdLength h - (ds.length + 1)) 0)
          (List.replicate (16385 - (cmdLength h - (ds.length + 1))) (.word 0)) := by
      rw [hasm, hport]
      exact fetchMore_zeros (h :: ds) (by omega)
    obtain ⟨hasm', hport'⟩ := asm_and_port_of_command hf ht
    rw [run_succ ht 16384]
    exact run_zeros (by omega) hlegal hasm' hport'

end Sys2Proof.Machine
end
